-- ==== Sys2Proof/Word.lean ====
section
/-! DEFINITION. The word types of the FSD core (00_scope.md rule R8): a 32-bit bus and register word,
an 8-bit byte, a 64-bit numeric word, a 16-bit finalized-luma entry. -/

namespace Sys2Proof

/-- A register or a bus data word, 32 bits (rule R8). -/
abbrev Word := BitVec 32

/-- One byte of pixel memory, or one channel of a pixel (rules R8, R72). -/
abbrev Byte := BitVec 8

/-- A NUMWORD: the 64-bit pattern of a numeric value (rules R8, R107). -/
abbrev NumWord := BitVec 64

/-- An entry of the finalized luma buffer QB, read as 16-bit two's complement (rules R8, R47). -/
abbrev QbEntry := BitVec 16

end Sys2Proof
end

