-- ==== Sys2Proof/Config.lean ====
section
/-! DEFINITION. The implementation parameters of rule R6 and the free values the spec leaves open
(93_implementation_defined.md). -/

namespace Sys2Proof

/-- The parameter NUMFMT (rule R6): fixed point (rule R20) or IEEE binary64 (rule R21). -/
inductive NumFmt where
  | fix
  | fp64
  deriving DecidableEq, Repr

/-- The five implementation parameters of rule R6.
`fracBits` has a meaning only when `numFmt` is `fix`. -/
structure Config where
  numFmt : NumFmt
  fracBits : Nat
  maxW : Nat
  maxH : Nat
  pmBytes : Nat
  deriving DecidableEq, Repr

/-- The defaults of rule R6. -/
def Config.default : Config :=
  { numFmt := .fix, fracBits := 16, maxW := 1024, maxH := 1024, pmBytes := 0x00800000 }

/-- U1 (rules R73, R272): the byte that pixel memory holds at an offset from power-on until something
writes it.
A free value, one for each offset. Log 5. -/
opaque Config.powerOnByte : Nat → Byte

/-- U2 (rules R84, R281): what a host read of pixel memory returns while BUSY = 1.
A free value, one for each draw number. Log 4. -/
opaque Config.busyRead : Nat → Word

/-- U3 (rule R273): the byte a reset during a pass leaves in the output region, for a draw number and
an offset.
A free value. Log 4. -/
opaque Config.abandonedByte : Nat → Nat → Byte

/-- The result of a binary64 operation that rule R13 does not give: an operand that is no numeric value
(exponent field 0x7FF, rule R108), or a division by zero.
A free value; no command reaches it. Log 10. -/
opaque Config.notNumeric : NumWord → NumWord → NumWord

/-- The integer nearest to a pattern that is no numeric value (rule R108).
A free value; no command reaches it. Log 10. -/
opaque Config.notNumericRound : NumWord → Int

end Sys2Proof
end

