-- ==== Sys2Proof/Machine/State.lean ====
section
/-! DEFINITION. The state of the FSD core: the registers of 10_state.md rule R30, pixel memory (rule R72),
the engine's internal state (rules R45 to R54), and three fields of the model's own (inputs, response,
draws). -/

namespace Sys2Proof.Machine

/-- The registers of the register window (rule R30). -/
inductive Reg where
  | id | cfg0 | cfg1 | cfg2 | ctrl | status | irqen | bits | width | height | srcLen | srcBase | dstBase
  | opa | lresLo | lresHi | qinLo | qinHi | qres
  deriving DecidableEq, Repr

/-- The error codes of rule R230.
The reserved codes 8 to 15 are never produced, so no constructor stands for them (U8). -/
inductive ErrCode where
  | none
  | illegalCmd
  | invalidParam
  | shapeMismatch
  | dimRange
  | align
  | addrRange
  | operand
  deriving DecidableEq, Repr

/-- The engine's phase (rule R54). -/
inductive Phase where
  /-- IDLE: no pass in progress, BUSY = 0. -/
  | idle
  /-- INIT: phase 1, Error Buffer initialization (rule R177). -/
  | init
  /-- SCAN: phase 2, the raster scan (rule R178). -/
  | scan
  /-- MAT: phase 3, materialization (rule R184). -/
  | mat
  deriving DecidableEq, Repr

/-- The width of a host access (rules R74, R75). -/
inductive Width where
  | b1
  | b2
  | b4
  deriving DecidableEq, Repr

/-- One host access, at an address relative to the block's base address (rule R71).
A write narrower than 4 bytes takes the low bits of its data word (log 17). -/
inductive Access where
  | read (width : Width) (addr : Word)
  | write (width : Width) (addr : Word) (data : Word)
  deriving DecidableEq, Repr

/-- One turn of the interleaving of rules R83, R84 and R241 (log 2). -/
inductive Input where
  /-- The host performs one access. -/
  | host (a : Access)
  /-- The engine performs one internal step; with BUSY = 0 there is none to perform (rule R37). -/
  | engine
  /-- The reset input is asserted, one atomic event (rule R270, U14). -/
  | reset
  deriving DecidableEq, Repr

/-- What the host saw of its last access (rule R77; log 3). -/
inductive Response where
  /-- No access has been made yet. -/
  | nothing
  /-- A write completed without a bus error. -/
  | written
  /-- A read completed and returned this value, zero-extended to 32 bits. -/
  | data (v : Word)
  /-- The access ended with a bus error and returned no data. -/
  | busError
  deriving DecidableEq, Repr

/-- Pixel memory: offset and byte pairs (rule R72), in the canonical form of `Memory.wf` (Machine/Ops.lean). -/
abbrev Memory := List Host.Cell

/-- The whole state. -/
structure State where
  /-- The implementation parameters (rule R6): fixed for the machine, reported by CFG0, CFG1 and CFG2. -/
  cfg : Config
  /-- IRQEN.EN (rule R41). -/
  irqEn : Bool
  /-- BITS (rule R42). -/
  bits : Word
  /-- WIDTH (rule R43). -/
  width : Word
  /-- HEIGHT (rule R43). -/
  height : Word
  /-- SRC_LEN (rule R44). -/
  srcLen : Word
  /-- SRC_BASE (rule R44). -/
  srcBase : Word
  /-- DST_BASE (rule R44). -/
  dstBase : Word
  /-- OPA (rule R48). -/
  opa : Word
  /-- LRES_LO (rule R49). -/
  lresLo : Word
  /-- LRES_HI (rule R49). -/
  lresHi : Word
  /-- QIN_LO (rule R50). -/
  qinLo : Word
  /-- QIN_HI (rule R50). -/
  qinHi : Word
  /-- QRES (rule R51). -/
  qres : Word
  /-- STATUS.DONE (rule R38). -/
  done : Bool
  /-- STATUS.ERR (rule R38). -/
  err : ErrCode
  /-- STATUS.RANGE (rule R39). -/
  range : Bool
  /-- STATUS.WERR (rule R40). -/
  werr : Bool
  /-- Pixel memory (rule R72). -/
  pm : Memory
  /-- The engine's phase (rule R54); STATUS.BUSY is computed from it. -/
  phase : Phase
  /-- The loop index i of phases 1 and 3 (rules R177, R184). -/
  cursor : Nat
  /-- The scanner's x (rule R52). -/
  scanX : BitVec 16
  /-- The scanner's y (rule R52). -/
  scanY : BitVec 16
  /-- A level of this pass has been saturated (rule R185). -/
  saturated : Bool
  /-- The Error Buffer (rule R45): the entries this pass has written, in index order. -/
  eb : List NumWord
  /-- The finalized luma buffer QB (rule R47): the entries this pass has written, in index order. -/
  qb : List QbEntry
  /-- The turns still to be taken, the next one first (the model's own; log 2). -/
  inputs : List Input
  /-- The answer to the host's last access (the model's own; log 3). -/
  response : Response
  /-- The number of the next free value to be drawn (the model's own; log 4). -/
  draws : Nat
  deriving DecidableEq, Repr

/-- Why the machine stops.
The spec gives no stop; both reasons name states that no run from an idle state reaches (log 11). -/
inductive Fault where
  /-- Raised by the engine's MemRead and MemWrite on an offset past PM_BYTES − 1, where there is no pixel
  memory (rule R72); `check()` excludes it for a pass (rule R171). Safe. -/
  | pmRange
  /-- Raised by the engine on an EB or QB entry that the pass has not written; rule R46 says no rule reads
  one. Safe. -/
  | bufferUnwritten
  deriving DecidableEq, Repr

/-- Why a command has no meaning. -/
inductive Refusal where
  /-- Raised by a refused arm of `exec` for a command that has no meaning yet; no arm is refused. Safe. -/
  | notModelled (mnemonic : String)
  deriving DecidableEq, Repr

/-- What one turn of the interleaving asks for. -/
inductive Turn where
  /-- The turn is complete in this state. -/
  | settled (s : State)
  /-- The engine performs one internal step from this state. -/
  | engine (s : State)
  /-- The word is issued as a command from this state (rule R210). -/
  | command (w : Word) (s : State)
  deriving DecidableEq, Repr

/-- The machine with parameters `c` right after reset (rule R270): the register values of rule R30, phase
IDLE, and pixel memory as at power-on (nothing listed).
EB, QB and the scanner, which rule R271 leaves unspecified, are empty and 0 (log 6). -/
def State.powerOn (c : Config) : State :=
  { cfg := c, irqEn := false, bits := 1, width := 0, height := 0, srcLen := 0, srcBase := 0, dstBase := 0,
    opa := 0, lresLo := 0, lresHi := 0, qinLo := 0, qinHi := 0, qres := 0, done := false, err := .none,
    range := false, werr := false, pm := [], phase := .idle, cursor := 0, scanX := 0, scanY := 0,
    saturated := false, eb := [], qb := [], inputs := [], response := .nothing, draws := 0 }

/-- The machine right after reset, with the default parameters of rule R6. -/
def State.reset : State := State.powerOn Config.default

end Sys2Proof.Machine
end

