-- ==== Sys2Proof/Machine/Flags.lean ====
section
/-! DEFINITION. STATUS, IRQEN and the interrupt line (10_state.md rules R36 to R41, 43_control.md rules
R214 and R215, 60_exceptions.md rules R230 and R240). -/

namespace Sys2Proof.Machine

/-- The code of an error, 4 bits (rule R230). -/
def ErrCode.code : ErrCode → BitVec 4
  | .none => 0
  | .illegalCmd => 1
  | .invalidParam => 2
  | .shapeMismatch => 3
  | .dimRange => 4
  | .align => 5
  | .addrRange => 6
  | .operand => 7

/-- STATUS.BUSY: 1 exactly in INIT, SCAN and MAT (rule R54). -/
def State.busy (s : State) : Bool := s.phase != .idle

/-- STATUS as the host reads it (rule R36): bit 0 BUSY, bit 1 DONE, bits 7:4 ERR, bit 8 RANGE, bit 9
WERR, every other bit 0. -/
def State.statusWord (s : State) : Word :=
  (0 : BitVec 22) ++ BitVec.ofBool s.werr ++ BitVec.ofBool s.range ++ s.err.code ++ (0 : BitVec 2)
    ++ BitVec.ofBool s.done ++ BitVec.ofBool s.busy

/-- A host write of `v` to STATUS (rule R214): write-one-to-clear on bits 1, 8 and 9. -/
def State.writeStatus (s : State) (v : Word) : State :=
  { s with
    done := s.done && !v.getLsbD 1
    err := if v.getLsbD 1 then .none else s.err
    range := s.range && !v.getLsbD 8
    werr := s.werr && !v.getLsbD 9 }

/-- IRQEN as the host reads it (rule R41). -/
def State.irqenWord (s : State) : Word := (0 : BitVec 31) ++ BitVec.ofBool s.irqEn

/-- A host write of `v` to IRQEN (rule R215). -/
def State.writeIrqen (s : State) (v : Word) : State := { s with irqEn := v.getLsbD 0 }

/-- The interrupt line: `irq = STATUS.DONE AND IRQEN.EN` (rule R240). -/
def State.irq (s : State) : Bool := s.done && s.irqEn

/-- CFG0 (rule R32): bit 0 NUMFMT, bits 13:8 FRAC_BITS under FIX and 0 under FP64. -/
def cfg0Word (c : Config) : Word :=
  match c.numFmt with
  | .fix => (0 : BitVec 18) ++ BitVec.ofNat 6 c.fracBits ++ (0 : BitVec 8)
  | .fp64 => 1

/-- CFG1 (rule R33): bits 15:0 MAX_W, bits 31:16 MAX_H. -/
def cfg1Word (c : Config) : Word := BitVec.ofNat 16 c.maxH ++ BitVec.ofNat 16 c.maxW

/-- CFG2 (rule R34): PM_BYTES. -/
def cfg2Word (c : Config) : Word := BitVec.ofNat 32 c.pmBytes

end Sys2Proof.Machine
end

