-- ==== Sys2Proof/Machine/Operands.lean ====
section
/-! DEFINITION. The implicit operands of the commands (30_encoding.md rule R105): the pixel word (rule R78,
R79, R48), the NUMWORD register pairs (rules R107, R108), the bit depth and the image parameters. -/

namespace Sys2Proof.Machine

/-- An RGBA pixel, 8 bits a channel (rule R78). -/
structure Pixel where
  r : Byte
  g : Byte
  b : Byte
  a : Byte
  deriving DecidableEq, Repr

/-- The pixel of a 32-bit word: r in bits 7:0, g in 15:8, b in 23:16, a in 31:24 (rules R48, R79). -/
def Pixel.ofWord (w : Word) : Pixel :=
  { r := w.extractLsb' 0 8, g := w.extractLsb' 8 8, b := w.extractLsb' 16 8, a := w.extractLsb' 24 8 }

/-- The 32-bit word of a pixel (rule R79). -/
def Pixel.toWord (p : Pixel) : Word := p.a ++ p.b ++ p.g ++ p.r

/-- The output pixel of the grey value `s`: R = G = B = s and A = 255 (rule R184). -/
def Pixel.grey (s : Byte) : Pixel := { r := s, g := s, b := s, a := 255 }

/-- Bits 31:0 of a NUMWORD (rule R107). -/
def numLo (w : NumWord) : Word := w.extractLsb' 0 32

/-- Bits 63:32 of a NUMWORD (rule R107). -/
def numHi (w : NumWord) : Word := w.extractLsb' 32 32

/-- The NUMWORD `{hi, lo}` (rule R107). -/
def numWord (hi lo : Word) : NumWord := hi ++ lo

/-- LUMA's operand: the pixel in OPA (rule R48). -/
def State.opaPixel (s : State) : Pixel := Pixel.ofWord s.opa

/-- QUANT's operand QIN = {QIN_HI, QIN_LO} (rule R50). -/
def State.qin (s : State) : NumWord := numWord s.qinHi s.qinLo

/-- The result pair LRES = {LRES_HI, LRES_LO} (rule R49). -/
def State.lres (s : State) : NumWord := numWord s.lresHi s.lresLo

/-- The bit depth: BITS whole, as an unsigned integer (rules R42, R157). -/
def State.depth (s : State) : Nat := s.bits.toNat

/-- 1 ≤ BITS ≤ 8 (rule R157). -/
def State.depthOk (s : State) : Bool := 1 ≤ s.depth && s.depth ≤ 8

/-- W, the image width (rule R43). -/
def State.W (s : State) : Nat := s.width.toNat

/-- H, the image height (rule R43). -/
def State.H (s : State) : Nat := s.height.toNat

/-- N = W·H, computed exactly (rule R171). -/
def State.pixels (s : State) : Nat := s.W * s.H

/-- The offset of input pixel `i` (rule R81). -/
def State.srcPixel (s : State) (i : Nat) : Nat := s.srcBase.toNat + 4 * i

/-- The offset of output pixel `i` (rule R81). -/
def State.dstPixel (s : State) (i : Nat) : Nat := s.dstBase.toNat + 4 * i

/-- The offset lies in the output region DST_BASE … DST_BASE + 4N − 1 (rules R81, R273). -/
def State.inOutput (s : State) (a : Nat) : Bool :=
  s.dstBase.toNat ≤ a && a < s.dstBase.toNat + 4 * s.pixels

end Sys2Proof.Machine
end

