-- ==== Sys2Proof/Machine/Ops.lean ====
section
/-! DEFINITION. The operations over pixel memory (20_memory.md rules R72, R79, 00_scope.md rule R14), over
the registers (43_control.md rules R214 to R217), the report of an error and of success (60_exceptions.md
rules R234, R235), and reset (70_reset_and_hazards.md rules R270 to R273). -/

namespace Sys2Proof.Machine

/-- What an unlisted offset holds: no value the model names (U1).
Reading it draws the free value of `Memory.byte`. Log 5. -/
def Memory.unlisted (_ : Nat) : Option Byte := none

/-- The byte listed for an offset, or what an unlisted offset holds. -/
def Memory.find (a : Nat) : Memory → Option Byte
  | [] => Memory.unlisted a
  | c :: m => if c.1 = a then some c.2 else Memory.find a m

/-- PM[a] (rule R72): the byte last written, or the byte power-on left there (U1). -/
def Memory.byte (m : Memory) (a : Nat) : Byte := (m.find a).getD (Config.powerOnByte a)

/-- PM[a] <- b, keeping the canonical form. -/
def Memory.put (a : Nat) (b : Byte) : Memory → Memory
  | [] => [(a, b)]
  | c :: m =>
    if a < c.1 then (a, b) :: c :: m
    else if a = c.1 then (a, b) :: m
    else c :: Memory.put a b m

/-- The canonical form: offsets strictly rising, and no entry equal to what an unlisted offset holds. -/
def Memory.wf : Memory → Bool
  | [] => true
  | [c] => Memory.unlisted c.1 != some c.2
  | c :: d :: m => Memory.unlisted c.1 != some c.2 && c.1 < d.1 && Memory.wf (d :: m)

/-- Every listed offset is one of 0 … size − 1 (rule R72). -/
def Memory.within (m : Memory) (size : Nat) : Bool := m.all (fun c => c.1 < size)

/-- `MemRead(a, n)` (rule R14): n bytes from offset a as one little-endian integer. -/
def Memory.read (m : Memory) (a : Nat) : Nat → Nat
  | 0 => 0
  | n + 1 => (m.byte a).toNat + 256 * Memory.read m (a + 1) n

/-- `MemWrite(a, n, v)` (rule R14): the low 8n bits of v, little-endian, to n bytes from offset a. -/
def Memory.write (m : Memory) (a : Nat) : Nat → Nat → Memory
  | 0, _ => m
  | n + 1, v => Memory.write (m.put a (BitVec.ofNat 8 v)) (a + 1) n (v / 256)

/-- The pixel at an offset (rule R78). -/
def Memory.pixel (m : Memory) (a : Nat) : Pixel := Pixel.ofWord (BitVec.ofNat 32 (m.read a 4))

/-- Write a pixel at an offset (rules R78, R184). -/
def Memory.putPixel (m : Memory) (a : Nat) (p : Pixel) : Memory := m.write a 4 p.toWord.toNat

/-- The n bytes at offset a lie inside pixel memory (rules R72, R74). -/
def State.pmHas (s : State) (a n : Nat) : Bool := a + n ≤ s.cfg.pmBytes

/-- The turns still to come become `rest` (the model's own; log 2). -/
def State.withInputs (s : State) (rest : List Input) : State := { s with inputs := rest }

/-- The answer to the host's access (the model's own; log 3). -/
def State.respond (s : State) (r : Response) : State := { s with response := r }

/-- Pixel memory becomes `m`. -/
def State.withPm (s : State) (m : Memory) : State := { s with pm := m }

/-- One free value has been drawn (the model's own; log 4). -/
def State.drawn (s : State) : State := { s with draws := s.draws + 1 }

/-- QRES <- the level as 32-bit two's complement (rules R51, R109). -/
def State.setQres (s : State) (level : Int) : State := { s with qres := BitVec.ofInt 32 level }

/-- `raise E` (rules R15, R234), the core's only form of exception: STATUS.ERR <- E, STATUS.DONE <- 1,
nothing else.
There is no saved pc, no mode change, no vector and so no return (rule R237). -/
def State.raise (s : State) (e : ErrCode) : State := { s with err := e, done := true }

/-- `finish` (rules R15, R235): STATUS.ERR <- 0, STATUS.DONE <- 1. -/
def State.finish (s : State) : State := { s with err := .none, done := true }

/-- The start of `issue` (rule R210): DONE and ERR are cleared; RANGE and WERR keep their values. -/
def State.beginCommand (s : State) : State := { s with done := false, err := .none }

/-- LRES <- w (rules R49, R107). -/
def State.setLres (s : State) (w : NumWord) : State := { s with lresLo := numLo w, lresHi := numHi w }

/-- A host read of a register (rule R217): no side effect; CTRL reads 0 (rule R35). -/
def State.readReg (s : State) : Reg → Word
  | .id => 0x46534401
  | .cfg0 => cfg0Word s.cfg
  | .cfg1 => cfg1Word s.cfg
  | .cfg2 => cfg2Word s.cfg
  | .ctrl => 0
  | .status => s.statusWord
  | .irqen => s.irqenWord
  | .bits => s.bits
  | .width => s.width
  | .height => s.height
  | .srcLen => s.srcLen
  | .srcBase => s.srcBase
  | .dstBase => s.dstBase
  | .opa => s.opa
  | .lresLo => s.lresLo
  | .lresHi => s.lresHi
  | .qinLo => s.qinLo
  | .qinHi => s.qinHi
  | .qres => s.qres

/-- The registers marked busy-locked in rule R30. -/
def Reg.busyLocked : Reg → Bool
  | .ctrl | .bits | .width | .height | .srcLen | .srcBase | .dstBase | .opa | .qinLo | .qinHi => true
  | .id | .cfg0 | .cfg1 | .cfg2 | .status | .irqen | .lresLo | .lresHi | .qres => false

/-- The effect of a host write that is not dropped, on every register but CTRL, whose write issues a
command (Machine/Bus.lean): a busy-locked register stores the word whole (rule R216), STATUS and IRQEN
follow rules R214 and R215, a read-only register does not change (rule R55). -/
def State.storeReg (s : State) (v : Word) : Reg → State
  | .status => s.writeStatus v
  | .irqen => s.writeIrqen v
  | .bits => { s with bits := v }
  | .width => { s with width := v }
  | .height => { s with height := v }
  | .srcLen => { s with srcLen := v }
  | .srcBase => { s with srcBase := v }
  | .dstBase => { s with dstBase := v }
  | .opa => { s with opa := v }
  | .qinLo => { s with qinLo := v }
  | .qinHi => { s with qinHi := v }
  | .id | .cfg0 | .cfg1 | .cfg2 | .ctrl | .lresLo | .lresHi | .qres => s

/-- A dropped host write sets the sticky STATUS.WERR and nothing else (rules R280, R281). -/
def State.dropWrite (s : State) : State := { s with werr := true }

/-- `m` with the free values of draw `d` in the n bytes from offset a (rule R273, U3). -/
def Memory.scramble (d : Nat) (m : Memory) (a : Nat) : Nat → Memory
  | 0 => m
  | n + 1 => (Memory.scramble d m a n).put (a + n) (Config.abandonedByte d (a + n))

/-- Reset (rule R270): every register at its reset value and the engine IDLE.
Pixel memory is kept (rule R272), but for the output region of a pass cut short, whose bytes are free
values (rule R273).
The turns still to come, the answer to the last access and the draw counter are the model's own; reset
leaves the first two, and moves the counter past a draw it used (log 13). -/
def State.applyReset (s : State) : State :=
  { State.powerOn s.cfg with
    pm := if s.busy then s.pm.scramble s.draws s.dstBase.toNat (4 * s.pixels) else s.pm
    inputs := s.inputs
    response := s.response
    draws := if s.busy then s.draws + 1 else s.draws }

end Sys2Proof.Machine
end

