-- ==== Sys2Proof/Machine/Bus.lean ====
section
/-! DEFINITION. The host's accesses (20_memory.md rules R71 to R77, 43_control.md rules R210 to R217,
70_reset_and_hazards.md rules R280, R281) and the choice of the next turn. -/

namespace Sys2Proof.Machine

/-- The width of an access in bytes. -/
def Width.bytes : Width → Nat
  | .b1 => 1
  | .b2 => 2
  | .b4 => 4

/-- The low bits of a data word that an access of this width carries (log 17). -/
def Width.clip (w : Width) (v : Word) : Word :=
  match w with
  | .b1 => (v.extractLsb' 0 8).setWidth 32
  | .b2 => (v.extractLsb' 0 16).setWidth 32
  | .b4 => v

/-- The byte offset of a register in the register window (rule R30). -/
def Reg.offset : Reg → Nat
  | .id => 0x000
  | .cfg0 => 0x004
  | .cfg1 => 0x008
  | .cfg2 => 0x00C
  | .ctrl => 0x010
  | .status => 0x014
  | .irqen => 0x018
  | .bits => 0x01C
  | .width => 0x020
  | .height => 0x024
  | .srcLen => 0x028
  | .srcBase => 0x02C
  | .dstBase => 0x030
  | .opa => 0x034
  | .lresLo => 0x038
  | .lresHi => 0x03C
  | .qinLo => 0x040
  | .qinHi => 0x044
  | .qres => 0x048

/-- Every register, in the order of rule R30. -/
def allRegs : List Reg :=
  [.id, .cfg0, .cfg1, .cfg2, .ctrl, .status, .irqen, .bits, .width, .height, .srcLen, .srcBase, .dstBase,
    .opa, .lresLo, .lresHi, .qinLo, .qinHi, .qres]

/-- The register at an offset; the reserved offsets 0x04C to 0x0FF have none (rule R76). -/
def regAt (off : Nat) : Option Reg := allRegs.find? (fun r => r.offset == off)

/-- The base of the pixel-memory window (rule R71). -/
def pmWindow : Nat := 0x01000000

/-- What an access reaches (rule R71). -/
inductive Target where
  /-- A register. -/
  | reg (r : Reg)
  /-- Pixel memory from this offset. -/
  | pm (off : Nat)
  /-- A bus error (rule R77): unmapped, reserved, misaligned or of a wrong width. -/
  | busError
  deriving DecidableEq, Repr

/-- The target of an access (rules R71, R74, R75, R76). -/
def target (c : Config) (w : Width) (addr : Word) : Target :=
  let a := addr.toNat
  if a < 0x100 then
    if w = .b4 ∧ a % 4 = 0 then
      match regAt a with
      | some r => .reg r
      | none => .busError
    else .busError
  else if pmWindow ≤ a ∧ a % w.bytes = 0 ∧ a - pmWindow + w.bytes ≤ c.pmBytes then .pm (a - pmWindow)
  else .busError

/-- The bus address of a register (rule R71). -/
def Reg.addr (r : Reg) : Word := BitVec.ofNat 32 r.offset

/-- The bus address of a pixel-memory offset (rule R71). -/
def pmAddr (off : Nat) : Word := BitVec.ofNat 32 (pmWindow + off)

/-- A host read: a register exactly (rule R217), pixel memory when idle (rules R74, R79), a fresh free
value of pixel memory while busy (rules R84, R281). -/
def hostRead (w : Width) (addr : Word) (s : State) : State :=
  match target s.cfg w addr with
  | .busError => s.respond .busError
  | .reg r => s.respond (.data (s.readReg r))
  | .pm off =>
    if s.busy then (s.respond (.data (w.clip (Config.busyRead s.draws)))).drawn
    else s.respond (.data (BitVec.ofNat 32 (s.pm.read off w.bytes)))

/-- A host write: dropped while busy, with WERR, where rules R280 and R281 say so; else a command for
CTRL (rules R35, R210), the register's own rule (rules R55, R214 to R216), or the bytes of pixel memory
(rule R79). -/
def hostWrite (w : Width) (addr : Word) (v : Word) (s : State) : Turn :=
  match target s.cfg w addr with
  | .busError => .settled (s.respond .busError)
  | .reg r =>
    if s.busy && r.busyLocked then .settled (s.respond .written).dropWrite
    else if r = .ctrl then .command v (s.respond .written).beginCommand
    else .settled ((s.respond .written).storeReg v r)
  | .pm off =>
    if s.busy then .settled (s.respond .written).dropWrite
    else .settled ((s.respond .written).withPm (s.pm.write off w.bytes v.toNat))

/-- One host access. -/
def hostAccess (s : State) : Access → Turn
  | .read w addr => .settled (hostRead w addr s)
  | .write w addr v => hostWrite w addr v s

/-- The next turn (log 2): the head of `inputs`; with none listed the host is silent and the engine
proceeds (rule R285, weak fairness). -/
def nextTurn (s : State) : Turn :=
  match s.inputs with
  | [] => .engine s
  | .host a :: rest => hostAccess (s.withInputs rest) a
  | .engine :: rest => .engine (s.withInputs rest)
  | .reset :: rest => .settled (s.withInputs rest).applyReset

end Sys2Proof.Machine
end

