-- ==== Sys2Proof/Machine/F64.lean ====
section
/-! DEFINITION. IEEE 754 binary64 on 64-bit patterns: the rounding `fl` and the operations of 00_scope.md
rule R13, the encoding of 30_encoding.md rule R108 (93_implementation_defined.md G1).

Every finite binary64 value is a whole multiple of 2^−1074. A pattern is read as that multiple, an
operation is computed exactly on integers, and its exact result is rounded once. -/

namespace Sys2Proof.Machine.F64

/-- 2^1074: the number of units of 2^−1074 in 1.
Irreducible, so that no elaboration writes the number out. -/
@[irreducible] def one : Nat := 2 ^ 1074

/-- The biased exponent, bits 62:52 (rule R108). -/
def expField (w : NumWord) : Nat := (w.extractLsb' 52 11).toNat

/-- The trailing significand, bits 51:0 (rule R108). -/
def fracField (w : NumWord) : Nat := (w.extractLsb' 0 52).toNat

/-- The sign, bit 63 (rule R108). -/
def neg (w : NumWord) : Bool := w.msb

/-- The pattern is a numeric value: neither an infinity nor a NaN (rule R108). -/
def isNumeric (w : NumWord) : Bool := expField w != 0x7FF

/-- The magnitude of a numeric value in units of 2^−1074. -/
def mag (w : NumWord) : Nat :=
  if expField w = 0 then fracField w else (2 ^ 52 + fracField w) * 2 ^ (expField w - 1)

/-- A numeric value in units of 2^−1074. -/
def scaled (w : NumWord) : Int := if neg w then -(mag w : Int) else mag w

/-- The integer nearest to `n / d`, ties to the even integer. -/
def nearestEven (n d : Nat) : Nat :=
  let q := n / d
  let r := n % d
  if 2 * r > d ∨ (2 * r = d ∧ q % 2 = 1) then q + 1 else q

/-- How many binary places of `n / d` lie below a 53-bit significand: 0 in the subnormal range, where
underflow is gradual. -/
def dropped (n d : Nat) : Nat := (n / d).log2 - 52

/-- The low 63 bits of `fl` of the magnitude `n / d` units of 2^−1074 (rule R13).
With k dropped places and the significand q, the pattern is k·2^52 + q in every case: a subnormal has
k = 0 and q < 2^52, and a q that rounds up to 2^53 carries into the exponent field.
A magnitude too large becomes the infinity pattern, as IEEE 754 has it (log 9). -/
def roundMag (n d : Nat) : Nat :=
  let k := dropped n d
  min (k * 2 ^ 52 + nearestEven n (d * 2 ^ k)) (0x7FF * 2 ^ 52)

/-- The pattern with this sign and these low 63 bits. -/
def pack (sign : Bool) (m : Nat) : NumWord := BitVec.ofNat 64 ((if sign then 2 ^ 63 else 0) + m)

/-- `fl` of the real `(−1)^sign · n/d · 2^−1074` (rule R13). -/
def fl (sign : Bool) (n d : Nat) : NumWord := pack sign (roundMag n d)

/-- An integer converted to binary64: exact for every integer this core converts (rules R133, R155, R187). -/
def ofInt (i : Int) : NumWord := fl (decide (i < 0)) (i.natAbs * one) 1

/-- The same value with the opposite sign. -/
def negate (w : NumWord) : NumWord := w ^^^ 0x8000000000000000

/-- `a ⊕ b` (rule R13).
A zero sum is +0 unless both operands are negative, as IEEE 754 has it (log 9). -/
def add (a b : NumWord) : NumWord :=
  if isNumeric a && isNumeric b then
    let z := scaled a + scaled b
    fl (if z = 0 then neg a && neg b else decide (z < 0)) z.natAbs 1
  else Config.notNumeric a b

/-- `a ⊖ b` (rule R13). -/
def sub (a b : NumWord) : NumWord := add a (negate b)

/-- `a ⊗ b` (rule R13). -/
def mul (a b : NumWord) : NumWord :=
  if isNumeric a && isNumeric b then fl (neg a != neg b) (mag a * mag b) one
  else Config.notNumeric a b

/-- `a ⊘ b` (rule R13), for a non-zero `b`. -/
def div (a b : NumWord) : NumWord :=
  if isNumeric a && isNumeric b && mag b != 0 then fl (neg a != neg b) (mag a * one) (mag b)
  else Config.notNumeric a b

/-- `rhu` (rule R11) of a numeric value, computed exactly. -/
def rhu (w : NumWord) : Int :=
  if isNumeric w then (2 * scaled w + one) / (2 * one : Nat) else Config.notNumericRound w

end Sys2Proof.Machine.F64
end

