-- ==== Sys2Proof/Machine/Round.lean ====
section
/-! DEFINITION. The integer roundings of 00_scope.md rules R11 and R12 and the levels' step count. -/

namespace Sys2Proof.Machine

/-- `rhu(p / q)` of rule R11 for an integer `p` and a positive integer `q`: `floor(p/q + 1/2)`.
`Int` division by a positive divisor is the floor of rule R10. -/
def rhuDiv (p : Int) (q : Nat) : Int := (2 * p + q) / (2 * q : Nat)

/-- `sat8` of rule R12. -/
def sat8 (n : Int) : Byte := if n < 0 then 0 else if n > 255 then 255 else BitVec.ofInt 8 n

/-- `L = 2^bits − 1`, the number of steps between the least and the greatest level (rule R150). -/
def steps (bits : Nat) : Nat := 2 ^ bits - 1

end Sys2Proof.Machine
end

