-- ==== Sys2Proof/Machine/Arith.lean ====
section
/-! DEFINITION. The arithmetic of a numeric mode as one record (00_scope.md rule R18), and the two hardware
modes FIX and FP64 on NUMWORDs (rules R133, R155, R187). -/

namespace Sys2Proof.Machine

/-- The five operations that a mode defines on its numeric values (rule R18). -/
structure Arith (α : Type) where
  /-- `Luma_m(r, g, b, a)` (rule R133). -/
  luma : Pixel → α
  /-- `Quant_m(v, bits)` (rule R155): an integer level, not clamped (rule R154). -/
  quant : α → Nat → Int
  /-- `Err_m(v, q)` (rule R187). -/
  err : α → Int → α
  /-- `Term_m(e, w)` (rule R187). -/
  term : α → Nat → α
  /-- `Add_m(x, t)` (rule R187). -/
  add : α → α → α

/-- `(299·r + 587·g + 114·b)·a` (rule R130): the luma in units of 1/255000. -/
def lumaSum (p : Pixel) : Nat := (299 * p.r.toNat + 587 * p.g.toNat + 114 * p.b.toNat) * p.a.toNat

/-- `Luma_FIX` as an integer V standing for V/2^F (rule R133). -/
def lumaFix (f : Nat) (p : Pixel) : Nat := (2 * lumaSum p * 2 ^ f + 255000) / 510000

/-- The index `idx` of `Quant_FIX` (rule R155). -/
def indexFix (f : Nat) (v : Int) (bits : Nat) : Int :=
  (2 * v * steps bits + 255 * 2 ^ f) / (510 * 2 ^ f)

/-- The level of an index: `rhu(idx·255/L)` (rules R150, R155). -/
def levelOf (idx : Int) (bits : Nat) : Int := (510 * idx + steps bits) / (2 * steps bits : Nat)

/-- `Quant_FIX(V, bits)` (rule R155). -/
def quantFix (f : Nat) (v : Int) (bits : Nat) : Int := levelOf (indexFix f v bits) bits

/-- `Err_FIX(V, q)` (rule R187). -/
def errFix (f : Nat) (v q : Int) : Int := v - q * 2 ^ f

/-- `Term_FIX(E, w)` (rule R187). -/
def termFix (e : Int) (w : Nat) : Int := (e * w + 8) / 16

/-- FIX on NUMWORDs: a word is read as a 64-bit two's complement integer and a result is stored as
`trunc_64` (rule R108). -/
def fixArith (f : Nat) : Arith NumWord where
  luma p := BitVec.ofNat 64 (lumaFix f p)
  quant v bits := quantFix f v.toInt bits
  err v q := BitVec.ofInt 64 (errFix f v.toInt q)
  term e w := BitVec.ofInt 64 (termFix e.toInt w)
  add x t := BitVec.ofInt 64 (x.toInt + t.toInt)

/-- fl(0.299) (rule R133, G2). -/
def k299 : NumWord := 0x3FD322D0E5604189

/-- fl(0.587) (rule R133, G2). -/
def k587 : NumWord := 0x3FE2C8B439581062

/-- fl(0.114) (rule R133, G2). -/
def k114 : NumWord := 0x3FBD2F1A9FBE76C9

/-- An 8-bit channel converted exactly to binary64 (rule R133). -/
def channelF64 (b : Byte) : NumWord := F64.ofInt b.toNat

/-- `Luma_FP64(r, g, b, a)`, in the written order (rule R133). -/
def lumaF64 (p : Pixel) : NumWord :=
  F64.div
    (F64.mul
      (F64.add (F64.add (F64.mul k299 (channelF64 p.r)) (F64.mul k587 (channelF64 p.g)))
        (F64.mul k114 (channelF64 p.b)))
      (channelF64 p.a))
    (F64.ofInt 255)

/-- `scale = 255 ⊘ L` (rule R155). -/
def scaleF64 (bits : Nat) : NumWord := F64.div (F64.ofInt 255) (F64.ofInt (steps bits))

/-- The index `idx` of `Quant_FP64` (rule R155). -/
def indexF64 (v : NumWord) (bits : Nat) : Int := F64.rhu (F64.div v (scaleF64 bits))

/-- `Quant_FP64(v, bits)` (rule R155). -/
def quantF64 (v : NumWord) (bits : Nat) : Int :=
  F64.rhu (F64.mul (F64.ofInt (indexF64 v bits)) (scaleF64 bits))

/-- FP64 on NUMWORDs (rules R133, R155, R187). -/
def fp64Arith : Arith NumWord where
  luma := lumaF64
  quant := quantF64
  err v q := F64.sub v (F64.ofInt q)
  term e w := F64.div (F64.mul e (F64.ofInt w)) (F64.ofInt 16)
  add := F64.add

/-- The arithmetic of the configured mode (rules R6, R18). -/
def arithOf (c : Config) : Arith NumWord :=
  match c.numFmt with
  | .fix => fixArith c.fracBits
  | .fp64 => fp64Arith

end Sys2Proof.Machine
end

