-- ==== Sys2Proof/Machine/Dither.lean ====
section
/-! DEFINITION. The DITHER command and the steps of its pass (42_dither.md rules R170 to R187). -/

namespace Sys2Proof.Machine

/-- What `check()` answers (rule R171). -/
inductive Verdict where
  /-- The first failing test raises this error. -/
  | reject (e : ErrCode)
  /-- A zero-area image: success at once (rule R172). -/
  | empty
  /-- The pass begins (rule R176). -/
  | accept
  deriving DecidableEq, Repr

/-- `check()` (rule R171): the tests in their order, on exact products and sums. -/
def State.check (s : State) : Verdict :=
  let srcB := s.srcBase.toNat
  let dstB := s.dstBase.toNat
  let n := s.pixels
  if !s.depthOk then .reject .invalidParam
  else if s.srcLen.toNat ≠ s.W * s.H * 4 then .reject .shapeMismatch
  else if n = 0 then .empty
  else if s.W > s.cfg.maxW ∨ s.H > s.cfg.maxH then .reject .dimRange
  else if srcB % 4 ≠ 0 ∨ dstB % 4 ≠ 0 then .reject .align
  else if srcB + 4 * n > s.cfg.pmBytes ∨ dstB + 4 * n > s.cfg.pmBytes then .reject .addrRange
  else .accept

/-- Acceptance (rule R176): BUSY <- 1 and phase 1 begins.
No entry of EB or QB has been written yet (rule R46) and no saturation is recorded. -/
def State.beginPass (s : State) : State :=
  { s with phase := .init, cursor := 0, saturated := false, eb := [], qb := [] }

/-- DITHER (rule R170): the check, and on acceptance the start of the pass, whose steps are
`engineStep` (Machine/Engine.lean). -/
def execDither (s : State) : Host.Outcome State Fault Refusal :=
  match s.check with
  | .reject e => .next (s.raise e)
  | .empty => .next s.finish
  | .accept => .next s.beginPass

/-- The four targets of step 4 in the order of rule R181: (dx, dy, weight). -/
def diffusionTargets : List (Int × Int × Nat) := [(1, 0, 7), (-1, 1, 3), (0, 1, 5), (1, 1, 1)]

/-- The index of the pixel at signed coordinates, if it is in bounds (rules R16, R181). -/
def targetIndex (w h : Nat) (nx ny : Int) : Option Nat :=
  if 0 ≤ nx ∧ nx < w ∧ 0 ≤ ny ∧ ny < h then some (ny * w + nx).toNat else none

/-- The update of one target (rule R181): EB[j] <- Add(EB[j], Term(e, wgt)) if it is in bounds; a weight
out of bounds is dropped (rule R182). -/
def diffuseTo {α : Type} (A : Arith α) (w h x y : Nat) (e : α) (eb : List α) (t : Int × Int × Nat) : List α :=
  match targetIndex w h (x + t.1) (y + t.2.1) with
  | some j => eb.modify j (fun v => A.add v (A.term e t.2.2))
  | none => eb

/-- Step 4, `diffuse(x, y, e)` (rule R181). -/
def diffuse {α : Type} (A : Arith α) (w h x y : Nat) (e : α) (eb : List α) : List α :=
  diffusionTargets.foldl (diffuseTo A w h x y e) eb

/-- Steps 1 to 4 for the pixel (x, y) (rules R178 to R181): the new level and the new Error Buffer, or
none where the pass has not written EB[i] (rule R46). -/
def scanPixel {α : Type} (A : Arith α) (w h bits x y : Nat) (eb : List α) : Option (Int × List α) :=
  match eb[y * w + x]? with
  | none => none
  | some old =>
    let new := A.quant old bits
    some (new, diffuse A w h x y (A.err old new) eb)

/-- The scanner's advance (rule R53): the next position, or none where phase 2 ends. -/
def nextPos (w h x y : Nat) : Option (Nat × Nat) :=
  if x + 1 < w then some (x + 1, y) else if y + 1 < h then some (0, y + 1) else none

/-- QB[i] as an integer (rule R47). -/
def qbLevel (q : QbEntry) : Int := q.toInt

/-- The level is outside [0, 255], so the materializer saturates it (rule R185). -/
def outOfRange (level : Int) : Bool := level < 0 || 255 < level

/-- The output pixel of a finalized level (rule R184). -/
def materialize (q : QbEntry) : Pixel := Pixel.grey (sat8 (qbLevel q))

end Sys2Proof.Machine
end

