-- ==== Sys2Proof/Machine/Engine.lean ====
section
/-! DEFINITION. One internal step of the engine (20_memory.md rule R70, 42_dither.md rules R176 to R186):
one iteration of the loop of the current phase, or the completion step. -/

namespace Sys2Proof.Machine

/-- EB[i] <- w for the next index i (rule R177). -/
def State.appendEb (s : State) (w : NumWord) : State := { s with eb := s.eb ++ [w] }

/-- The loop of phase 1 or 3 goes on to its next index (rules R177, R184). -/
def State.nextIndex (s : State) : State := { s with cursor := s.cursor + 1 }

/-- Phase 2 begins at (0, 0) (rule R52). -/
def State.startScan (s : State) : State := { s with phase := .scan, scanX := 0, scanY := 0 }

/-- Steps 4 and 5 for a pixel: the diffused Error Buffer, and QB[i] <- new (rules R181, R183). -/
def State.finalize (s : State) (new : Int) (eb : List NumWord) : State :=
  { s with eb := eb, qb := s.qb ++ [BitVec.ofInt 16 new] }

/-- The scanner moves to (x, y) (rule R53). -/
def State.moveScanner (s : State) (x y : Nat) : State :=
  { s with scanX := BitVec.ofNat 16 x, scanY := BitVec.ofNat 16 y }

/-- Phase 3 begins (rule R184). -/
def State.startMat (s : State) : State := { s with phase := .mat, cursor := 0 }

/-- The pass records whether it saturated this level (rule R185). -/
def State.noteLevel (s : State) (level : Int) : State := { s with saturated := s.saturated || outOfRange level }

/-- One iteration of phase 1 (rule R177): EB[i] <- Luma(pixel i), and after the last pixel phase 2 begins. -/
def engineInit (s : State) : Host.Outcome State Fault Refusal :=
  if !s.pmHas (s.srcPixel s.cursor) 4 then .fault .pmRange
  else
    let t := s.appendEb ((arithOf s.cfg).luma (s.pm.pixel (s.srcPixel s.cursor)))
    .next (if s.cursor + 1 < s.pixels then t.nextIndex else t.startScan)

/-- One iteration of phase 2 (rule R178): the five steps for the pixel under the scanner, and the
scanner's advance (rule R53); after the last pixel phase 3 begins. -/
def engineScan (s : State) : Host.Outcome State Fault Refusal :=
  match scanPixel (arithOf s.cfg) s.W s.H s.depth s.scanX.toNat s.scanY.toNat s.eb with
  | none => .fault .bufferUnwritten
  | some (new, eb) =>
    match nextPos s.W s.H s.scanX.toNat s.scanY.toNat with
    | some (x, y) => .next ((s.finalize new eb).moveScanner x y)
    | none => .next (s.finalize new eb).startMat

/-- The completion step (rule R186): RANGE <- 1 if the pass recorded a saturation, BUSY <- 0, and
`finish`.
What the pass held is discarded (rules R46, R52; log 7). -/
def State.completePass (s : State) : State :=
  { s with
    range := s.range || s.saturated, phase := .idle, cursor := 0, scanX := 0, scanY := 0,
    saturated := false, eb := [], qb := [] }.finish

/-- One iteration of phase 3 (rules R184, R185), or the completion step when every output pixel is
written (rule R186). -/
def engineMat (s : State) : Host.Outcome State Fault Refusal :=
  if s.cursor < s.pixels then
    match s.qb[s.cursor]? with
    | none => .fault .bufferUnwritten
    | some q =>
      if !s.pmHas (s.dstPixel s.cursor) 4 then .fault .pmRange
      else .next
        ((s.withPm (s.pm.putPixel (s.dstPixel s.cursor) (materialize q))).noteLevel (qbLevel q)).nextIndex
  else .next s.completePass

/-- One internal step of the engine.
While IDLE there is none to perform, and the turn passes (rules R37, R248). -/
def engineStep (s : State) : Host.Outcome State Fault Refusal :=
  match s.phase with
  | .idle => .next s
  | .init => engineInit s
  | .scan => engineScan s
  | .mat => engineMat s

end Sys2Proof.Machine
end

