-- ==== Sys2Proof/Syntax.lean ====
section
/-! DEFINITION. The commands of the FSD core: one constructor for each row of spec/opcode_table.json.
Every operand is implicit (30_encoding.md rule R105), so no constructor has an argument. -/

namespace Sys2Proof

/-- The four commands (30_encoding.md rule R102). -/
inductive Instr where
  /-- NOP, command word 0 (43_control.md rule R213). -/
  | nop
  /-- LUMA, command word 1 (40_luma.md rule R137). -/
  | luma
  /-- QUANT, command word 2 (41_quant.md rule R156). -/
  | quant
  /-- DITHER, command word 3 (42_dither.md rule R170). -/
  | dither
  deriving DecidableEq, Repr

end Sys2Proof
end

