-- ==== Sys2Proof/Decode.lean ====
section
/-! DEFINITION. The decoder of the command word, total on every 32-bit word (30_encoding.md rules R100
to R104), and after it the encoder (rule R102). -/

namespace Sys2Proof

/-- Why a command word is illegal (rule R103). -/
inductive Illegal where
  /-- RSV, bits 31:8, is not zero. -/
  | rsvNonzero
  /-- RSV is zero and OP, bits 7:0, is 0x04 or more. -/
  | opReserved
  deriving DecidableEq, Repr

/-- The field OP of a command word, bits 7:0 (rule R101). -/
def opField (w : Word) : BitVec 8 := w.extractLsb' 0 8

/-- The field RSV of a command word, bits 31:8 (rule R101). -/
def rsvField (w : Word) : BitVec 24 := w.extractLsb' 8 24

/-- The decoding of rule R104. -/
def decode (w : Word) : Except Illegal Instr :=
  if rsvField w ≠ 0 then .error .rsvNonzero
  else if opField w = 0x00 then .ok .nop
  else if opField w = 0x01 then .ok .luma
  else if opField w = 0x02 then .ok .quant
  else if opField w = 0x03 then .ok .dither
  else .error .opReserved

/-- The command word of each command: OP of rule R102 with RSV = 0. -/
def encode : Instr → Word
  | .nop => 0x00000000
  | .luma => 0x00000001
  | .quant => 0x00000002
  | .dither => 0x00000003

/-- The command word whose bits are `w`, of which the table gives the low `nbits`; the bits above are 0.
A command is one 32-bit word (rule R100) that the host writes whole, so the table's bit k is bit k of
the word. -/
def tableWord (nbits w : Nat) : Word := BitVec.ofNat 32 (w % 2 ^ nbits)

/-- The command the decoder reads from a row of spec/opcode_table.json with its operand bits filled in. -/
def decodeTableWord (nbits w : Nat) : Option Instr :=
  match decode (tableWord nbits w) with
  | .ok i => some i
  | .error _ => none

end Sys2Proof
end

