-- ==== Sys2Proof/Machine/Control.lean ====
section
/-! DEFINITION. NOP and the illegal command word (43_control.md rules R212, R213). -/

namespace Sys2Proof.Machine

/-- NOP ends at once with success (rule R213). -/
def execNop (s : State) : Host.Outcome State Fault Refusal := .next s.finish

/-- An illegal command word raises ILLEGAL_CMD and changes nothing else (rule R212). -/
def illegalCommand (s : State) : State := s.raise .illegalCmd

end Sys2Proof.Machine
end

