-- ==== Sys2Proof/Machine/Luma.lean ====
section
/-! DEFINITION. The LUMA command (40_luma.md rule R137). -/

namespace Sys2Proof.Machine

/-- LUMA: LRES <- the Luma Extractor of the pixel in OPA, in the configured mode (rule R137). -/
def execLuma (s : State) : Host.Outcome State Fault Refusal :=
  .next (s.setLres ((arithOf s.cfg).luma s.opaPixel)).finish

end Sys2Proof.Machine
end

