-- ==== Sys2Proof/Machine/Quant.lean ====
section
/-! DEFINITION. The QUANT command (41_quant.md rules R156 to R158). -/

namespace Sys2Proof.Machine

/-- `operand_ok(w)` (rule R158): −32768 ≤ v < 32768, and in FP64 neither an infinity nor a NaN. -/
def operandOk (c : Config) (w : NumWord) : Bool :=
  match c.numFmt with
  | .fix => -32768 * 2 ^ c.fracBits ≤ w.toInt && w.toInt < 32768 * 2 ^ c.fracBits
  | .fp64 =>
    F64.isNumeric w && -32768 * (F64.one : Int) ≤ F64.scaled w && F64.scaled w < 32768 * (F64.one : Int)

/-- QUANT: QRES <- the level of QIN at depth BITS, in the configured mode (rule R156).
INVALID_PARAM is reported before OPERAND (rule R233). -/
def execQuant (s : State) : Host.Outcome State Fault Refusal :=
  if !s.depthOk then .next (s.raise .invalidParam)
  else if !operandOk s.cfg s.qin then .next (s.raise .operand)
  else .next (s.setQres ((arithOf s.cfg).quant s.qin s.depth)).finish

end Sys2Proof.Machine
end

