-- ==== Sys2Proof/Machine/Dispatch.lean ====
section
/-! DEFINITION. The meaning of each command, run after `issue` has cleared DONE and ERR (43_control.md rule R210). -/

namespace Sys2Proof.Machine

def exec (i : Instr) (s : State) : Host.Outcome State Fault Refusal :=
  match i with
  | .nop => Sys2Proof.Machine.execNop s
  | .luma => Sys2Proof.Machine.execLuma s
  | .quant => Sys2Proof.Machine.execQuant s
  | .dither => Sys2Proof.Machine.execDither s

end Sys2Proof.Machine
end

