-- ==== Sys2Proof/Machine/Issue.lean ====
section
/-! DEFINITION. The issue of a command word (43_control.md rule R210). -/

namespace Sys2Proof.Machine

/-- The command part of `issue` (rule R210): decode, then the command or ILLEGAL_CMD (rule R212).
DONE and ERR have been cleared by `State.beginCommand`. -/
def issue (w : Word) (s : State) : Host.Outcome State Fault Refusal :=
  match decode w with
  | .ok i => exec i s
  | .error _ => .next (illegalCommand s)

end Sys2Proof.Machine
end

