-- ==== Sys2Proof/Machine/Step.lean ====
section
/-! DEFINITION. One step of the machine: one turn of the interleaving of host, engine and reset
(20_memory.md rules R83, R84, 60_exceptions.md rule R241). -/

namespace Sys2Proof.Machine

/-- One step: the next turn is taken. -/
def step (s : State) : Host.Outcome State Fault Refusal :=
  match nextTurn s with
  | .settled s' => .next s'
  | .engine s' => engineStep s'
  | .command w s' => issue w s'

/-- `s` with the command word of a table row as the very next event: a 4-byte host write to CTRL at the
head of `inputs`, and the engine IDLE, since a command is issued only while BUSY = 0 (rule R210; log 12). -/
def State.withFetchWord (s : State) (nbits w : Nat) : State :=
  { s with
    inputs := .host (.write .b4 Reg.ctrl.addr (tableWord nbits w)) :: s.inputs
    phase := .idle }

end Sys2Proof.Machine
end

