-- ==== Sys2Proof/Machine/Pass.lean ====
section
/-! DEFINITION. A whole pass as one function, in the loops of 42_dither.md rules R177, R178 and R184: the
reference that the engine's single steps are compared with (rule R190 allows a model to take the pass as
one step). -/

namespace Sys2Proof.Machine

/-- Phase 2 for the `n` pixels from index `i` (rule R178, with i = y·W + x): the levels in index order, or
none where an EB entry is missing. -/
def scanLoop {α : Type} (A : Arith α) (w h bits : Nat) : Nat → Nat → List α → Option (List Int)
  | 0, _, _ => some []
  | n + 1, i, eb =>
    match scanPixel A w h bits (i % w) (i / w) eb with
    | none => none
    | some (new, eb') => (scanLoop A w h bits n (i + 1) eb').map (fun levels => new :: levels)

/-- The Error Buffer after phase 2 has finalized the `n` pixels from index `i` (rules R178, R181). -/
def scanBuffer {α : Type} (A : Arith α) (w h bits : Nat) : Nat → Nat → List α → Option (List α)
  | 0, _, eb => some eb
  | n + 1, i, eb =>
    match scanPixel A w h bits (i % w) (i / w) eb with
    | none => none
    | some (_, eb') => scanBuffer A w h bits n (i + 1) eb'

/-- Phases 1 and 2 (rules R177, R178): the levels of an image given as its pixels in index order. -/
def ditherLevels {α : Type} (A : Arith α) (w h bits : Nat) (image : List Pixel) : Option (List Int) :=
  scanLoop A w h bits (w * h) 0 (image.map A.luma)

/-- The input image (rule R177): pixel i at offset `src + 4i`. -/
def Memory.image (m : Memory) (src n : Nat) : List Pixel := (List.range n).map (fun i => m.pixel (src + 4 * i))

/-- Phase 3 (rule R184): the levels' output pixels from offset `dst`. -/
def Memory.putLevels (m : Memory) (dst : Nat) : List Int → Memory
  | [] => m
  | q :: qs => Memory.putLevels (m.putPixel dst (materialize (BitVec.ofInt 16 q))) (dst + 4) qs

/-- The input image of the state's parameters. -/
def State.inputImage (s : State) : List Pixel := s.pm.image s.srcBase.toNat s.pixels

/-- The levels of the pass that the state's parameters and pixel memory give. -/
def State.passLevels (s : State) : Option (List Int) :=
  ditherLevels (arithOf s.cfg) s.W s.H s.depth s.inputImage

/-- The state after a whole pass with these levels (rules R184 to R186). -/
def State.afterPass (s : State) (levels : List Int) : State :=
  State.completePass { s with
    pm := s.pm.putLevels s.dstBase.toNat levels
    saturated := levels.any (fun q => outOfRange (qbLevel (BitVec.ofInt 16 q))) }

end Sys2Proof.Machine
end

