-- ==== Sys2Proof/Machine/Reference.lean ====
section
/-! DEFINITION. REAL, the exact rational semantics of the source (00_scope.md rule R19): the oracle that FIX
and FP64 approximate. No value of NUMFMT selects it, and no meaning of a command uses it. -/

namespace Sys2Proof.Machine

/-- `rhu(x)` of rule R11 for a rational. -/
def rhuReal (x : ℚ) : ℤ := ⌊x + 1 / 2⌋

/-- `Luma_REAL` (rule R130). -/
def lumaReal (p : Pixel) : ℚ := (lumaSum p : ℚ) / 255000

/-- The index `idx` of `Quant_REAL` (rule R150). -/
def indexReal (v : ℚ) (bits : Nat) : ℤ := rhuReal (v * steps bits / 255)

/-- `Quant_REAL(v, bits)` (rule R150). -/
def quantReal (v : ℚ) (bits : Nat) : ℤ := rhuReal (indexReal v bits * 255 / steps bits)

/-- The operations of REAL (rules R130, R150, R187). -/
def realArith : Arith ℚ where
  luma := lumaReal
  quant := quantReal
  err v q := v - q
  term e w := e * w / 16
  add x t := x + t

/-- LEVELS(bits) (rule R151): `rhu(k·255/L)` for k = 0 … L. -/
def levelSet (bits : Nat) : List ℤ :=
  (List.range (steps bits + 1)).map (fun k : Nat => rhuDiv ((k : ℤ) * 255) (steps bits))

/-- The numeric value of a FIX word (rule R108). -/
def fixValue (f : Nat) (v : ℤ) : ℚ := (v : ℚ) / 2 ^ f

/-- The numeric value of an FP64 word (rule R108). -/
def fp64Value (w : NumWord) : ℚ := (F64.scaled w : ℚ) / F64.one

/-- The numeric value of a NUMWORD in the configured mode (rule R108). -/
def numericValue (c : Config) (w : NumWord) : ℚ :=
  match c.numFmt with
  | .fix => fixValue c.fracBits w.toInt
  | .fp64 => fp64Value w

/-- A NUMWORD is a numeric value of the configured mode (rule R108): every pattern in FIX, and in FP64 every
pattern but the infinities and NaNs. -/
def isNumericWord (c : Config) (w : NumWord) : Bool :=
  match c.numFmt with
  | .fix => true
  | .fp64 => F64.isNumeric w

/-- The index of the quantizer in the configured mode (rule R155). -/
def indexOf (c : Config) (w : NumWord) (bits : Nat) : ℤ :=
  match c.numFmt with
  | .fix => indexFix c.fracBits w.toInt bits
  | .fp64 => indexF64 w bits

/-- The largest finite binary64 value (rule R108). -/
def fp64Max : ℚ := fp64Value 0x7FEFFFFFFFFFFFFF

/-- `r` is `fl(x)` as rule R13 defines it: a numeric value, none of them nearer to x, and with an even
significand where another one is equally near. -/
def IsFl (x : ℚ) (r : NumWord) : Prop :=
  F64.isNumeric r = true ∧ ∀ p : NumWord, F64.isNumeric p = true →
    |fp64Value r - x| ≤ |fp64Value p - x|
      ∧ (|fp64Value r - x| = |fp64Value p - x| → fp64Value p ≠ fp64Value r → F64.fracField r % 2 = 0)

/-- The weight that pixel (x, y) of a w×h image diffuses, in sixteenths (rule R182). -/
def diffusedWeight (w h x y : Nat) : Nat :=
  ((diffusionTargets.filter (fun t => (targetIndex w h (x + t.1) (y + t.2.1)).isSome)).map (fun t => t.2.2)).sum

end Sys2Proof.Machine
end

