-- ==== Sys2Proof/WellFormed.lean ====
section
/-! DEFINITION. Well-formedness: of a command (no operand, so nothing to check, rule R101) and of a
choice of the implementation parameters (rule R6). -/

namespace Sys2Proof

/-- A command has no register number and no immediate (rule R101): each of the four is well formed. -/
def Instr.wellFormed : Instr → Bool
  | .nop => true
  | .luma => true
  | .quant => true
  | .dither => true

/-- The legal values of the parameters (rule R6).
FRAC_BITS is constrained only when NUMFMT = FIX. -/
def Config.legal (c : Config) : Bool :=
  (c.numFmt == .fp64 || (8 ≤ c.fracBits && c.fracBits ≤ 32))
    && (1 ≤ c.maxW && c.maxW ≤ 65535)
    && (1 ≤ c.maxH && c.maxH ≤ 65535)
    && (c.pmBytes % 4 == 0 && 4 ≤ c.pmBytes && c.pmBytes ≤ 0x0F000000)

end Sys2Proof
end

