-- ==== Sys2Proof/Safety.lean ====
section
/-! DEFINITION. What a safe state and a safe run are: the invariant of the machine, in the terms the
statements use. -/

namespace Sys2Proof.Machine

/-- What holds of the engine in each phase (rules R54, R171, R177, R178, R184): a pass in progress has
accepted parameters, and it has written exactly the EB and QB entries its position says. -/
def State.PassInv (s : State) : Prop :=
  match s.phase with
  | .idle => True
  | .init => s.check = .accept ∧ s.cursor < s.pixels ∧ s.eb.length = s.cursor ∧ s.qb = []
  | .scan =>
    s.check = .accept ∧ s.scanX.toNat < s.W ∧ s.scanY.toNat < s.H ∧ s.eb.length = s.pixels
      ∧ s.qb.length = s.scanY.toNat * s.W + s.scanX.toNat
  | .mat => s.check = .accept ∧ s.cursor ≤ s.pixels ∧ s.qb.length = s.pixels

/-- The invariant: legal parameters (rule R6), pixel memory in canonical form and inside PM_BYTES
(rule R72), ERR ≠ 0 only with DONE = 1 (rule R38), DONE = 0 while BUSY = 1 (rule R214), and the engine
consistent with its phase. -/
structure State.Inv (s : State) : Prop where
  legal : s.cfg.legal = true
  canonical : s.pm.wf = true
  within : s.pm.within s.cfg.pmBytes = true
  errDone : s.err ≠ .none → s.done = true
  busyQuiet : s.busy = true → s.done = false
  pass : s.PassInv

/-- What a pass reads and writes before its completion step reports in STATUS (rule R186): the parameters,
pixel memory and the engine's own state.
Two states that agree here go on with the same pass. -/
def State.passView (s : State) :
    Config × (Word × Word × Word × Word × Word) × Memory × (Phase × Nat × BitVec 16 × BitVec 16 × Bool)
      × List NumWord × List QbEntry :=
  (s.cfg, (s.bits, s.width, s.height, s.srcBase, s.dstBase), s.pm,
    (s.phase, s.cursor, s.scanX, s.scanY, s.saturated), s.eb, s.qb)

/-- How many internal steps a pass of `n` pixels takes: three loops of n iterations (rule R197) and the
completion step (rule R186). -/
def passSteps (n : Nat) : Nat := 3 * n + 1

end Sys2Proof.Machine
end

