-- ==== Sys2Proof/Certificates/Slice0/Obligations.lean ====
section
/-! DEFINITION. The statements about the FSD core, one for each rule or group of rules of spec/ that says what
a command, an access, the engine or the machine does. -/

open Sys2Proof Sys2Proof.Machine

/-! ### Reset and registers -/

/-- Rule R270: what a reset leaves in every register, in the phase and on the interrupt line. -/
def Obligations.ResetPutsRegistersInResetValues : Prop :=
  ∀ (s : State) (rest : List Input), s.inputs = .reset :: rest →
    ∃ t, step s = .next t ∧ t.cfg = s.cfg ∧ t.inputs = rest
      ∧ t.readReg .id = 0x46534401 ∧ t.readReg .cfg0 = s.readReg .cfg0 ∧ t.readReg .cfg1 = s.readReg .cfg1
      ∧ t.readReg .cfg2 = s.readReg .cfg2 ∧ t.readReg .status = 0 ∧ t.readReg .irqen = 0 ∧ t.readReg .bits = 1
      ∧ t.readReg .width = 0 ∧ t.readReg .height = 0 ∧ t.readReg .srcLen = 0 ∧ t.readReg .srcBase = 0
      ∧ t.readReg .dstBase = 0 ∧ t.readReg .opa = 0 ∧ t.readReg .lresLo = 0 ∧ t.readReg .lresHi = 0
      ∧ t.readReg .qinLo = 0 ∧ t.readReg .qinHi = 0 ∧ t.readReg .qres = 0
      ∧ t.phase = .idle ∧ t.irq = false

/-- Rules R272 and R273: a reset keeps every byte of pixel memory, but for the output region of a pass it
cuts short, whose bytes are free values (U3; logs 4 and 13), the same claim for every draw. -/
def Obligations.ResetKeepsPixelMemoryButAbandonedOutput : Prop :=
  ∀ (s : State) (rest : List Input), s.inputs = .reset :: rest →
    ∃ t, step s = .next t ∧ t.done = false ∧ t.range = false
      ∧ (s.busy = false → t.pm = s.pm)
      ∧ (∀ a, s.inOutput a = false → t.pm.byte a = s.pm.byte a)
      ∧ (s.busy = true → ∀ a, s.inOutput a = true → t.pm.byte a = Config.abandonedByte s.draws a)

/-- Rules R31 to R34: the identification and configuration registers, for legal parameters, and that no step
changes the parameters. -/
def Obligations.ConfigRegistersReportParameters : Prop :=
  (∀ s t : State, step s = .next t → t.cfg = s.cfg)
  ∧ ∀ s : State, s.cfg.legal = true →
    s.readReg .id = 0x46534401
      ∧ (s.readReg .cfg0).toNat = (match s.cfg.numFmt with | .fix => 256 * s.cfg.fracBits | .fp64 => 1)
      ∧ (s.readReg .cfg1).toNat = s.cfg.maxW + 65536 * s.cfg.maxH
      ∧ (s.readReg .cfg2).toNat = s.cfg.pmBytes

/-- Rule R36 and the codes of rule R230: STATUS as the host reads it. -/
def Obligations.StatusWordFields : Prop :=
  ∀ s : State, (s.readReg .status).toNat =
    (if s.busy then 1 else 0) + (if s.done then 2 else 0)
      + 16 * (match s.err with
        | .none => 0 | .illegalCmd => 1 | .invalidParam => 2 | .shapeMismatch => 3 | .dimRange => 4
        | .align => 5 | .addrRange => 6 | .operand => 7)
      + (if s.range then 256 else 0) + (if s.werr then 512 else 0)

/-- Rule R30: the offset of each register in the register window.
Rule R217: a register read returns the register's value, whether or not BUSY = 1, and changes nothing;
CTRL reads 0. -/
def Obligations.RegisterReadAtItsOffsetIsExact : Prop :=
  (∀ r : Reg, r.addr = match r with
    | .id => 0x000 | .cfg0 => 0x004 | .cfg1 => 0x008 | .cfg2 => 0x00C | .ctrl => 0x010 | .status => 0x014
    | .irqen => 0x018 | .bits => 0x01C | .width => 0x020 | .height => 0x024 | .srcLen => 0x028
    | .srcBase => 0x02C | .dstBase => 0x030 | .opa => 0x034 | .lresLo => 0x038 | .lresHi => 0x03C
    | .qinLo => 0x040 | .qinHi => 0x044 | .qres => 0x048)
  ∧ ∀ (s : State) (r : Reg) (rest : List Input), s.inputs = .host (.read .b4 r.addr) :: rest →
    step s = .next { s with inputs := rest, response := .data (s.readReg r) }
      ∧ s.readReg .ctrl = 0

/-- Rule R216: with BUSY = 0 a write to each of the nine busy-locked RW registers stores the word whole and
changes no other register and no byte of pixel memory; with BUSY = 1 it is dropped (rule R280). -/
def Obligations.RegisterWriteStoresWholeWord : Prop :=
  ∀ (s : State) (r : Reg) (v : Word) (rest : List Input),
    r ∈ [Reg.bits, .width, .height, .srcLen, .srcBase, .dstBase, .opa, .qinLo, .qinHi] →
    s.inputs = .host (.write .b4 r.addr v) :: rest →
    (s.busy = false →
      ∃ t, step s = .next t ∧ t.readReg r = v ∧ (∀ r', r' ≠ r → t.readReg r' = s.readReg r')
        ∧ t.pm = s.pm ∧ t.phase = s.phase ∧ t.inputs = rest ∧ t.response = .written)
    ∧ (s.busy = true → step s = .next { s with inputs := rest, response := .written, werr := true })

/-- Rule R55: a write to a read-only register completes and changes nothing, and the reserved bits of a
STATUS or IRQEN write have no effect. -/
def Obligations.ReadOnlyAndReservedWritesChangeNothing : Prop :=
  (∀ (s : State) (r : Reg) (v : Word) (rest : List Input),
    r ∈ [Reg.id, .cfg0, .cfg1, .cfg2, .lresLo, .lresHi, .qres] →
    s.inputs = .host (.write .b4 r.addr v) :: rest →
    step s = .next { s with inputs := rest, response := .written })
  ∧ (∀ (s : State) (v v' : Word), v &&& 0x302 = v' &&& 0x302 → s.writeStatus v = s.writeStatus v')
  ∧ (∀ (s : State) (v v' : Word), v &&& 1 = v' &&& 1 → s.writeIrqen v = s.writeIrqen v')

/-- Rule R214: the effect of a STATUS write, at any time: write-one-to-clear on bits 1, 8 and 9, every other
bit ignored, BUSY not written, WERR never set.
Rule R215: an IRQEN write, at any time, sets EN to bit 0 and is never dropped; rule R41: bits 31:1 read 0. -/
def Obligations.StatusAndIrqenWrites : Prop :=
  (∀ (s : State) (v : Word) (rest : List Input), s.inputs = .host (.write .b4 Reg.status.addr v) :: rest →
    step s = .next { s with
      inputs := rest
      response := .written
      done := if v.getLsbD 1 then false else s.done
      err := if v.getLsbD 1 then .none else s.err
      range := if v.getLsbD 8 then false else s.range
      werr := if v.getLsbD 9 then false else s.werr })
  ∧ ∀ (s : State) (v : Word) (rest : List Input), s.inputs = .host (.write .b4 Reg.irqen.addr v) :: rest →
    ∃ t, step s = .next t ∧ t = { s with inputs := rest, response := .written, irqEn := v.getLsbD 0 }
      ∧ t.readReg .irqen = v &&& 1 ∧ t.irq = (s.done && v.getLsbD 0)

/-- Rule R240: the interrupt line is DONE AND EN of the host-visible registers.
It is high after every command that has ended and after the completion step exactly when EN = 1, and low
after a reset, after a STATUS write with bit 1 = 1 and after an IRQEN write with bit 0 = 0. -/
def Obligations.InterruptLineIsDoneAndEnable : Prop :=
  (∀ s : State, s.irq = ((s.readReg .status).getLsbD 1 && (s.readReg .irqen).getLsbD 0))
  ∧ (∀ (i : Instr) (s t : State), s.busy = false → exec i s = .next t → t.busy = false → t.irq = s.irqEn)
  ∧ (∀ s : State, s.completePass.irq = s.irqEn)
  ∧ (∀ s : State, s.applyReset.irq = false)
  ∧ (∀ s : State, s.beginCommand.irq = false)
  ∧ (∀ (s : State) (v : Word), v.getLsbD 1 = true → (s.writeStatus v).irq = false)
  ∧ (∀ (s : State) (v : Word), v.getLsbD 0 = false → (s.writeIrqen v).irq = false)

/-- Rule R280: while BUSY = 1 a write to CTRL or to a busy-locked register sets WERR and changes nothing
else; a STATUS or IRQEN write is not dropped; every register read is exact. -/
def Obligations.BusyRegisterWritesAreDropped : Prop :=
  ∀ (s : State) (rest : List Input), s.busy = true →
    (∀ (r : Reg) (v : Word),
      r ∈ [Reg.ctrl, .bits, .width, .height, .srcLen, .srcBase, .dstBase, .opa, .qinLo, .qinHi] →
      s.inputs = .host (.write .b4 r.addr v) :: rest →
      step s = .next { s with inputs := rest, response := .written, werr := true })
    ∧ (∀ v : Word, s.inputs = .host (.write .b4 Reg.status.addr v) :: rest →
      step s = .next (State.writeStatus { s with inputs := rest, response := .written } v))
    ∧ (∀ v : Word, s.inputs = .host (.write .b4 Reg.irqen.addr v) :: rest →
      step s = .next (State.writeIrqen { s with inputs := rest, response := .written } v))
    ∧ (∀ r : Reg, s.inputs = .host (.read .b4 r.addr) :: rest →
      step s = .next { s with inputs := rest, response := .data (s.readReg r) })

/-! ### Host accesses to pixel memory, bus errors -/

/-- Rules R71, R74, R75, R76 and R77: every malformed access ends with a bus error and changes nothing. -/
def Obligations.BusErrorChangesNothing : Prop :=
  ∀ (s : State) (w : Width) (addr v : Word) (rest : List Input) (acc : Access),
    acc = .read w addr ∨ acc = .write w addr v → s.inputs = .host acc :: rest →
    ((addr.toNat < 0x100 ∧ (w.bytes ≠ 4 ∨ addr.toNat % 4 ≠ 0 ∨ 0x4C ≤ addr.toNat))
      ∨ (0x100 ≤ addr.toNat ∧ addr.toNat < 0x01000000)
      ∨ (0x01000000 ≤ addr.toNat
          ∧ (addr.toNat % w.bytes ≠ 0 ∨ 0x01000000 + s.cfg.pmBytes < addr.toNat + w.bytes))) →
    step s = .next { s with inputs := rest, response := .busError }

/-- Rules R74 and R79: with BUSY = 0 an aligned write of n bytes inside pixel memory stores the low n bytes of
its data word (the model's choice of those bytes, log 17), little-endian, and leaves every other byte and
every register as it was. -/
def Obligations.PixelMemoryWriteIsLittleEndian : Prop :=
  ∀ (s : State) (w : Width) (off : Nat) (v : Word) (rest : List Input),
    s.cfg.legal = true → s.busy = false → off % w.bytes = 0 → off + w.bytes ≤ s.cfg.pmBytes →
    s.inputs = .host (.write w (pmAddr off) v) :: rest →
    ∃ m, step s = .next { s with inputs := rest, response := .written, pm := m }
      ∧ (∀ k, k < w.bytes → m.byte (off + k) = v.extractLsb' (8 * k) 8)
      ∧ (∀ a, a < off ∨ off + w.bytes ≤ a → m.byte a = s.pm.byte a)

/-- Rules R74 and R79: with BUSY = 0 an aligned read inside pixel memory returns its bytes, little-endian,
and changes nothing.
That a narrow read's data is zero above its bytes is the model's choice (log 3). -/
def Obligations.PixelMemoryReadIsLittleEndian : Prop :=
  ∀ (s : State) (w : Width) (off : Nat) (rest : List Input),
    s.cfg.legal = true → s.busy = false → off % w.bytes = 0 → off + w.bytes ≤ s.cfg.pmBytes →
    s.inputs = .host (.read w (pmAddr off)) :: rest →
    ∃ v : Word, step s = .next { s with inputs := rest, response := .data v }
      ∧ (∀ k, k < w.bytes → v.extractLsb' (8 * k) 8 = s.pm.byte (off + k))
      ∧ v.toNat < 256 ^ w.bytes

/-- Rule R281: while BUSY = 1 a well-formed write to pixel memory only sets WERR, and a well-formed read
returns a free value (U2; log 4), for every draw number, and changes nothing the host can see. -/
def Obligations.BusyPixelMemoryAccess : Prop :=
  ∀ (s : State) (w : Width) (off : Nat) (v : Word) (rest : List Input),
    s.cfg.legal = true → s.busy = true → off % w.bytes = 0 → off + w.bytes ≤ s.cfg.pmBytes →
    (s.inputs = .host (.write w (pmAddr off) v) :: rest →
      step s = .next { s with inputs := rest, response := .written, werr := true })
    ∧ (s.inputs = .host (.read w (pmAddr off)) :: rest →
      step s = .next { s with
        inputs := rest, response := .data (w.clip (Config.busyRead s.draws)), draws := s.draws + 1 })

/-! ### Command words -/

/-- Rules R102 and R112: the words of the four commands, and two illegal ones. -/
def Obligations.CommandWordsDecode : Prop :=
  decode 0x00000000 = .ok .nop ∧ decode 0x00000001 = .ok .luma ∧ decode 0x00000002 = .ok .quant
    ∧ decode 0x00000003 = .ok .dither ∧ decode 0x00000004 = .error .opReserved
    ∧ decode 0x00000103 = .error .rsvNonzero

/-- Rules R103 and R104: the legal words are exactly the four encodings, each read as its command, and a word
is illegal exactly when OP ≥ 0x04 or RSV ≠ 0. -/
def Obligations.DecodeInvertsEncode : Prop :=
  (∀ (w : Word) (i : Instr), decode w = .ok i ↔ w = encode i)
  ∧ ∀ w : Word, (∃ e, decode w = .error e) ↔ (0x04 ≤ (opField w).toNat ∨ rsvField w ≠ 0)

/-- Rule R210: a CTRL write with BUSY = 0 clears DONE and ERR, keeps RANGE and WERR, and runs the decoded
command, or raises ILLEGAL_CMD, code 1, and changes nothing else (rule R212); with BUSY = 1 it issues nothing
(rule R280). -/
def Obligations.StepRunsDecodedCommand : Prop :=
  ∀ (s : State) (w : Word) (rest : List Input), s.inputs = .host (.write .b4 Reg.ctrl.addr w) :: rest →
    (s.busy = false → ∀ i, decode w = .ok i →
      step s = exec i { s with inputs := rest, response := .written, done := false, err := .none })
    ∧ (s.busy = false → ∀ e, decode w = .error e →
      step s = .next { s with inputs := rest, response := .written, done := true, err := .illegalCmd }
        ∧ ErrCode.illegalCmd.code = 1)
    ∧ (s.busy = true → step s = .next { s with inputs := rest, response := .written, werr := true })

/-! ### NOP, LUMA, QUANT -/

/-- Rule R213: NOP ends with success and changes nothing else. -/
def Obligations.NopEndsWithSuccess : Prop :=
  ∀ s : State, exec .nop s = .next { s with done := true, err := .none }

/-- Rules R133 and R137: LUMA writes the Luma Extractor's value of the pixel in OPA, in the configured mode,
to LRES, ends with success and changes nothing else. -/
def Obligations.LumaWritesLumaOfOpa : Prop :=
  ∀ (s : State) (r g b a : Byte), r = s.opa.extractLsb' 0 8 → g = s.opa.extractLsb' 8 8 →
    b = s.opa.extractLsb' 16 8 → a = s.opa.extractLsb' 24 8 →
    (s.cfg.numFmt = .fix → ∀ v : NumWord,
      v = BitVec.ofNat 64
        ((2 * ((299 * r.toNat + 587 * g.toNat + 114 * b.toNat) * a.toNat) * 2 ^ s.cfg.fracBits + 255000) / 510000) →
      exec .luma s = .next { s with
        lresLo := v.extractLsb' 0 32, lresHi := v.extractLsb' 32 32, done := true, err := .none })
    ∧ (s.cfg.numFmt = .fp64 → ∀ v : NumWord,
      v = F64.div
        (F64.mul
          (F64.add
            (F64.add (F64.mul 0x3FD322D0E5604189 (F64.ofInt r.toNat)) (F64.mul 0x3FE2C8B439581062 (F64.ofInt g.toNat)))
            (F64.mul 0x3FBD2F1A9FBE76C9 (F64.ofInt b.toNat)))
          (F64.ofInt a.toNat))
        (F64.ofInt 255) →
      exec .luma s = .next { s with
        lresLo := v.extractLsb' 0 32, lresHi := v.extractLsb' 32 32, done := true, err := .none })

/-- Rule R156, with the quantizer of rule R155: QUANT on an accepted operand writes the unsaturated level to
QRES, ends with success and changes nothing else. -/
def Obligations.QuantWritesLevel : Prop :=
  ∀ (s : State) (q : NumWord) (l : Nat), 1 ≤ s.bits.toNat → s.bits.toNat ≤ 8 →
    q = s.qinHi ++ s.qinLo → l = 2 ^ s.bits.toNat - 1 →
    (s.cfg.numFmt = .fix →
      -32768 * 2 ^ s.cfg.fracBits ≤ q.toInt → q.toInt < 32768 * 2 ^ s.cfg.fracBits →
      ∀ (f : Nat) (idx level : Int), f = 2 ^ s.cfg.fracBits →
      idx = ⌊(2 * q.toInt * l + 255 * f : ℚ) / (510 * f)⌋ → level = ⌊(510 * idx + l : ℚ) / (2 * l)⌋ →
      exec .quant s = .next { s with qres := BitVec.ofInt 32 level, done := true, err := .none })
    ∧ (s.cfg.numFmt = .fp64 →
      q.extractLsb' 52 11 ≠ 0x7FF → -32768 ≤ fp64Value q → fp64Value q < 32768 →
      ∀ (scale : NumWord) (idx level : Int), scale = F64.div (F64.ofInt 255) (F64.ofInt l) →
      idx = F64.rhu (F64.div q scale) → level = F64.rhu (F64.mul (F64.ofInt idx) scale) →
      exec .quant s = .next { s with qres := BitVec.ofInt 32 level, done := true, err := .none })

/-- Rules R157 and R158 with the priority of rule R233: QUANT's two errors, each changing DONE and ERR only. -/
def Obligations.QuantErrorsInOrder : Prop :=
  ∀ (s : State) (q : NumWord), q = s.qinHi ++ s.qinLo →
    (s.bits.toNat < 1 ∨ 8 < s.bits.toNat → exec .quant s = .next { s with done := true, err := .invalidParam })
    ∧ (1 ≤ s.bits.toNat → s.bits.toNat ≤ 8 → s.cfg.numFmt = .fix →
      q.toInt < -32768 * 2 ^ s.cfg.fracBits ∨ 32768 * 2 ^ s.cfg.fracBits ≤ q.toInt →
      exec .quant s = .next { s with done := true, err := .operand })
    ∧ (1 ≤ s.bits.toNat → s.bits.toNat ≤ 8 → s.cfg.numFmt = .fp64 →
      q.extractLsb' 52 11 = 0x7FF ∨ fp64Value q < -32768 ∨ 32768 ≤ fp64Value q →
      exec .quant s = .next { s with done := true, err := .operand })

/-- Rules R105, R15 and R234: the frame of the four commands, when `exec` gives a next state.
No command writes a parameter or operand register, IRQEN, RANGE, WERR, a byte of pixel memory or a field of
the model's own; QRES is QUANT's, LRES is LUMA's, and the engine's state is DITHER's. -/
def Obligations.CommandFrames : Prop :=
  ∀ (i : Instr) (s t : State), exec i s = .next t →
    t.cfg = s.cfg ∧ t.irqEn = s.irqEn ∧ t.bits = s.bits ∧ t.width = s.width ∧ t.height = s.height
      ∧ t.srcLen = s.srcLen ∧ t.srcBase = s.srcBase ∧ t.dstBase = s.dstBase ∧ t.opa = s.opa
      ∧ t.qinLo = s.qinLo ∧ t.qinHi = s.qinHi ∧ t.range = s.range ∧ t.werr = s.werr
      ∧ (∀ a, t.pm.byte a = s.pm.byte a)
      ∧ t.inputs = s.inputs ∧ t.response = s.response ∧ t.draws = s.draws
      ∧ t.scanX = s.scanX ∧ t.scanY = s.scanY
      ∧ (i ≠ .quant → t.qres = s.qres)
      ∧ (i ≠ .luma → t.lresLo = s.lresLo ∧ t.lresHi = s.lresHi)
      ∧ (i ≠ .dither → t.phase = s.phase ∧ t.cursor = s.cursor ∧ t.saturated = s.saturated ∧ t.eb = s.eb
          ∧ t.qb = s.qb)

/-- Rule R234: a command that reports an error leaves everything but DONE and ERR as it was.
The premise `s.err = .none` is what `issue` leaves (rule R210). -/
def Obligations.ErrorReportIsPrecise : Prop :=
  ∀ (i : Instr) (s t : State), s.err = .none → exec i s = .next t → t.err ≠ .none →
    t = { s with done := true, err := t.err }

/-! ### The arithmetic of the modes -/

/-- Rule R134, FIX: the luma is within half a unit of the exact one, lies in [0, 255·2^F], is 0 for a zero
sum, and is exactly r·2^F for an opaque grey pixel. -/
def Obligations.LumaFixIsNearest : Prop :=
  ∀ (f : Nat) (p : Pixel),
    |(lumaFix f p : ℚ) - lumaReal p * 2 ^ f| ≤ 1 / 2
      ∧ lumaFix f p ≤ 255 * 2 ^ f
      ∧ (lumaSum p = 0 → lumaFix f p = 0)
      ∧ (p.a = 255 → p.r = p.g → p.g = p.b → lumaFix f p = p.r.toNat * 2 ^ f)

/-- Rule R134's "V = 0 exactly when N = 0" for every legal FRAC_BITS. -/
def Obligations.LumaFixZeroOnlyForZeroSum : Prop :=
  ∀ (f : Nat) (p : Pixel), 8 ≤ f → f ≤ 32 → (lumaFix f p = 0 ↔ lumaSum p = 0)

/-- Rule R134, FP64: the luma is a numeric value in [0, 255], 0.0 when a = 0, and 255.0 for the white opaque
pixel; and each of its intermediate values is numeric, so LUMA meets no free value of log 10. -/
def Obligations.LumaF64InRange : Prop :=
  (∀ p : Pixel, F64.isNumeric (lumaF64 p) = true ∧ 0 ≤ fp64Value (lumaF64 p) ∧ fp64Value (lumaF64 p) ≤ 255
    ∧ (p.a = 0 → lumaF64 p = 0)
    ∧ ∀ x y z : NumWord, x = F64.mul k299 (channelF64 p.r) → y = F64.mul k587 (channelF64 p.g) →
      z = F64.mul k114 (channelF64 p.b) →
      F64.isNumeric x = true ∧ F64.isNumeric y = true ∧ F64.isNumeric z = true ∧ F64.isNumeric (F64.add x y) = true
        ∧ F64.isNumeric (F64.add (F64.add x y) z) = true
        ∧ F64.isNumeric (F64.mul (F64.add (F64.add x y) z) (channelF64 p.a)) = true)
  ∧ lumaF64 { r := 255, g := 255, b := 255, a := 255 } = 0x406FE00000000000

/-- Rule R155: Quant_FIX is exactly Quant_REAL applied to V/2^F. -/
def Obligations.QuantFixIsQuantReal : Prop :=
  ∀ (f : Nat) (v : Int) (bits : Nat), 1 ≤ bits → quantFix f v bits = quantReal (fixValue f v) bits

/-- Rule R151: LEVELS(bits) has 2^bits elements, strictly increasing from 0 to 255, for each legal depth.
Rule R153: a value in [0, 255] has an index in [0, L] and its level is in LEVELS(bits). -/
def Obligations.InRangeValueGivesLevel : Prop :=
  (∀ bits : Nat, 1 ≤ bits → bits ≤ 8 →
    (levelSet bits).length = 2 ^ bits ∧ (levelSet bits).Pairwise (· < ·)
      ∧ (levelSet bits).head? = some 0 ∧ (levelSet bits).getLast? = some 255)
  ∧ ∀ (v : ℚ) (bits : Nat), 1 ≤ bits → 0 ≤ v → v ≤ 255 →
    0 ≤ indexReal v bits ∧ indexReal v bits ≤ steps bits ∧ quantReal v bits ∈ levelSet bits

/-- Rule R152: the second rounding of the quantizer never meets a tie, and a tie of the first one rounds up. -/
def Obligations.QuantizerTies : Prop :=
  (∀ (bits : Nat) (idx k : Int), 1 ≤ bits → (idx * 255 / steps bits : ℚ) ≠ k + 1 / 2)
  ∧ (∀ (bits : Nat) (v : ℚ) (k : Int), v * steps bits / 255 = k + 1 / 2 → indexReal v bits = k + 1)
  ∧ indexReal (255 / 2) 1 = 1 ∧ quantReal (255 / 2) 1 = 255

/-- Rules R109 and R158: every operand QUANT accepts gives a level in [−32895, 32895], so QRES holds it
exactly, in both modes. -/
def Obligations.AcceptedOperandLevelFitsQres : Prop :=
  ∀ (c : Config) (w : NumWord) (bits : Nat), 1 ≤ bits → bits ≤ 8 → operandOk c w = true →
    -32895 ≤ (arithOf c).quant w bits ∧ (arithOf c).quant w bits ≤ 32895
      ∧ (BitVec.ofInt 32 ((arithOf c).quant w bits)).toInt = (arithOf c).quant w bits

/-- Rule R155: the binary64 patterns of `scale`, and the agreement of `rhu(idx ⊗ scale)` with
`rhu(idx·255/L)` for every depth and every index in [−1, L + 1]. -/
def Obligations.QuantF64ScaleAndLevels : Prop :=
  (List.range 8).map (fun k => scaleF64 (k + 1)) =
    [0x406FE00000000000, 0x4055400000000000, 0x404236DB6DB6DB6E, 0x4031000000000000, 0x4020739CE739CE74,
      0x401030C30C30C30C, 0x4000102040810204, 0x3FF0000000000000]
  ∧ ∀ bits : Fin 9, 1 ≤ bits.val → ∀ k : Fin (steps bits.val + 3),
      F64.rhu (F64.mul (F64.ofInt ((k.val : Int) - 1)) (scaleF64 bits.val)) = levelOf ((k.val : Int) - 1) bits.val

/-- Rule R191's level set at bits = 1: after saturation every level is 0 or 255, for every FIX value and every
FP64 value that QUANT accepts. -/
def Obligations.DepthOneGivesBlackOrWhite : Prop :=
  (∀ (f : Nat) (v : Int), sat8 (quantFix f v 1) = 0 ∨ sat8 (quantFix f v 1) = 255)
  ∧ (∀ (c : Config) (w : NumWord), c.numFmt = .fp64 → operandOk c w = true →
    sat8 (quantF64 w 1) = 0 ∨ sat8 (quantF64 w 1) = 255)

/-- Rule R187: the error, term and accumulation of the configured mode: on FIX words within ±400·2^F the
integers V − q·2^F, floor((E·w + 8)/16) and X + T, and in FP64 the operations in the written order.
Each FIX term is within half a unit of E·w/16, the four terms of an interior pixel sum to within 2 units of
E, and the REAL terms sum to exactly e. -/
def Obligations.ErrorTermAndAddOfEachMode : Prop :=
  (∀ (e : Int) (w : Nat), |(termFix e w : ℚ) - e * w / 16| ≤ 1 / 2)
  ∧ (∀ e : Int, |termFix e 7 + termFix e 3 + termFix e 5 + termFix e 1 - e| ≤ 2)
  ∧ (∀ e : ℚ, realArith.term e 7 + realArith.term e 3 + realArith.term e 5 + realArith.term e 1 = e)
  ∧ (∀ s : State, s.cfg.legal = true → s.cfg.numFmt = .fix → ∀ v t : NumWord,
    |v.toInt| ≤ 400 * 2 ^ s.cfg.fracBits → |t.toInt| ≤ 400 * 2 ^ s.cfg.fracBits →
      (∀ q : Int, -255 ≤ q → q ≤ 510 →
        ((arithOf s.cfg).err v q).toInt = v.toInt - q * 2 ^ s.cfg.fracBits)
      ∧ (∀ w : Nat, w ≤ 16 → ((arithOf s.cfg).term v w).toInt = ⌊(v.toInt * w + 8 : ℚ) / 16⌋)
      ∧ ((arithOf s.cfg).add v t).toInt = v.toInt + t.toInt)
  ∧ (∀ s : State, s.cfg.numFmt = .fp64 → ∀ (v t : NumWord) (q : Int) (w : Nat),
    (arithOf s.cfg).err v q = F64.sub v (F64.ofInt q)
      ∧ (arithOf s.cfg).term v w = F64.div (F64.mul v (F64.ofInt w)) (F64.ofInt 16)
      ∧ (arithOf s.cfg).add v t = F64.add v t)

/-- Rule R13: `fl` of a magnitude that does not overflow is a numeric value nearest to it, and where another
binary64 value is equally near, it has an even significand.
On numeric operands of either sign, ⊕, ⊖, ⊗ and ⊘ give `fl` of the exact sum, difference, product and
quotient, wherever that does not exceed the largest finite value; the conversion of an integer of at most 53
bits is exact; and the rounding to an integer is `rhu` of rule R11. -/
def Obligations.F64OperationsRoundExactResultOnce : Prop :=
  (∀ (n d : Nat), 0 < d → F64.roundMag n d < 0x7FF * 2 ^ 52 →
    ∀ p : NumWord, F64.isNumeric p = true → F64.neg p = false →
      let r := F64.fl false n d
      |(F64.mag r : ℚ) - n / d| ≤ |(F64.mag p : ℚ) - n / d|
        ∧ (|(F64.mag r : ℚ) - n / d| = |(F64.mag p : ℚ) - n / d| → p ≠ r → F64.fracField r % 2 = 0))
  ∧ (∀ (a b : NumWord) (x y : ℚ), F64.isNumeric a = true → F64.isNumeric b = true →
    x = fp64Value a → y = fp64Value b →
      (|x + y| ≤ fp64Max → IsFl (x + y) (F64.add a b))
      ∧ (|x - y| ≤ fp64Max → IsFl (x - y) (F64.sub a b))
      ∧ (|x * y| ≤ fp64Max → IsFl (x * y) (F64.mul a b))
      ∧ (y ≠ 0 → |x / y| ≤ fp64Max → IsFl (x / y) (F64.div a b)))
  ∧ (∀ i : Int, |i| ≤ 2 ^ 53 → F64.isNumeric (F64.ofInt i) = true ∧ fp64Value (F64.ofInt i) = i)
  ∧ ∀ w : NumWord, F64.isNumeric w = true → F64.rhu w = ⌊fp64Value w + 1 / 2⌋

/-- Rules R13 and R108: every numeric value is its own rounding, so the reading of a pattern and its
encoding agree. -/
def Obligations.NumericPatternRoundTrips : Prop :=
  ∀ w : NumWord, F64.isNumeric w = true → F64.fl (F64.neg w) (F64.mag w) 1 = w

/-- Rules R78, R79 and R107: pixel words and NUMWORD halves pack and unpack without loss, in both
directions. -/
def Obligations.PixelAndNumwordPacking : Prop :=
  (∀ p : Pixel, Pixel.ofWord p.toWord = p) ∧ (∀ w : Word, (Pixel.ofWord w).toWord = w)
    ∧ (∀ w : NumWord, numWord (numHi w) (numLo w) = w)
    ∧ (∀ hi lo : Word, numHi (numWord hi lo) = hi ∧ numLo (numWord hi lo) = lo)

/-! ### DITHER: the check -/

/-- Rule R171: the checks of DITHER in their order, each error changing DONE and ERR only (rule R173), and
acceptance, which begins phase 1 with BUSY = 1 (rule R176).
That acceptance empties EB and QB and sets the loop index to 0 is the model's choice (logs 7 and 8). -/
def Obligations.DitherChecksInOrder : Prop :=
  ∀ s : State,
    let bits := s.bits.toNat
    let w := s.width.toNat
    let h := s.height.toNat
    let srcB := s.srcBase.toNat
    let dstB := s.dstBase.toNat
    exec .dither s =
      if bits < 1 ∨ 8 < bits then .next { s with done := true, err := .invalidParam }
      else if s.srcLen.toNat ≠ w * h * 4 then .next { s with done := true, err := .shapeMismatch }
      else if w * h = 0 then .next { s with done := true, err := .none }
      else if s.cfg.maxW < w ∨ s.cfg.maxH < h then .next { s with done := true, err := .dimRange }
      else if srcB % 4 ≠ 0 ∨ dstB % 4 ≠ 0 then .next { s with done := true, err := .align }
      else if s.cfg.pmBytes < srcB + 4 * (w * h) ∨ s.cfg.pmBytes < dstB + 4 * (w * h) then
        .next { s with done := true, err := .addrRange }
      else .next { s with phase := .init, cursor := 0, saturated := false, eb := [], qb := [] }

/-- Rule R172: a zero-area image with a good depth and shape ends with success at once: BUSY stays 0 and no
PM, EB or QB entry changes, whatever the dimensions' limits and the bases are. -/
def Obligations.ZeroAreaEndsAtOnce : Prop :=
  ∀ s : State, 1 ≤ s.bits.toNat → s.bits.toNat ≤ 8 → s.srcLen = 0 →
    s.width.toNat = 0 ∨ s.height.toNat = 0 → s.busy = false →
    ∃ t, exec .dither s = .next t ∧ t = { s with done := true, err := .none } ∧ t.busy = false

/-- Rules R170 and R176: DITHER with accepted parameters begins a pass: BUSY = 1, phase INIT, and no byte of
pixel memory and no register but STATUS changed.
That EB and QB are then empty and the loop index is 0 is the model's choice (logs 7 and 8). -/
def Obligations.AcceptedDitherBeginsPass : Prop :=
  ∀ s : State, 1 ≤ s.bits.toNat → s.bits.toNat ≤ 8 → s.srcLen.toNat = s.width.toNat * s.height.toNat * 4 →
    0 < s.width.toNat * s.height.toNat → s.width.toNat ≤ s.cfg.maxW → s.height.toNat ≤ s.cfg.maxH →
    s.srcBase.toNat % 4 = 0 → s.dstBase.toNat % 4 = 0 →
    s.srcBase.toNat + 4 * (s.width.toNat * s.height.toNat) ≤ s.cfg.pmBytes →
    s.dstBase.toNat + 4 * (s.width.toNat * s.height.toNat) ≤ s.cfg.pmBytes →
    ∃ t, exec .dither s = .next t ∧ t.busy = true ∧ t.phase = .init ∧ t.cursor = 0 ∧ t.eb = [] ∧ t.qb = []
      ∧ t.saturated = false ∧ (∀ a, t.pm.byte a = s.pm.byte a) ∧ (∀ r, r ≠ .status → t.readReg r = s.readReg r)

/-! ### The pass, step by step -/

/-- Rules R177 and R138, for the model's engine, which takes one loop iteration a step (log 8): the EB entry
that phase 1 writes for a pixel is the NUMWORD that LUMA writes to LRES for that pixel's word, and the step
changes nothing else but the loop's position. -/
def Obligations.PhaseOneEntryIsLuma : Prop :=
  ∀ s : State, s.phase = .init → s.srcPixel s.cursor + 4 ≤ s.cfg.pmBytes →
    ∃ t u, engineStep s = .next t
      ∧ exec .luma { s with opa := BitVec.ofNat 32 (s.pm.read (s.srcPixel s.cursor) 4) } = .next u
      ∧ t.eb = s.eb ++ [numWord u.lresHi u.lresLo]
      ∧ t = { s with eb := t.eb, phase := t.phase, cursor := t.cursor, scanX := t.scanX, scanY := t.scanY }
      ∧ (s.cursor + 1 < s.pixels → t.phase = .init ∧ t.cursor = s.cursor + 1)
      ∧ (s.pixels ≤ s.cursor + 1 → t.phase = .scan ∧ t.scanX = 0 ∧ t.scanY = 0)

/-- Rules R53, R178, R180 and R183: one step of phase 2 (one pixel a step, log 8) appends the level of EB[i] to
QB, diffuses its error, leaves EB[0 … i] alone, and advances the scanner. -/
def Obligations.ScanStepFinalizesPixel : Prop :=
  ∀ s : State, s.Inv → s.phase = .scan →
    let A := arithOf s.cfg
    let x := s.scanX.toNat
    let y := s.scanY.toNat
    let i := y * s.W + x
    ∃ old t, s.eb[i]? = some old ∧ engineStep s = .next t
      ∧ t.qb = s.qb ++ [BitVec.ofInt 16 (A.quant old s.depth)]
      ∧ t.eb = diffuse A s.W s.H x y (A.err old (A.quant old s.depth)) s.eb
      ∧ (∀ j, j ≤ i → t.eb[j]? = s.eb[j]?)
      ∧ t = { s with qb := t.qb, eb := t.eb, phase := t.phase, cursor := t.cursor, scanX := t.scanX, scanY := t.scanY }
      ∧ (x + 1 < s.W → t.phase = .scan ∧ t.scanX.toNat = x + 1 ∧ t.scanY.toNat = y)
      ∧ (x + 1 = s.W → y + 1 < s.H → t.phase = .scan ∧ t.scanX.toNat = 0 ∧ t.scanY.toNat = y + 1)
      ∧ (x + 1 = s.W → y + 1 = s.H → t.phase = .mat ∧ t.cursor = 0)

/-- Rule R181: `diffuse` adds the term of each in-bounds neighbour to its entry once and changes no other
entry, in every mode. -/
def Obligations.DiffusionUpdatesFourNeighbours : Prop :=
  ∀ (α : Type) (A : Arith α) (w h x y : Nat) (e : α) (eb : List α), x < w → y < h → eb.length = w * h →
    (diffuse A w h x y e eb).length = w * h
    ∧ ∀ nx ny, nx < w → ny < h →
      (diffuse A w h x y e eb)[ny * w + nx]? = (eb[ny * w + nx]?).map (fun v =>
        if nx = x + 1 ∧ ny = y then A.add v (A.term e 7)
        else if nx + 1 = x ∧ ny = y + 1 then A.add v (A.term e 3)
        else if nx = x ∧ ny = y + 1 then A.add v (A.term e 5)
        else if nx = x + 1 ∧ ny = y + 1 then A.add v (A.term e 1)
        else v)

/-- Rule R183: every target of a diffusion has a larger index than the pixel it comes from, and is a pixel
of the image. -/
def Obligations.DiffusionTargetsAreUnvisited : Prop :=
  ∀ (w h x y j : Nat) (t : Int × Int × Nat), x < w → y < h → t ∈ diffusionTargets →
    targetIndex w h (x + t.1) (y + t.2.1) = some j → y * w + x < j ∧ j < w * h

/-- Rule R182: the weight diffused from each position of an image, in sixteenths. -/
def Obligations.BorderWeights : Prop :=
  ∀ w h x y : Nat, x < w → y < h →
    (1 ≤ x → x + 2 ≤ w → y + 2 ≤ h → diffusedWeight w h x y = 16)
    ∧ (x = 0 → 2 ≤ w → y + 2 ≤ h → diffusedWeight w h x y = 13)
    ∧ (x + 1 = w → 2 ≤ w → y + 2 ≤ h → diffusedWeight w h x y = 8)
    ∧ (w = 1 → y + 2 ≤ h → diffusedWeight w h x y = 5)
    ∧ (y + 1 = h → x + 2 ≤ w → diffusedWeight w h x y = 7)
    ∧ (y + 1 = h → x + 1 = w → diffusedWeight w h x y = 0)

/-- Rules R184 and R185: one step of phase 3 (one pixel a step, log 8) writes the bytes s, s, s, 255 of its
pixel, with s the saturated level, records a saturation, and changes no other byte. -/
def Obligations.MaterializerWritesGreyPixel : Prop :=
  ∀ s : State, s.Inv → s.phase = .mat → s.cursor < s.pixels →
    ∃ q t, s.qb[s.cursor]? = some q ∧ engineStep s = .next t
      ∧ (∀ k, k < 3 → t.pm.byte (s.dstPixel s.cursor + k) = sat8 q.toInt)
      ∧ t.pm.byte (s.dstPixel s.cursor + 3) = 255
      ∧ (∀ a, a < s.dstPixel s.cursor ∨ s.dstPixel s.cursor + 4 ≤ a → t.pm.byte a = s.pm.byte a)
      ∧ (t.saturated = true ↔ s.saturated = true ∨ q.toInt < 0 ∨ 255 < q.toInt)
      ∧ t = { s with pm := t.pm, saturated := t.saturated, cursor := s.cursor + 1 }

/-- Rule R186: the completion step (a step of its own, log 8) sets RANGE if a saturation was recorded, BUSY to
0, DONE to 1 and ERR to 0, and changes no register and no byte of pixel memory beside. -/
def Obligations.CompletionStepReports : Prop :=
  ∀ s : State, s.phase = .mat → s.pixels ≤ s.cursor →
    ∃ t, engineStep s = .next t ∧ t.range = (s.range || s.saturated) ∧ t.busy = false ∧ t.done = true
      ∧ t.err = .none ∧ t.werr = s.werr ∧ t.pm = s.pm ∧ t.irq = s.irqEn
      ∧ (∀ r, r ≠ .status → t.readReg r = s.readReg r)

/-! ### The whole machine -/

/-- The machine as reset leaves it meets the invariant, for every legal choice of the parameters. -/
def Obligations.InvariantHoldsAtReset : Prop :=
  State.reset.Inv ∧ ∀ c : Config, c.legal = true → (State.powerOn c).Inv

/-- Every step from a state that meets the invariant ends in one that meets it. -/
def Obligations.StepKeepsInvariant : Prop :=
  ∀ s t : State, s.Inv → step s = .next t → t.Inv

/-- Rule R232: from a state that meets the invariant every run, of any length and whatever turns its inputs
hold (log 2), goes on: the machine never stops with a fault or a refusal. -/
def Obligations.RunsNeverStop : Prop :=
  ∀ (k : Nat) (s : State), s.Inv → ∃ t, Host.Core.run core k s = .next t

/-- Rule R37, over the model's turns (log 2): BUSY is set by an accepted DITHER only, and cleared by the pass's
completion or a reset only; with BUSY = 0 an engine turn changes nothing. -/
def Obligations.BusyChangesOnlyByPass : Prop :=
  (∀ s : State, s.busy = false →
    (s.inputs = [] → step s = .next s)
    ∧ (∀ rest, s.inputs = .engine :: rest → step s = .next { s with inputs := rest }))
  ∧ ∀ s t : State, step s = .next t →
    (s.busy = false → t.busy = true →
      s.check = .accept ∧ ∃ rest, s.inputs = .host (.write .b4 Reg.ctrl.addr (encode .dither)) :: rest)
    ∧ (s.busy = true → t.busy = false →
      (∃ rest, s.inputs = .reset :: rest)
      ∨ (s.phase = .mat ∧ s.pixels ≤ s.cursor ∧ t.done = true ∧ (s.inputs = [] ∨ ∃ rest, s.inputs = .engine :: rest)))

/-- Rules R39 and R40, over the model's turns (log 2): RANGE is set exactly by the completion of a pass that
saturated a level, WERR exactly by a host write that is dropped because BUSY = 1: a 4-byte write to CTRL or to
a busy-locked register, or an aligned write inside pixel memory.
Each is cleared exactly by a STATUS write with its bit or by a reset. -/
def Obligations.StickyFlagsChange : Prop :=
  ∀ s t : State, step s = .next t →
    (s.range = false → (t.range = true ↔
      (s.inputs = [] ∨ ∃ rest, s.inputs = .engine :: rest) ∧ s.phase = .mat ∧ s.pixels ≤ s.cursor
        ∧ s.saturated = true))
    ∧ (s.werr = false → (t.werr = true ↔
      s.busy = true ∧ ∃ w addr v rest, s.inputs = .host (.write w addr v) :: rest
        ∧ ((w = .b4 ∧ ∃ r : Reg,
              r ∈ [Reg.ctrl, .bits, .width, .height, .srcLen, .srcBase, .dstBase, .opa, .qinLo, .qinHi]
                ∧ addr = r.addr)
            ∨ (0x01000000 ≤ addr.toNat ∧ addr.toNat % w.bytes = 0
                ∧ addr.toNat + w.bytes ≤ 0x01000000 + s.cfg.pmBytes))))
    ∧ (s.range = true → (t.range = false ↔ (∃ rest, s.inputs = .reset :: rest)
      ∨ ∃ v rest, s.inputs = .host (.write .b4 Reg.status.addr v) :: rest ∧ v.getLsbD 8 = true))
    ∧ (s.werr = true → (t.werr = false ↔ (∃ rest, s.inputs = .reset :: rest)
      ∨ ∃ v rest, s.inputs = .host (.write .b4 Reg.status.addr v) :: rest ∧ v.getLsbD 9 = true))

/-- Rule R283: no host access, of whatever kind, changes the parameters, pixel memory, the position, the
saturation record or a buffer entry of a pass in progress.
STATUS.RANGE, which the completion step ORs into (rule R186), is changed only by a STATUS write with bit 8 = 1
(rules R214, R241). -/
def Obligations.HostAccessLeavesPassAlone : Prop :=
  ∀ (s : State) (a : Access) (rest : List Input), s.busy = true → s.inputs = .host a :: rest →
    ∃ t, step s = .next t ∧ t.passView = s.passView
      ∧ ((∀ v, a = .write .b4 Reg.status.addr v → v.getLsbD 8 = false) → t.range = s.range)

/-- Rules R176 to R186, R190 and R197: from the start of a pass, with the host silent (log 2), the engine's
3N + 1 single steps (log 8) give exactly the whole pass of the three loops. -/
def Obligations.EngineStepsAreWholePass : Prop :=
  ∀ s : State, s.Inv → s.phase = .init → s.cursor = 0 → s.saturated = false → s.inputs = [] →
    ∃ levels, s.passLevels = some levels ∧ levels.length = s.pixels
      ∧ Host.Core.run core (passSteps s.pixels) s = .next (s.afterPass levels)

/-- Rules R83, R84, R241 and R283, with the interleaving as data (logs 2 and 8): however host accesses fall
between the engine's steps, a pass that is not reset ends with the same pixel memory, BUSY = 0, DONE = 1 and
ERR = 0 at its completion step. -/
def Obligations.InterleavedPassGivesSameOutput : Prop :=
  ∀ (s : State) (turns rest : List Input), s.Inv → s.phase = .init → s.cursor = 0 → s.saturated = false →
    s.inputs = turns ++ .engine :: rest → Input.reset ∉ turns →
    (turns.filter (· == .engine)).length = 3 * s.pixels →
    ∃ levels t, s.passLevels = some levels
      ∧ Host.Core.run core (turns.length + 1) s = .next t
      ∧ t.pm = (s.afterPass levels).pm ∧ t.busy = false ∧ t.done = true ∧ t.err = .none ∧ t.inputs = rest

/-- Rules R236 and R197: an issued DITHER that is accepted ends, BUSY = 0, DONE = 1 and ERR = 0, after exactly
3N + 1 engine steps (logs 2 and 8), and BUSY = 1 until then. -/
def Obligations.AcceptedDitherEnds : Prop :=
  ∀ s t : State, s.Inv → s.busy = false → s.done = false → s.inputs = [] → s.check = .accept →
    exec .dither s = .next t →
    (∃ u, Host.Core.run core (passSteps s.pixels) t = .next u ∧ u.busy = false ∧ u.done = true ∧ u.err = .none)
    ∧ ∀ k, k < passSteps s.pixels → ∃ u, Host.Core.run core k t = .next u ∧ u.busy = true

/-- Rules R81, R82 and R184: a whole pass changes no byte outside the output region, whatever the overlap
with the input, and writes the grey pixel of each level inside it. -/
def Obligations.PassWritesOutputRegionOnly : Prop :=
  ∀ (s : State) (levels : List Int), levels.length = s.pixels →
    (∀ a, s.inOutput a = false → (s.afterPass levels).pm.byte a = s.pm.byte a)
    ∧ (∀ i (q : Int), levels[i]? = some q →
      (s.afterPass levels).pm.pixel (s.dstPixel i) = Pixel.grey (sat8 (BitVec.ofInt 16 q).toInt))

/-- Rule R189: two passes with the same size, depth, number format and input pixels, each followed from its
start to the step that ends it with DONE = 1 (k and k' steps later, whatever turns the two hosts put in
between, logs 2 and 8), hold the same QB and saturation record before that step, and after it the same output
bytes and BUSY = 0, DONE = 1, ERR = 0, with RANGE the OR of that record and what RANGE was.
MAX_W, MAX_H, PM_BYTES, the bases, and every register, flag and byte beside the input may differ.
With a silent host RANGE was what it was at the start. -/
def Obligations.PassIsFunctionOfInput : Prop :=
  ∀ (s s' u u' t t' : State) (k k' : Nat), s.Inv → s'.Inv → s.phase = .init → s'.phase = .init →
    s.cursor = 0 → s'.cursor = 0 → s.saturated = false → s'.saturated = false →
    s.cfg.numFmt = s'.cfg.numFmt → (s.cfg.numFmt = .fix → s.cfg.fracBits = s'.cfg.fracBits) →
    s.width = s'.width → s.height = s'.height → s.bits = s'.bits →
    (∀ a, a < 4 * s.pixels → s.pm.byte (s.srcBase.toNat + a) = s'.pm.byte (s'.srcBase.toNat + a)) →
    (∀ j, j ≤ k → ∃ v, Host.Core.run core j s = .next v ∧ v.busy = true) →
    (∀ j, j ≤ k' → ∃ v, Host.Core.run core j s' = .next v ∧ v.busy = true) →
    Host.Core.run core k s = .next u → Host.Core.run core k' s' = .next u' →
    step u = .next t → step u' = .next t' →
    t.busy = false → t'.busy = false → t.done = true → t'.done = true →
    u.qb = u'.qb ∧ u.saturated = u'.saturated
      ∧ (∀ a, a < 4 * s.pixels → t.pm.byte (s.dstBase.toNat + a) = t'.pm.byte (s'.dstBase.toNat + a))
      ∧ t.err = .none ∧ t'.err = .none
      ∧ t.range = (u.range || u.saturated) ∧ t'.range = (u'.range || u'.saturated)
      ∧ (s.inputs = [] → u.range = s.range)

/-- Rules R163, R47 and R187 in both hardware modes, for every legal parameter choice and depth: every level
of a pass is that of an index in [−1, L + 1] and lies in [−255, 510], so QB holds it exactly.
After each number k of scanned pixels every Error Buffer entry is numeric and within ±400; the index of the
next pixel is in [−1, L + 1], and its error and terms are numeric and within ±400, in FP64 with every
intermediate value numeric too, so a pass meets no free value of log 10. -/
def Obligations.PassLevelsAndValuesInRange : Prop :=
  ∀ (c : Config) (w h bits : Nat) (image : List Pixel), c.legal = true → 1 ≤ bits → bits ≤ 8 →
    image.length = w * h →
    (∃ levels, ditherLevels (arithOf c) w h bits image = some levels ∧ levels.length = w * h
      ∧ ∀ q ∈ levels, (∃ idx : Int, -1 ≤ idx ∧ idx ≤ steps bits + 1 ∧ q = levelOf idx bits)
        ∧ -255 ≤ q ∧ q ≤ 510 ∧ (BitVec.ofInt 16 q).toInt = q)
    ∧ ∀ k, k ≤ w * h →
      ∃ eb, scanBuffer (arithOf c) w h bits k 0 (image.map (arithOf c).luma) = some eb ∧ eb.length = w * h
        ∧ (∀ v ∈ eb, isNumericWord c v = true ∧ |numericValue c v| ≤ 400)
        ∧ ∀ (old e : NumWord) (q : Int), k < w * h → eb[k]? = some old → q = (arithOf c).quant old bits →
          e = (arithOf c).err old q →
          -1 ≤ indexOf c old bits ∧ indexOf c old bits ≤ steps bits + 1
            ∧ isNumericWord c e = true ∧ |numericValue c e| ≤ 400
            ∧ (∀ wgt ∈ [7, 3, 5, 1], isNumericWord c ((arithOf c).term e wgt) = true
                ∧ |numericValue c ((arithOf c).term e wgt)| ≤ 400)
            ∧ (c.numFmt = .fp64 → F64.isNumeric (F64.div old (scaleF64 bits)) = true
                ∧ F64.isNumeric (F64.mul (F64.ofInt (indexF64 old bits)) (scaleF64 bits)) = true
                ∧ ∀ wgt ∈ [7, 3, 5, 1], F64.isNumeric (F64.mul e (F64.ofInt (wgt : Nat))) = true)

/-- Rules R163 and R192 in REAL: at bits = 8 every level of a pass differs from its pixel's luma by at most
1, and equals the luma when every luma is an integer. -/
def Obligations.RealDepthEightFollowsLuma : Prop :=
  ∀ (w h : Nat) (image : List Pixel), image.length = w * h →
    ∃ levels, ditherLevels realArith w h 8 image = some levels ∧ levels.length = w * h
      ∧ (∀ (i : Nat) (p : Pixel) (q : Int), image[i]? = some p → levels[i]? = some q → |(q : ℚ) - lumaReal p| ≤ 1)
      ∧ ((∀ p ∈ image, ∃ k : Int, lumaReal p = k) →
        ∀ (i : Nat) (p : Pixel) (q : Int), image[i]? = some p → levels[i]? = some q → (q : ℚ) = lumaReal p)

/-- Rule R195: a 1×1 image gets the level of its luma, with no diffusion, in every mode, and in both hardware
modes that level is one of LEVELS(bits) and is not changed by saturation. -/
def Obligations.SinglePixelIsQuantizedLuma : Prop :=
  (∀ (α : Type) (A : Arith α) (bits : Nat) (p : Pixel),
    ditherLevels A 1 1 bits [p] = some [A.quant (A.luma p) bits])
  ∧ ∀ (c : Config) (bits : Nat) (p : Pixel) (q : Int), c.legal = true → 1 ≤ bits → bits ≤ 8 →
    q = (arithOf c).quant ((arithOf c).luma p) bits →
    q ∈ levelSet bits ∧ ((sat8 q).toNat : Int) = q
end

