-- ==== Sys2Proof/Laws/Arith.lean ====
section
/-! SUPPORT. The roundings and the FIX arithmetic: what each is within, and the exact form of the integer
rounding (00_scope.md rule R11, 41_quant.md rules R150, R155, 42_dither.md rule R187). -/

namespace Sys2Proof.Machine

theorem steps_pos {bits : Nat} (h : 1 ≤ bits) : 0 < steps bits := by
  have : 2 ^ 1 ≤ 2 ^ bits := Nat.pow_le_pow_right (by decide) h
  rw [steps]
  omega

theorem steps_odd {bits : Nat} (h : 1 ≤ bits) : steps bits % 2 = 1 := by
  obtain ⟨b, rfl⟩ : ∃ b, bits = b + 1 := ⟨bits - 1, by omega⟩
  have : 0 < 2 ^ b := Nat.two_pow_pos b
  rw [steps, Nat.pow_succ]
  omega

theorem steps_le {bits : Nat} (h : bits ≤ 8) : steps bits ≤ 255 := by
  have : 2 ^ bits ≤ 2 ^ 8 := Nat.pow_le_pow_right (by decide) h
  rw [steps]
  omega

/-- The integer form of `rhu` is `rhu` of the quotient. -/
theorem rhuReal_div (p : Int) {q : Nat} (hq : 0 < q) : rhuReal ((p : ℚ) / q) = rhuDiv p q := by
  have h := Rat.floor_intCast_div_natCast (2 * p + q) (2 * q)
  rw [rhuDiv, ← h, rhuReal]
  congr 1
  have : (q : ℚ) ≠ 0 := by positivity
  push_cast
  field_simp

/-- A level is within half a step of its index's value (rule R150). -/
theorem levelOf_near (idx : Int) {bits : Nat} (h : 1 ≤ bits) :
    2 * steps bits * levelOf idx bits ≤ 510 * idx + steps bits
      ∧ 510 * idx + steps bits < 2 * steps bits * levelOf idx bits + 2 * steps bits := by
  have hd : (0 : Int) < (2 * steps bits : Nat) := by
    have := steps_pos h
    omega
  have h1 := Int.mul_ediv_add_emod (510 * idx + steps bits) (2 * steps bits : Nat)
  have h2 := Int.emod_nonneg (510 * idx + steps bits) (Int.ne_of_gt hd)
  have h3 := Int.emod_lt_of_pos (510 * idx + steps bits) hd
  unfold levelOf
  push_cast at *
  constructor <;> linarith

/-- An index is within half a step of its value (rule R155). -/
theorem indexFix_near (f : Nat) (v : Int) (bits : Nat) :
    510 * 2 ^ f * indexFix f v bits ≤ 2 * v * steps bits + 255 * 2 ^ f
      ∧ 2 * v * steps bits + 255 * 2 ^ f < 510 * 2 ^ f * indexFix f v bits + 510 * 2 ^ f := by
  have hd : (0 : Int) < 510 * 2 ^ f := by positivity
  have h1 := Int.mul_ediv_add_emod (2 * v * steps bits + 255 * 2 ^ f) (510 * 2 ^ f)
  have h2 := Int.emod_nonneg (2 * v * steps bits + 255 * 2 ^ f) (Int.ne_of_gt hd)
  have h3 := Int.emod_lt_of_pos (2 * v * steps bits + 255 * 2 ^ f) hd
  unfold indexFix
  constructor <;> linarith

/-- A FIX term is within half a unit (rule R187). -/
theorem termFix_near (e : Int) (w : Nat) : 16 * termFix e w ≤ e * w + 8 ∧ e * w + 8 < 16 * termFix e w + 16 := by
  rw [termFix]
  omega

end Sys2Proof.Machine
end

