-- ==== Sys2Proof/Laws/State.lean ====
section
/-! SUPPORT. One lemma for each field and each named update of State, true by rfl, so that no proof unfolds
an update; and the same for the observers an update does not touch. -/

namespace Sys2Proof.Machine.State

variable (s : State)


@[simp] theorem withInputs_cfg (r : List Input) : (s.withInputs r).cfg = s.cfg := rfl
@[simp] theorem withInputs_irqEn (r : List Input) : (s.withInputs r).irqEn = s.irqEn := rfl
@[simp] theorem withInputs_bits (r : List Input) : (s.withInputs r).bits = s.bits := rfl
@[simp] theorem withInputs_width (r : List Input) : (s.withInputs r).width = s.width := rfl
@[simp] theorem withInputs_height (r : List Input) : (s.withInputs r).height = s.height := rfl
@[simp] theorem withInputs_srcLen (r : List Input) : (s.withInputs r).srcLen = s.srcLen := rfl
@[simp] theorem withInputs_srcBase (r : List Input) : (s.withInputs r).srcBase = s.srcBase := rfl
@[simp] theorem withInputs_dstBase (r : List Input) : (s.withInputs r).dstBase = s.dstBase := rfl
@[simp] theorem withInputs_opa (r : List Input) : (s.withInputs r).opa = s.opa := rfl
@[simp] theorem withInputs_lresLo (r : List Input) : (s.withInputs r).lresLo = s.lresLo := rfl
@[simp] theorem withInputs_lresHi (r : List Input) : (s.withInputs r).lresHi = s.lresHi := rfl
@[simp] theorem withInputs_qinLo (r : List Input) : (s.withInputs r).qinLo = s.qinLo := rfl
@[simp] theorem withInputs_qinHi (r : List Input) : (s.withInputs r).qinHi = s.qinHi := rfl
@[simp] theorem withInputs_qres (r : List Input) : (s.withInputs r).qres = s.qres := rfl
@[simp] theorem withInputs_done (r : List Input) : (s.withInputs r).done = s.done := rfl
@[simp] theorem withInputs_err (r : List Input) : (s.withInputs r).err = s.err := rfl
@[simp] theorem withInputs_range (r : List Input) : (s.withInputs r).range = s.range := rfl
@[simp] theorem withInputs_werr (r : List Input) : (s.withInputs r).werr = s.werr := rfl
@[simp] theorem withInputs_pm (r : List Input) : (s.withInputs r).pm = s.pm := rfl
@[simp] theorem withInputs_phase (r : List Input) : (s.withInputs r).phase = s.phase := rfl
@[simp] theorem withInputs_cursor (r : List Input) : (s.withInputs r).cursor = s.cursor := rfl
@[simp] theorem withInputs_scanX (r : List Input) : (s.withInputs r).scanX = s.scanX := rfl
@[simp] theorem withInputs_scanY (r : List Input) : (s.withInputs r).scanY = s.scanY := rfl
@[simp] theorem withInputs_saturated (r : List Input) : (s.withInputs r).saturated = s.saturated := rfl
@[simp] theorem withInputs_eb (r : List Input) : (s.withInputs r).eb = s.eb := rfl
@[simp] theorem withInputs_qb (r : List Input) : (s.withInputs r).qb = s.qb := rfl
@[simp] theorem withInputs_inputs (r : List Input) : (s.withInputs r).inputs = r := rfl
@[simp] theorem withInputs_response (r : List Input) : (s.withInputs r).response = s.response := rfl
@[simp] theorem withInputs_draws (r : List Input) : (s.withInputs r).draws = s.draws := rfl
@[simp] theorem withInputs_W (r : List Input) : (s.withInputs r).W = s.W := rfl
@[simp] theorem withInputs_H (r : List Input) : (s.withInputs r).H = s.H := rfl
@[simp] theorem withInputs_pixels (r : List Input) : (s.withInputs r).pixels = s.pixels := rfl
@[simp] theorem withInputs_depth (r : List Input) : (s.withInputs r).depth = s.depth := rfl
@[simp] theorem withInputs_depthOk (r : List Input) : (s.withInputs r).depthOk = s.depthOk := rfl
@[simp] theorem withInputs_busy (r : List Input) : (s.withInputs r).busy = s.busy := rfl
@[simp] theorem withInputs_check (r : List Input) : (s.withInputs r).check = s.check := rfl

@[simp] theorem respond_cfg (r : Response) : (s.respond r).cfg = s.cfg := rfl
@[simp] theorem respond_irqEn (r : Response) : (s.respond r).irqEn = s.irqEn := rfl
@[simp] theorem respond_bits (r : Response) : (s.respond r).bits = s.bits := rfl
@[simp] theorem respond_width (r : Response) : (s.respond r).width = s.width := rfl
@[simp] theorem respond_height (r : Response) : (s.respond r).height = s.height := rfl
@[simp] theorem respond_srcLen (r : Response) : (s.respond r).srcLen = s.srcLen := rfl
@[simp] theorem respond_srcBase (r : Response) : (s.respond r).srcBase = s.srcBase := rfl
@[simp] theorem respond_dstBase (r : Response) : (s.respond r).dstBase = s.dstBase := rfl
@[simp] theorem respond_opa (r : Response) : (s.respond r).opa = s.opa := rfl
@[simp] theorem respond_lresLo (r : Response) : (s.respond r).lresLo = s.lresLo := rfl
@[simp] theorem respond_lresHi (r : Response) : (s.respond r).lresHi = s.lresHi := rfl
@[simp] theorem respond_qinLo (r : Response) : (s.respond r).qinLo = s.qinLo := rfl
@[simp] theorem respond_qinHi (r : Response) : (s.respond r).qinHi = s.qinHi := rfl
@[simp] theorem respond_qres (r : Response) : (s.respond r).qres = s.qres := rfl
@[simp] theorem respond_done (r : Response) : (s.respond r).done = s.done := rfl
@[simp] theorem respond_err (r : Response) : (s.respond r).err = s.err := rfl
@[simp] theorem respond_range (r : Response) : (s.respond r).range = s.range := rfl
@[simp] theorem respond_werr (r : Response) : (s.respond r).werr = s.werr := rfl
@[simp] theorem respond_pm (r : Response) : (s.respond r).pm = s.pm := rfl
@[simp] theorem respond_phase (r : Response) : (s.respond r).phase = s.phase := rfl
@[simp] theorem respond_cursor (r : Response) : (s.respond r).cursor = s.cursor := rfl
@[simp] theorem respond_scanX (r : Response) : (s.respond r).scanX = s.scanX := rfl
@[simp] theorem respond_scanY (r : Response) : (s.respond r).scanY = s.scanY := rfl
@[simp] theorem respond_saturated (r : Response) : (s.respond r).saturated = s.saturated := rfl
@[simp] theorem respond_eb (r : Response) : (s.respond r).eb = s.eb := rfl
@[simp] theorem respond_qb (r : Response) : (s.respond r).qb = s.qb := rfl
@[simp] theorem respond_inputs (r : Response) : (s.respond r).inputs = s.inputs := rfl
@[simp] theorem respond_response (r : Response) : (s.respond r).response = r := rfl
@[simp] theorem respond_draws (r : Response) : (s.respond r).draws = s.draws := rfl
@[simp] theorem respond_W (r : Response) : (s.respond r).W = s.W := rfl
@[simp] theorem respond_H (r : Response) : (s.respond r).H = s.H := rfl
@[simp] theorem respond_pixels (r : Response) : (s.respond r).pixels = s.pixels := rfl
@[simp] theorem respond_depth (r : Response) : (s.respond r).depth = s.depth := rfl
@[simp] theorem respond_depthOk (r : Response) : (s.respond r).depthOk = s.depthOk := rfl
@[simp] theorem respond_busy (r : Response) : (s.respond r).busy = s.busy := rfl
@[simp] theorem respond_check (r : Response) : (s.respond r).check = s.check := rfl

@[simp] theorem drawn_cfg : (s.drawn).cfg = s.cfg := rfl
@[simp] theorem drawn_irqEn : (s.drawn).irqEn = s.irqEn := rfl
@[simp] theorem drawn_bits : (s.drawn).bits = s.bits := rfl
@[simp] theorem drawn_width : (s.drawn).width = s.width := rfl
@[simp] theorem drawn_height : (s.drawn).height = s.height := rfl
@[simp] theorem drawn_srcLen : (s.drawn).srcLen = s.srcLen := rfl
@[simp] theorem drawn_srcBase : (s.drawn).srcBase = s.srcBase := rfl
@[simp] theorem drawn_dstBase : (s.drawn).dstBase = s.dstBase := rfl
@[simp] theorem drawn_opa : (s.drawn).opa = s.opa := rfl
@[simp] theorem drawn_lresLo : (s.drawn).lresLo = s.lresLo := rfl
@[simp] theorem drawn_lresHi : (s.drawn).lresHi = s.lresHi := rfl
@[simp] theorem drawn_qinLo : (s.drawn).qinLo = s.qinLo := rfl
@[simp] theorem drawn_qinHi : (s.drawn).qinHi = s.qinHi := rfl
@[simp] theorem drawn_qres : (s.drawn).qres = s.qres := rfl
@[simp] theorem drawn_done : (s.drawn).done = s.done := rfl
@[simp] theorem drawn_err : (s.drawn).err = s.err := rfl
@[simp] theorem drawn_range : (s.drawn).range = s.range := rfl
@[simp] theorem drawn_werr : (s.drawn).werr = s.werr := rfl
@[simp] theorem drawn_pm : (s.drawn).pm = s.pm := rfl
@[simp] theorem drawn_phase : (s.drawn).phase = s.phase := rfl
@[simp] theorem drawn_cursor : (s.drawn).cursor = s.cursor := rfl
@[simp] theorem drawn_scanX : (s.drawn).scanX = s.scanX := rfl
@[simp] theorem drawn_scanY : (s.drawn).scanY = s.scanY := rfl
@[simp] theorem drawn_saturated : (s.drawn).saturated = s.saturated := rfl
@[simp] theorem drawn_eb : (s.drawn).eb = s.eb := rfl
@[simp] theorem drawn_qb : (s.drawn).qb = s.qb := rfl
@[simp] theorem drawn_inputs : (s.drawn).inputs = s.inputs := rfl
@[simp] theorem drawn_response : (s.drawn).response = s.response := rfl
@[simp] theorem drawn_draws : (s.drawn).draws = s.draws + 1 := rfl
@[simp] theorem drawn_W : (s.drawn).W = s.W := rfl
@[simp] theorem drawn_H : (s.drawn).H = s.H := rfl
@[simp] theorem drawn_pixels : (s.drawn).pixels = s.pixels := rfl
@[simp] theorem drawn_depth : (s.drawn).depth = s.depth := rfl
@[simp] theorem drawn_depthOk : (s.drawn).depthOk = s.depthOk := rfl
@[simp] theorem drawn_busy : (s.drawn).busy = s.busy := rfl
@[simp] theorem drawn_check : (s.drawn).check = s.check := rfl

@[simp] theorem setQres_cfg (n : Int) : (s.setQres n).cfg = s.cfg := rfl
@[simp] theorem setQres_irqEn (n : Int) : (s.setQres n).irqEn = s.irqEn := rfl
@[simp] theorem setQres_bits (n : Int) : (s.setQres n).bits = s.bits := rfl
@[simp] theorem setQres_width (n : Int) : (s.setQres n).width = s.width := rfl
@[simp] theorem setQres_height (n : Int) : (s.setQres n).height = s.height := rfl
@[simp] theorem setQres_srcLen (n : Int) : (s.setQres n).srcLen = s.srcLen := rfl
@[simp] theorem setQres_srcBase (n : Int) : (s.setQres n).srcBase = s.srcBase := rfl
@[simp] theorem setQres_dstBase (n : Int) : (s.setQres n).dstBase = s.dstBase := rfl
@[simp] theorem setQres_opa (n : Int) : (s.setQres n).opa = s.opa := rfl
@[simp] theorem setQres_lresLo (n : Int) : (s.setQres n).lresLo = s.lresLo := rfl
@[simp] theorem setQres_lresHi (n : Int) : (s.setQres n).lresHi = s.lresHi := rfl
@[simp] theorem setQres_qinLo (n : Int) : (s.setQres n).qinLo = s.qinLo := rfl
@[simp] theorem setQres_qinHi (n : Int) : (s.setQres n).qinHi = s.qinHi := rfl
@[simp] theorem setQres_qres (n : Int) : (s.setQres n).qres = BitVec.ofInt 32 n := rfl
@[simp] theorem setQres_done (n : Int) : (s.setQres n).done = s.done := rfl
@[simp] theorem setQres_err (n : Int) : (s.setQres n).err = s.err := rfl
@[simp] theorem setQres_range (n : Int) : (s.setQres n).range = s.range := rfl
@[simp] theorem setQres_werr (n : Int) : (s.setQres n).werr = s.werr := rfl
@[simp] theorem setQres_pm (n : Int) : (s.setQres n).pm = s.pm := rfl
@[simp] theorem setQres_phase (n : Int) : (s.setQres n).phase = s.phase := rfl
@[simp] theorem setQres_cursor (n : Int) : (s.setQres n).cursor = s.cursor := rfl
@[simp] theorem setQres_scanX (n : Int) : (s.setQres n).scanX = s.scanX := rfl
@[simp] theorem setQres_scanY (n : Int) : (s.setQres n).scanY = s.scanY := rfl
@[simp] theorem setQres_saturated (n : Int) : (s.setQres n).saturated = s.saturated := rfl
@[simp] theorem setQres_eb (n : Int) : (s.setQres n).eb = s.eb := rfl
@[simp] theorem setQres_qb (n : Int) : (s.setQres n).qb = s.qb := rfl
@[simp] theorem setQres_inputs (n : Int) : (s.setQres n).inputs = s.inputs := rfl
@[simp] theorem setQres_response (n : Int) : (s.setQres n).response = s.response := rfl
@[simp] theorem setQres_draws (n : Int) : (s.setQres n).draws = s.draws := rfl
@[simp] theorem setQres_W (n : Int) : (s.setQres n).W = s.W := rfl
@[simp] theorem setQres_H (n : Int) : (s.setQres n).H = s.H := rfl
@[simp] theorem setQres_pixels (n : Int) : (s.setQres n).pixels = s.pixels := rfl
@[simp] theorem setQres_depth (n : Int) : (s.setQres n).depth = s.depth := rfl
@[simp] theorem setQres_depthOk (n : Int) : (s.setQres n).depthOk = s.depthOk := rfl
@[simp] theorem setQres_busy (n : Int) : (s.setQres n).busy = s.busy := rfl
@[simp] theorem setQres_check (n : Int) : (s.setQres n).check = s.check := rfl

@[simp] theorem appendEb_cfg (w : NumWord) : (s.appendEb w).cfg = s.cfg := rfl
@[simp] theorem appendEb_irqEn (w : NumWord) : (s.appendEb w).irqEn = s.irqEn := rfl
@[simp] theorem appendEb_bits (w : NumWord) : (s.appendEb w).bits = s.bits := rfl
@[simp] theorem appendEb_width (w : NumWord) : (s.appendEb w).width = s.width := rfl
@[simp] theorem appendEb_height (w : NumWord) : (s.appendEb w).height = s.height := rfl
@[simp] theorem appendEb_srcLen (w : NumWord) : (s.appendEb w).srcLen = s.srcLen := rfl
@[simp] theorem appendEb_srcBase (w : NumWord) : (s.appendEb w).srcBase = s.srcBase := rfl
@[simp] theorem appendEb_dstBase (w : NumWord) : (s.appendEb w).dstBase = s.dstBase := rfl
@[simp] theorem appendEb_opa (w : NumWord) : (s.appendEb w).opa = s.opa := rfl
@[simp] theorem appendEb_lresLo (w : NumWord) : (s.appendEb w).lresLo = s.lresLo := rfl
@[simp] theorem appendEb_lresHi (w : NumWord) : (s.appendEb w).lresHi = s.lresHi := rfl
@[simp] theorem appendEb_qinLo (w : NumWord) : (s.appendEb w).qinLo = s.qinLo := rfl
@[simp] theorem appendEb_qinHi (w : NumWord) : (s.appendEb w).qinHi = s.qinHi := rfl
@[simp] theorem appendEb_qres (w : NumWord) : (s.appendEb w).qres = s.qres := rfl
@[simp] theorem appendEb_done (w : NumWord) : (s.appendEb w).done = s.done := rfl
@[simp] theorem appendEb_err (w : NumWord) : (s.appendEb w).err = s.err := rfl
@[simp] theorem appendEb_range (w : NumWord) : (s.appendEb w).range = s.range := rfl
@[simp] theorem appendEb_werr (w : NumWord) : (s.appendEb w).werr = s.werr := rfl
@[simp] theorem appendEb_pm (w : NumWord) : (s.appendEb w).pm = s.pm := rfl
@[simp] theorem appendEb_phase (w : NumWord) : (s.appendEb w).phase = s.phase := rfl
@[simp] theorem appendEb_cursor (w : NumWord) : (s.appendEb w).cursor = s.cursor := rfl
@[simp] theorem appendEb_scanX (w : NumWord) : (s.appendEb w).scanX = s.scanX := rfl
@[simp] theorem appendEb_scanY (w : NumWord) : (s.appendEb w).scanY = s.scanY := rfl
@[simp] theorem appendEb_saturated (w : NumWord) : (s.appendEb w).saturated = s.saturated := rfl
@[simp] theorem appendEb_eb (w : NumWord) : (s.appendEb w).eb = s.eb ++ [w] := rfl
@[simp] theorem appendEb_qb (w : NumWord) : (s.appendEb w).qb = s.qb := rfl
@[simp] theorem appendEb_inputs (w : NumWord) : (s.appendEb w).inputs = s.inputs := rfl
@[simp] theorem appendEb_response (w : NumWord) : (s.appendEb w).response = s.response := rfl
@[simp] theorem appendEb_draws (w : NumWord) : (s.appendEb w).draws = s.draws := rfl
@[simp] theorem appendEb_W (w : NumWord) : (s.appendEb w).W = s.W := rfl
@[simp] theorem appendEb_H (w : NumWord) : (s.appendEb w).H = s.H := rfl
@[simp] theorem appendEb_pixels (w : NumWord) : (s.appendEb w).pixels = s.pixels := rfl
@[simp] theorem appendEb_depth (w : NumWord) : (s.appendEb w).depth = s.depth := rfl
@[simp] theorem appendEb_depthOk (w : NumWord) : (s.appendEb w).depthOk = s.depthOk := rfl
@[simp] theorem appendEb_busy (w : NumWord) : (s.appendEb w).busy = s.busy := rfl
@[simp] theorem appendEb_check (w : NumWord) : (s.appendEb w).check = s.check := rfl

@[simp] theorem nextIndex_cfg : (s.nextIndex).cfg = s.cfg := rfl
@[simp] theorem nextIndex_irqEn : (s.nextIndex).irqEn = s.irqEn := rfl
@[simp] theorem nextIndex_bits : (s.nextIndex).bits = s.bits := rfl
@[simp] theorem nextIndex_width : (s.nextIndex).width = s.width := rfl
@[simp] theorem nextIndex_height : (s.nextIndex).height = s.height := rfl
@[simp] theorem nextIndex_srcLen : (s.nextIndex).srcLen = s.srcLen := rfl
@[simp] theorem nextIndex_srcBase : (s.nextIndex).srcBase = s.srcBase := rfl
@[simp] theorem nextIndex_dstBase : (s.nextIndex).dstBase = s.dstBase := rfl
@[simp] theorem nextIndex_opa : (s.nextIndex).opa = s.opa := rfl
@[simp] theorem nextIndex_lresLo : (s.nextIndex).lresLo = s.lresLo := rfl
@[simp] theorem nextIndex_lresHi : (s.nextIndex).lresHi = s.lresHi := rfl
@[simp] theorem nextIndex_qinLo : (s.nextIndex).qinLo = s.qinLo := rfl
@[simp] theorem nextIndex_qinHi : (s.nextIndex).qinHi = s.qinHi := rfl
@[simp] theorem nextIndex_qres : (s.nextIndex).qres = s.qres := rfl
@[simp] theorem nextIndex_done : (s.nextIndex).done = s.done := rfl
@[simp] theorem nextIndex_err : (s.nextIndex).err = s.err := rfl
@[simp] theorem nextIndex_range : (s.nextIndex).range = s.range := rfl
@[simp] theorem nextIndex_werr : (s.nextIndex).werr = s.werr := rfl
@[simp] theorem nextIndex_pm : (s.nextIndex).pm = s.pm := rfl
@[simp] theorem nextIndex_phase : (s.nextIndex).phase = s.phase := rfl
@[simp] theorem nextIndex_cursor : (s.nextIndex).cursor = s.cursor + 1 := rfl
@[simp] theorem nextIndex_scanX : (s.nextIndex).scanX = s.scanX := rfl
@[simp] theorem nextIndex_scanY : (s.nextIndex).scanY = s.scanY := rfl
@[simp] theorem nextIndex_saturated : (s.nextIndex).saturated = s.saturated := rfl
@[simp] theorem nextIndex_eb : (s.nextIndex).eb = s.eb := rfl
@[simp] theorem nextIndex_qb : (s.nextIndex).qb = s.qb := rfl
@[simp] theorem nextIndex_inputs : (s.nextIndex).inputs = s.inputs := rfl
@[simp] theorem nextIndex_response : (s.nextIndex).response = s.response := rfl
@[simp] theorem nextIndex_draws : (s.nextIndex).draws = s.draws := rfl
@[simp] theorem nextIndex_W : (s.nextIndex).W = s.W := rfl
@[simp] theorem nextIndex_H : (s.nextIndex).H = s.H := rfl
@[simp] theorem nextIndex_pixels : (s.nextIndex).pixels = s.pixels := rfl
@[simp] theorem nextIndex_depth : (s.nextIndex).depth = s.depth := rfl
@[simp] theorem nextIndex_depthOk : (s.nextIndex).depthOk = s.depthOk := rfl
@[simp] theorem nextIndex_busy : (s.nextIndex).busy = s.busy := rfl
@[simp] theorem nextIndex_check : (s.nextIndex).check = s.check := rfl

@[simp] theorem startScan_cfg : (s.startScan).cfg = s.cfg := rfl
@[simp] theorem startScan_irqEn : (s.startScan).irqEn = s.irqEn := rfl
@[simp] theorem startScan_bits : (s.startScan).bits = s.bits := rfl
@[simp] theorem startScan_width : (s.startScan).width = s.width := rfl
@[simp] theorem startScan_height : (s.startScan).height = s.height := rfl
@[simp] theorem startScan_srcLen : (s.startScan).srcLen = s.srcLen := rfl
@[simp] theorem startScan_srcBase : (s.startScan).srcBase = s.srcBase := rfl
@[simp] theorem startScan_dstBase : (s.startScan).dstBase = s.dstBase := rfl
@[simp] theorem startScan_opa : (s.startScan).opa = s.opa := rfl
@[simp] theorem startScan_lresLo : (s.startScan).lresLo = s.lresLo := rfl
@[simp] theorem startScan_lresHi : (s.startScan).lresHi = s.lresHi := rfl
@[simp] theorem startScan_qinLo : (s.startScan).qinLo = s.qinLo := rfl
@[simp] theorem startScan_qinHi : (s.startScan).qinHi = s.qinHi := rfl
@[simp] theorem startScan_qres : (s.startScan).qres = s.qres := rfl
@[simp] theorem startScan_done : (s.startScan).done = s.done := rfl
@[simp] theorem startScan_err : (s.startScan).err = s.err := rfl
@[simp] theorem startScan_range : (s.startScan).range = s.range := rfl
@[simp] theorem startScan_werr : (s.startScan).werr = s.werr := rfl
@[simp] theorem startScan_pm : (s.startScan).pm = s.pm := rfl
@[simp] theorem startScan_phase : (s.startScan).phase = .scan := rfl
@[simp] theorem startScan_cursor : (s.startScan).cursor = s.cursor := rfl
@[simp] theorem startScan_scanX : (s.startScan).scanX = 0 := rfl
@[simp] theorem startScan_scanY : (s.startScan).scanY = 0 := rfl
@[simp] theorem startScan_saturated : (s.startScan).saturated = s.saturated := rfl
@[simp] theorem startScan_eb : (s.startScan).eb = s.eb := rfl
@[simp] theorem startScan_qb : (s.startScan).qb = s.qb := rfl
@[simp] theorem startScan_inputs : (s.startScan).inputs = s.inputs := rfl
@[simp] theorem startScan_response : (s.startScan).response = s.response := rfl
@[simp] theorem startScan_draws : (s.startScan).draws = s.draws := rfl
@[simp] theorem startScan_W : (s.startScan).W = s.W := rfl
@[simp] theorem startScan_H : (s.startScan).H = s.H := rfl
@[simp] theorem startScan_pixels : (s.startScan).pixels = s.pixels := rfl
@[simp] theorem startScan_depth : (s.startScan).depth = s.depth := rfl
@[simp] theorem startScan_depthOk : (s.startScan).depthOk = s.depthOk := rfl
@[simp] theorem startScan_check : (s.startScan).check = s.check := rfl

@[simp] theorem finalize_cfg (n : Int) (eb : List NumWord) : (s.finalize n eb).cfg = s.cfg := rfl
@[simp] theorem finalize_irqEn (n : Int) (eb : List NumWord) : (s.finalize n eb).irqEn = s.irqEn := rfl
@[simp] theorem finalize_bits (n : Int) (eb : List NumWord) : (s.finalize n eb).bits = s.bits := rfl
@[simp] theorem finalize_width (n : Int) (eb : List NumWord) : (s.finalize n eb).width = s.width := rfl
@[simp] theorem finalize_height (n : Int) (eb : List NumWord) : (s.finalize n eb).height = s.height := rfl
@[simp] theorem finalize_srcLen (n : Int) (eb : List NumWord) : (s.finalize n eb).srcLen = s.srcLen := rfl
@[simp] theorem finalize_srcBase (n : Int) (eb : List NumWord) : (s.finalize n eb).srcBase = s.srcBase := rfl
@[simp] theorem finalize_dstBase (n : Int) (eb : List NumWord) : (s.finalize n eb).dstBase = s.dstBase := rfl
@[simp] theorem finalize_opa (n : Int) (eb : List NumWord) : (s.finalize n eb).opa = s.opa := rfl
@[simp] theorem finalize_lresLo (n : Int) (eb : List NumWord) : (s.finalize n eb).lresLo = s.lresLo := rfl
@[simp] theorem finalize_lresHi (n : Int) (eb : List NumWord) : (s.finalize n eb).lresHi = s.lresHi := rfl
@[simp] theorem finalize_qinLo (n : Int) (eb : List NumWord) : (s.finalize n eb).qinLo = s.qinLo := rfl
@[simp] theorem finalize_qinHi (n : Int) (eb : List NumWord) : (s.finalize n eb).qinHi = s.qinHi := rfl
@[simp] theorem finalize_qres (n : Int) (eb : List NumWord) : (s.finalize n eb).qres = s.qres := rfl
@[simp] theorem finalize_done (n : Int) (eb : List NumWord) : (s.finalize n eb).done = s.done := rfl
@[simp] theorem finalize_err (n : Int) (eb : List NumWord) : (s.finalize n eb).err = s.err := rfl
@[simp] theorem finalize_range (n : Int) (eb : List NumWord) : (s.finalize n eb).range = s.range := rfl
@[simp] theorem finalize_werr (n : Int) (eb : List NumWord) : (s.finalize n eb).werr = s.werr := rfl
@[simp] theorem finalize_pm (n : Int) (eb : List NumWord) : (s.finalize n eb).pm = s.pm := rfl
@[simp] theorem finalize_phase (n : Int) (eb : List NumWord) : (s.finalize n eb).phase = s.phase := rfl
@[simp] theorem finalize_cursor (n : Int) (eb : List NumWord) : (s.finalize n eb).cursor = s.cursor := rfl
@[simp] theorem finalize_scanX (n : Int) (eb : List NumWord) : (s.finalize n eb).scanX = s.scanX := rfl
@[simp] theorem finalize_scanY (n : Int) (eb : List NumWord) : (s.finalize n eb).scanY = s.scanY := rfl
@[simp] theorem finalize_saturated (n : Int) (eb : List NumWord) : (s.finalize n eb).saturated = s.saturated := rfl
@[simp] theorem finalize_eb (n : Int) (eb : List NumWord) : (s.finalize n eb).eb = eb := rfl
@[simp] theorem finalize_qb (n : Int) (eb : List NumWord) : (s.finalize n eb).qb = s.qb ++ [BitVec.ofInt 16 n] := rfl
@[simp] theorem finalize_inputs (n : Int) (eb : List NumWord) : (s.finalize n eb).inputs = s.inputs := rfl
@[simp] theorem finalize_response (n : Int) (eb : List NumWord) : (s.finalize n eb).response = s.response := rfl
@[simp] theorem finalize_draws (n : Int) (eb : List NumWord) : (s.finalize n eb).draws = s.draws := rfl
@[simp] theorem finalize_W (n : Int) (eb : List NumWord) : (s.finalize n eb).W = s.W := rfl
@[simp] theorem finalize_H (n : Int) (eb : List NumWord) : (s.finalize n eb).H = s.H := rfl
@[simp] theorem finalize_pixels (n : Int) (eb : List NumWord) : (s.finalize n eb).pixels = s.pixels := rfl
@[simp] theorem finalize_depth (n : Int) (eb : List NumWord) : (s.finalize n eb).depth = s.depth := rfl
@[simp] theorem finalize_depthOk (n : Int) (eb : List NumWord) : (s.finalize n eb).depthOk = s.depthOk := rfl
@[simp] theorem finalize_busy (n : Int) (eb : List NumWord) : (s.finalize n eb).busy = s.busy := rfl
@[simp] theorem finalize_check (n : Int) (eb : List NumWord) : (s.finalize n eb).check = s.check := rfl

@[simp] theorem moveScanner_cfg (x y : Nat) : (s.moveScanner x y).cfg = s.cfg := rfl
@[simp] theorem moveScanner_irqEn (x y : Nat) : (s.moveScanner x y).irqEn = s.irqEn := rfl
@[simp] theorem moveScanner_bits (x y : Nat) : (s.moveScanner x y).bits = s.bits := rfl
@[simp] theorem moveScanner_width (x y : Nat) : (s.moveScanner x y).width = s.width := rfl
@[simp] theorem moveScanner_height (x y : Nat) : (s.moveScanner x y).height = s.height := rfl
@[simp] theorem moveScanner_srcLen (x y : Nat) : (s.moveScanner x y).srcLen = s.srcLen := rfl
@[simp] theorem moveScanner_srcBase (x y : Nat) : (s.moveScanner x y).srcBase = s.srcBase := rfl
@[simp] theorem moveScanner_dstBase (x y : Nat) : (s.moveScanner x y).dstBase = s.dstBase := rfl
@[simp] theorem moveScanner_opa (x y : Nat) : (s.moveScanner x y).opa = s.opa := rfl
@[simp] theorem moveScanner_lresLo (x y : Nat) : (s.moveScanner x y).lresLo = s.lresLo := rfl
@[simp] theorem moveScanner_lresHi (x y : Nat) : (s.moveScanner x y).lresHi = s.lresHi := rfl
@[simp] theorem moveScanner_qinLo (x y : Nat) : (s.moveScanner x y).qinLo = s.qinLo := rfl
@[simp] theorem moveScanner_qinHi (x y : Nat) : (s.moveScanner x y).qinHi = s.qinHi := rfl
@[simp] theorem moveScanner_qres (x y : Nat) : (s.moveScanner x y).qres = s.qres := rfl
@[simp] theorem moveScanner_done (x y : Nat) : (s.moveScanner x y).done = s.done := rfl
@[simp] theorem moveScanner_err (x y : Nat) : (s.moveScanner x y).err = s.err := rfl
@[simp] theorem moveScanner_range (x y : Nat) : (s.moveScanner x y).range = s.range := rfl
@[simp] theorem moveScanner_werr (x y : Nat) : (s.moveScanner x y).werr = s.werr := rfl
@[simp] theorem moveScanner_pm (x y : Nat) : (s.moveScanner x y).pm = s.pm := rfl
@[simp] theorem moveScanner_phase (x y : Nat) : (s.moveScanner x y).phase = s.phase := rfl
@[simp] theorem moveScanner_cursor (x y : Nat) : (s.moveScanner x y).cursor = s.cursor := rfl
@[simp] theorem moveScanner_scanX (x y : Nat) : (s.moveScanner x y).scanX = BitVec.ofNat 16 x := rfl
@[simp] theorem moveScanner_scanY (x y : Nat) : (s.moveScanner x y).scanY = BitVec.ofNat 16 y := rfl
@[simp] theorem moveScanner_saturated (x y : Nat) : (s.moveScanner x y).saturated = s.saturated := rfl
@[simp] theorem moveScanner_eb (x y : Nat) : (s.moveScanner x y).eb = s.eb := rfl
@[simp] theorem moveScanner_qb (x y : Nat) : (s.moveScanner x y).qb = s.qb := rfl
@[simp] theorem moveScanner_inputs (x y : Nat) : (s.moveScanner x y).inputs = s.inputs := rfl
@[simp] theorem moveScanner_response (x y : Nat) : (s.moveScanner x y).response = s.response := rfl
@[simp] theorem moveScanner_draws (x y : Nat) : (s.moveScanner x y).draws = s.draws := rfl
@[simp] theorem moveScanner_W (x y : Nat) : (s.moveScanner x y).W = s.W := rfl
@[simp] theorem moveScanner_H (x y : Nat) : (s.moveScanner x y).H = s.H := rfl
@[simp] theorem moveScanner_pixels (x y : Nat) : (s.moveScanner x y).pixels = s.pixels := rfl
@[simp] theorem moveScanner_depth (x y : Nat) : (s.moveScanner x y).depth = s.depth := rfl
@[simp] theorem moveScanner_depthOk (x y : Nat) : (s.moveScanner x y).depthOk = s.depthOk := rfl
@[simp] theorem moveScanner_busy (x y : Nat) : (s.moveScanner x y).busy = s.busy := rfl
@[simp] theorem moveScanner_check (x y : Nat) : (s.moveScanner x y).check = s.check := rfl

@[simp] theorem startMat_cfg : (s.startMat).cfg = s.cfg := rfl
@[simp] theorem startMat_irqEn : (s.startMat).irqEn = s.irqEn := rfl
@[simp] theorem startMat_bits : (s.startMat).bits = s.bits := rfl
@[simp] theorem startMat_width : (s.startMat).width = s.width := rfl
@[simp] theorem startMat_height : (s.startMat).height = s.height := rfl
@[simp] theorem startMat_srcLen : (s.startMat).srcLen = s.srcLen := rfl
@[simp] theorem startMat_srcBase : (s.startMat).srcBase = s.srcBase := rfl
@[simp] theorem startMat_dstBase : (s.startMat).dstBase = s.dstBase := rfl
@[simp] theorem startMat_opa : (s.startMat).opa = s.opa := rfl
@[simp] theorem startMat_lresLo : (s.startMat).lresLo = s.lresLo := rfl
@[simp] theorem startMat_lresHi : (s.startMat).lresHi = s.lresHi := rfl
@[simp] theorem startMat_qinLo : (s.startMat).qinLo = s.qinLo := rfl
@[simp] theorem startMat_qinHi : (s.startMat).qinHi = s.qinHi := rfl
@[simp] theorem startMat_qres : (s.startMat).qres = s.qres := rfl
@[simp] theorem startMat_done : (s.startMat).done = s.done := rfl
@[simp] theorem startMat_err : (s.startMat).err = s.err := rfl
@[simp] theorem startMat_range : (s.startMat).range = s.range := rfl
@[simp] theorem startMat_werr : (s.startMat).werr = s.werr := rfl
@[simp] theorem startMat_pm : (s.startMat).pm = s.pm := rfl
@[simp] theorem startMat_phase : (s.startMat).phase = .mat := rfl
@[simp] theorem startMat_cursor : (s.startMat).cursor = 0 := rfl
@[simp] theorem startMat_scanX : (s.startMat).scanX = s.scanX := rfl
@[simp] theorem startMat_scanY : (s.startMat).scanY = s.scanY := rfl
@[simp] theorem startMat_saturated : (s.startMat).saturated = s.saturated := rfl
@[simp] theorem startMat_eb : (s.startMat).eb = s.eb := rfl
@[simp] theorem startMat_qb : (s.startMat).qb = s.qb := rfl
@[simp] theorem startMat_inputs : (s.startMat).inputs = s.inputs := rfl
@[simp] theorem startMat_response : (s.startMat).response = s.response := rfl
@[simp] theorem startMat_draws : (s.startMat).draws = s.draws := rfl
@[simp] theorem startMat_W : (s.startMat).W = s.W := rfl
@[simp] theorem startMat_H : (s.startMat).H = s.H := rfl
@[simp] theorem startMat_pixels : (s.startMat).pixels = s.pixels := rfl
@[simp] theorem startMat_depth : (s.startMat).depth = s.depth := rfl
@[simp] theorem startMat_depthOk : (s.startMat).depthOk = s.depthOk := rfl
@[simp] theorem startMat_check : (s.startMat).check = s.check := rfl

@[simp] theorem noteLevel_cfg (n : Int) : (s.noteLevel n).cfg = s.cfg := rfl
@[simp] theorem noteLevel_irqEn (n : Int) : (s.noteLevel n).irqEn = s.irqEn := rfl
@[simp] theorem noteLevel_bits (n : Int) : (s.noteLevel n).bits = s.bits := rfl
@[simp] theorem noteLevel_width (n : Int) : (s.noteLevel n).width = s.width := rfl
@[simp] theorem noteLevel_height (n : Int) : (s.noteLevel n).height = s.height := rfl
@[simp] theorem noteLevel_srcLen (n : Int) : (s.noteLevel n).srcLen = s.srcLen := rfl
@[simp] theorem noteLevel_srcBase (n : Int) : (s.noteLevel n).srcBase = s.srcBase := rfl
@[simp] theorem noteLevel_dstBase (n : Int) : (s.noteLevel n).dstBase = s.dstBase := rfl
@[simp] theorem noteLevel_opa (n : Int) : (s.noteLevel n).opa = s.opa := rfl
@[simp] theorem noteLevel_lresLo (n : Int) : (s.noteLevel n).lresLo = s.lresLo := rfl
@[simp] theorem noteLevel_lresHi (n : Int) : (s.noteLevel n).lresHi = s.lresHi := rfl
@[simp] theorem noteLevel_qinLo (n : Int) : (s.noteLevel n).qinLo = s.qinLo := rfl
@[simp] theorem noteLevel_qinHi (n : Int) : (s.noteLevel n).qinHi = s.qinHi := rfl
@[simp] theorem noteLevel_qres (n : Int) : (s.noteLevel n).qres = s.qres := rfl
@[simp] theorem noteLevel_done (n : Int) : (s.noteLevel n).done = s.done := rfl
@[simp] theorem noteLevel_err (n : Int) : (s.noteLevel n).err = s.err := rfl
@[simp] theorem noteLevel_range (n : Int) : (s.noteLevel n).range = s.range := rfl
@[simp] theorem noteLevel_werr (n : Int) : (s.noteLevel n).werr = s.werr := rfl
@[simp] theorem noteLevel_pm (n : Int) : (s.noteLevel n).pm = s.pm := rfl
@[simp] theorem noteLevel_phase (n : Int) : (s.noteLevel n).phase = s.phase := rfl
@[simp] theorem noteLevel_cursor (n : Int) : (s.noteLevel n).cursor = s.cursor := rfl
@[simp] theorem noteLevel_scanX (n : Int) : (s.noteLevel n).scanX = s.scanX := rfl
@[simp] theorem noteLevel_scanY (n : Int) : (s.noteLevel n).scanY = s.scanY := rfl
@[simp] theorem noteLevel_saturated (n : Int) : (s.noteLevel n).saturated = (s.saturated || outOfRange n) := rfl
@[simp] theorem noteLevel_eb (n : Int) : (s.noteLevel n).eb = s.eb := rfl
@[simp] theorem noteLevel_qb (n : Int) : (s.noteLevel n).qb = s.qb := rfl
@[simp] theorem noteLevel_inputs (n : Int) : (s.noteLevel n).inputs = s.inputs := rfl
@[simp] theorem noteLevel_response (n : Int) : (s.noteLevel n).response = s.response := rfl
@[simp] theorem noteLevel_draws (n : Int) : (s.noteLevel n).draws = s.draws := rfl
@[simp] theorem noteLevel_W (n : Int) : (s.noteLevel n).W = s.W := rfl
@[simp] theorem noteLevel_H (n : Int) : (s.noteLevel n).H = s.H := rfl
@[simp] theorem noteLevel_pixels (n : Int) : (s.noteLevel n).pixels = s.pixels := rfl
@[simp] theorem noteLevel_depth (n : Int) : (s.noteLevel n).depth = s.depth := rfl
@[simp] theorem noteLevel_depthOk (n : Int) : (s.noteLevel n).depthOk = s.depthOk := rfl
@[simp] theorem noteLevel_busy (n : Int) : (s.noteLevel n).busy = s.busy := rfl
@[simp] theorem noteLevel_check (n : Int) : (s.noteLevel n).check = s.check := rfl

@[simp] theorem withPm_cfg (m : Memory) : (s.withPm m).cfg = s.cfg := rfl
@[simp] theorem withPm_irqEn (m : Memory) : (s.withPm m).irqEn = s.irqEn := rfl
@[simp] theorem withPm_bits (m : Memory) : (s.withPm m).bits = s.bits := rfl
@[simp] theorem withPm_width (m : Memory) : (s.withPm m).width = s.width := rfl
@[simp] theorem withPm_height (m : Memory) : (s.withPm m).height = s.height := rfl
@[simp] theorem withPm_srcLen (m : Memory) : (s.withPm m).srcLen = s.srcLen := rfl
@[simp] theorem withPm_srcBase (m : Memory) : (s.withPm m).srcBase = s.srcBase := rfl
@[simp] theorem withPm_dstBase (m : Memory) : (s.withPm m).dstBase = s.dstBase := rfl
@[simp] theorem withPm_opa (m : Memory) : (s.withPm m).opa = s.opa := rfl
@[simp] theorem withPm_lresLo (m : Memory) : (s.withPm m).lresLo = s.lresLo := rfl
@[simp] theorem withPm_lresHi (m : Memory) : (s.withPm m).lresHi = s.lresHi := rfl
@[simp] theorem withPm_qinLo (m : Memory) : (s.withPm m).qinLo = s.qinLo := rfl
@[simp] theorem withPm_qinHi (m : Memory) : (s.withPm m).qinHi = s.qinHi := rfl
@[simp] theorem withPm_qres (m : Memory) : (s.withPm m).qres = s.qres := rfl
@[simp] theorem withPm_done (m : Memory) : (s.withPm m).done = s.done := rfl
@[simp] theorem withPm_err (m : Memory) : (s.withPm m).err = s.err := rfl
@[simp] theorem withPm_range (m : Memory) : (s.withPm m).range = s.range := rfl
@[simp] theorem withPm_werr (m : Memory) : (s.withPm m).werr = s.werr := rfl
@[simp] theorem withPm_pm (m : Memory) : (s.withPm m).pm = m := rfl
@[simp] theorem withPm_phase (m : Memory) : (s.withPm m).phase = s.phase := rfl
@[simp] theorem withPm_cursor (m : Memory) : (s.withPm m).cursor = s.cursor := rfl
@[simp] theorem withPm_scanX (m : Memory) : (s.withPm m).scanX = s.scanX := rfl
@[simp] theorem withPm_scanY (m : Memory) : (s.withPm m).scanY = s.scanY := rfl
@[simp] theorem withPm_saturated (m : Memory) : (s.withPm m).saturated = s.saturated := rfl
@[simp] theorem withPm_eb (m : Memory) : (s.withPm m).eb = s.eb := rfl
@[simp] theorem withPm_qb (m : Memory) : (s.withPm m).qb = s.qb := rfl
@[simp] theorem withPm_inputs (m : Memory) : (s.withPm m).inputs = s.inputs := rfl
@[simp] theorem withPm_response (m : Memory) : (s.withPm m).response = s.response := rfl
@[simp] theorem withPm_draws (m : Memory) : (s.withPm m).draws = s.draws := rfl
@[simp] theorem withPm_W (m : Memory) : (s.withPm m).W = s.W := rfl
@[simp] theorem withPm_H (m : Memory) : (s.withPm m).H = s.H := rfl
@[simp] theorem withPm_pixels (m : Memory) : (s.withPm m).pixels = s.pixels := rfl
@[simp] theorem withPm_depth (m : Memory) : (s.withPm m).depth = s.depth := rfl
@[simp] theorem withPm_depthOk (m : Memory) : (s.withPm m).depthOk = s.depthOk := rfl
@[simp] theorem withPm_busy (m : Memory) : (s.withPm m).busy = s.busy := rfl
@[simp] theorem withPm_check (m : Memory) : (s.withPm m).check = s.check := rfl

@[simp] theorem raise_cfg (e : ErrCode) : (s.raise e).cfg = s.cfg := rfl
@[simp] theorem raise_irqEn (e : ErrCode) : (s.raise e).irqEn = s.irqEn := rfl
@[simp] theorem raise_bits (e : ErrCode) : (s.raise e).bits = s.bits := rfl
@[simp] theorem raise_width (e : ErrCode) : (s.raise e).width = s.width := rfl
@[simp] theorem raise_height (e : ErrCode) : (s.raise e).height = s.height := rfl
@[simp] theorem raise_srcLen (e : ErrCode) : (s.raise e).srcLen = s.srcLen := rfl
@[simp] theorem raise_srcBase (e : ErrCode) : (s.raise e).srcBase = s.srcBase := rfl
@[simp] theorem raise_dstBase (e : ErrCode) : (s.raise e).dstBase = s.dstBase := rfl
@[simp] theorem raise_opa (e : ErrCode) : (s.raise e).opa = s.opa := rfl
@[simp] theorem raise_lresLo (e : ErrCode) : (s.raise e).lresLo = s.lresLo := rfl
@[simp] theorem raise_lresHi (e : ErrCode) : (s.raise e).lresHi = s.lresHi := rfl
@[simp] theorem raise_qinLo (e : ErrCode) : (s.raise e).qinLo = s.qinLo := rfl
@[simp] theorem raise_qinHi (e : ErrCode) : (s.raise e).qinHi = s.qinHi := rfl
@[simp] theorem raise_qres (e : ErrCode) : (s.raise e).qres = s.qres := rfl
@[simp] theorem raise_done (e : ErrCode) : (s.raise e).done = true := rfl
@[simp] theorem raise_err (e : ErrCode) : (s.raise e).err = e := rfl
@[simp] theorem raise_range (e : ErrCode) : (s.raise e).range = s.range := rfl
@[simp] theorem raise_werr (e : ErrCode) : (s.raise e).werr = s.werr := rfl
@[simp] theorem raise_pm (e : ErrCode) : (s.raise e).pm = s.pm := rfl
@[simp] theorem raise_phase (e : ErrCode) : (s.raise e).phase = s.phase := rfl
@[simp] theorem raise_cursor (e : ErrCode) : (s.raise e).cursor = s.cursor := rfl
@[simp] theorem raise_scanX (e : ErrCode) : (s.raise e).scanX = s.scanX := rfl
@[simp] theorem raise_scanY (e : ErrCode) : (s.raise e).scanY = s.scanY := rfl
@[simp] theorem raise_saturated (e : ErrCode) : (s.raise e).saturated = s.saturated := rfl
@[simp] theorem raise_eb (e : ErrCode) : (s.raise e).eb = s.eb := rfl
@[simp] theorem raise_qb (e : ErrCode) : (s.raise e).qb = s.qb := rfl
@[simp] theorem raise_inputs (e : ErrCode) : (s.raise e).inputs = s.inputs := rfl
@[simp] theorem raise_response (e : ErrCode) : (s.raise e).response = s.response := rfl
@[simp] theorem raise_draws (e : ErrCode) : (s.raise e).draws = s.draws := rfl
@[simp] theorem raise_W (e : ErrCode) : (s.raise e).W = s.W := rfl
@[simp] theorem raise_H (e : ErrCode) : (s.raise e).H = s.H := rfl
@[simp] theorem raise_pixels (e : ErrCode) : (s.raise e).pixels = s.pixels := rfl
@[simp] theorem raise_depth (e : ErrCode) : (s.raise e).depth = s.depth := rfl
@[simp] theorem raise_depthOk (e : ErrCode) : (s.raise e).depthOk = s.depthOk := rfl
@[simp] theorem raise_busy (e : ErrCode) : (s.raise e).busy = s.busy := rfl
@[simp] theorem raise_check (e : ErrCode) : (s.raise e).check = s.check := rfl

@[simp] theorem finish_cfg : (s.finish).cfg = s.cfg := rfl
@[simp] theorem finish_irqEn : (s.finish).irqEn = s.irqEn := rfl
@[simp] theorem finish_bits : (s.finish).bits = s.bits := rfl
@[simp] theorem finish_width : (s.finish).width = s.width := rfl
@[simp] theorem finish_height : (s.finish).height = s.height := rfl
@[simp] theorem finish_srcLen : (s.finish).srcLen = s.srcLen := rfl
@[simp] theorem finish_srcBase : (s.finish).srcBase = s.srcBase := rfl
@[simp] theorem finish_dstBase : (s.finish).dstBase = s.dstBase := rfl
@[simp] theorem finish_opa : (s.finish).opa = s.opa := rfl
@[simp] theorem finish_lresLo : (s.finish).lresLo = s.lresLo := rfl
@[simp] theorem finish_lresHi : (s.finish).lresHi = s.lresHi := rfl
@[simp] theorem finish_qinLo : (s.finish).qinLo = s.qinLo := rfl
@[simp] theorem finish_qinHi : (s.finish).qinHi = s.qinHi := rfl
@[simp] theorem finish_qres : (s.finish).qres = s.qres := rfl
@[simp] theorem finish_done : (s.finish).done = true := rfl
@[simp] theorem finish_err : (s.finish).err = .none := rfl
@[simp] theorem finish_range : (s.finish).range = s.range := rfl
@[simp] theorem finish_werr : (s.finish).werr = s.werr := rfl
@[simp] theorem finish_pm : (s.finish).pm = s.pm := rfl
@[simp] theorem finish_phase : (s.finish).phase = s.phase := rfl
@[simp] theorem finish_cursor : (s.finish).cursor = s.cursor := rfl
@[simp] theorem finish_scanX : (s.finish).scanX = s.scanX := rfl
@[simp] theorem finish_scanY : (s.finish).scanY = s.scanY := rfl
@[simp] theorem finish_saturated : (s.finish).saturated = s.saturated := rfl
@[simp] theorem finish_eb : (s.finish).eb = s.eb := rfl
@[simp] theorem finish_qb : (s.finish).qb = s.qb := rfl
@[simp] theorem finish_inputs : (s.finish).inputs = s.inputs := rfl
@[simp] theorem finish_response : (s.finish).response = s.response := rfl
@[simp] theorem finish_draws : (s.finish).draws = s.draws := rfl
@[simp] theorem finish_W : (s.finish).W = s.W := rfl
@[simp] theorem finish_H : (s.finish).H = s.H := rfl
@[simp] theorem finish_pixels : (s.finish).pixels = s.pixels := rfl
@[simp] theorem finish_depth : (s.finish).depth = s.depth := rfl
@[simp] theorem finish_depthOk : (s.finish).depthOk = s.depthOk := rfl
@[simp] theorem finish_busy : (s.finish).busy = s.busy := rfl
@[simp] theorem finish_check : (s.finish).check = s.check := rfl

@[simp] theorem beginCommand_cfg : (s.beginCommand).cfg = s.cfg := rfl
@[simp] theorem beginCommand_irqEn : (s.beginCommand).irqEn = s.irqEn := rfl
@[simp] theorem beginCommand_bits : (s.beginCommand).bits = s.bits := rfl
@[simp] theorem beginCommand_width : (s.beginCommand).width = s.width := rfl
@[simp] theorem beginCommand_height : (s.beginCommand).height = s.height := rfl
@[simp] theorem beginCommand_srcLen : (s.beginCommand).srcLen = s.srcLen := rfl
@[simp] theorem beginCommand_srcBase : (s.beginCommand).srcBase = s.srcBase := rfl
@[simp] theorem beginCommand_dstBase : (s.beginCommand).dstBase = s.dstBase := rfl
@[simp] theorem beginCommand_opa : (s.beginCommand).opa = s.opa := rfl
@[simp] theorem beginCommand_lresLo : (s.beginCommand).lresLo = s.lresLo := rfl
@[simp] theorem beginCommand_lresHi : (s.beginCommand).lresHi = s.lresHi := rfl
@[simp] theorem beginCommand_qinLo : (s.beginCommand).qinLo = s.qinLo := rfl
@[simp] theorem beginCommand_qinHi : (s.beginCommand).qinHi = s.qinHi := rfl
@[simp] theorem beginCommand_qres : (s.beginCommand).qres = s.qres := rfl
@[simp] theorem beginCommand_done : (s.beginCommand).done = false := rfl
@[simp] theorem beginCommand_err : (s.beginCommand).err = .none := rfl
@[simp] theorem beginCommand_range : (s.beginCommand).range = s.range := rfl
@[simp] theorem beginCommand_werr : (s.beginCommand).werr = s.werr := rfl
@[simp] theorem beginCommand_pm : (s.beginCommand).pm = s.pm := rfl
@[simp] theorem beginCommand_phase : (s.beginCommand).phase = s.phase := rfl
@[simp] theorem beginCommand_cursor : (s.beginCommand).cursor = s.cursor := rfl
@[simp] theorem beginCommand_scanX : (s.beginCommand).scanX = s.scanX := rfl
@[simp] theorem beginCommand_scanY : (s.beginCommand).scanY = s.scanY := rfl
@[simp] theorem beginCommand_saturated : (s.beginCommand).saturated = s.saturated := rfl
@[simp] theorem beginCommand_eb : (s.beginCommand).eb = s.eb := rfl
@[simp] theorem beginCommand_qb : (s.beginCommand).qb = s.qb := rfl
@[simp] theorem beginCommand_inputs : (s.beginCommand).inputs = s.inputs := rfl
@[simp] theorem beginCommand_response : (s.beginCommand).response = s.response := rfl
@[simp] theorem beginCommand_draws : (s.beginCommand).draws = s.draws := rfl
@[simp] theorem beginCommand_W : (s.beginCommand).W = s.W := rfl
@[simp] theorem beginCommand_H : (s.beginCommand).H = s.H := rfl
@[simp] theorem beginCommand_pixels : (s.beginCommand).pixels = s.pixels := rfl
@[simp] theorem beginCommand_depth : (s.beginCommand).depth = s.depth := rfl
@[simp] theorem beginCommand_depthOk : (s.beginCommand).depthOk = s.depthOk := rfl
@[simp] theorem beginCommand_busy : (s.beginCommand).busy = s.busy := rfl
@[simp] theorem beginCommand_check : (s.beginCommand).check = s.check := rfl

@[simp] theorem setLres_cfg (w : NumWord) : (s.setLres w).cfg = s.cfg := rfl
@[simp] theorem setLres_irqEn (w : NumWord) : (s.setLres w).irqEn = s.irqEn := rfl
@[simp] theorem setLres_bits (w : NumWord) : (s.setLres w).bits = s.bits := rfl
@[simp] theorem setLres_width (w : NumWord) : (s.setLres w).width = s.width := rfl
@[simp] theorem setLres_height (w : NumWord) : (s.setLres w).height = s.height := rfl
@[simp] theorem setLres_srcLen (w : NumWord) : (s.setLres w).srcLen = s.srcLen := rfl
@[simp] theorem setLres_srcBase (w : NumWord) : (s.setLres w).srcBase = s.srcBase := rfl
@[simp] theorem setLres_dstBase (w : NumWord) : (s.setLres w).dstBase = s.dstBase := rfl
@[simp] theorem setLres_opa (w : NumWord) : (s.setLres w).opa = s.opa := rfl
@[simp] theorem setLres_lresLo (w : NumWord) : (s.setLres w).lresLo = numLo w := rfl
@[simp] theorem setLres_lresHi (w : NumWord) : (s.setLres w).lresHi = numHi w := rfl
@[simp] theorem setLres_qinLo (w : NumWord) : (s.setLres w).qinLo = s.qinLo := rfl
@[simp] theorem setLres_qinHi (w : NumWord) : (s.setLres w).qinHi = s.qinHi := rfl
@[simp] theorem setLres_qres (w : NumWord) : (s.setLres w).qres = s.qres := rfl
@[simp] theorem setLres_done (w : NumWord) : (s.setLres w).done = s.done := rfl
@[simp] theorem setLres_err (w : NumWord) : (s.setLres w).err = s.err := rfl
@[simp] theorem setLres_range (w : NumWord) : (s.setLres w).range = s.range := rfl
@[simp] theorem setLres_werr (w : NumWord) : (s.setLres w).werr = s.werr := rfl
@[simp] theorem setLres_pm (w : NumWord) : (s.setLres w).pm = s.pm := rfl
@[simp] theorem setLres_phase (w : NumWord) : (s.setLres w).phase = s.phase := rfl
@[simp] theorem setLres_cursor (w : NumWord) : (s.setLres w).cursor = s.cursor := rfl
@[simp] theorem setLres_scanX (w : NumWord) : (s.setLres w).scanX = s.scanX := rfl
@[simp] theorem setLres_scanY (w : NumWord) : (s.setLres w).scanY = s.scanY := rfl
@[simp] theorem setLres_saturated (w : NumWord) : (s.setLres w).saturated = s.saturated := rfl
@[simp] theorem setLres_eb (w : NumWord) : (s.setLres w).eb = s.eb := rfl
@[simp] theorem setLres_qb (w : NumWord) : (s.setLres w).qb = s.qb := rfl
@[simp] theorem setLres_inputs (w : NumWord) : (s.setLres w).inputs = s.inputs := rfl
@[simp] theorem setLres_response (w : NumWord) : (s.setLres w).response = s.response := rfl
@[simp] theorem setLres_draws (w : NumWord) : (s.setLres w).draws = s.draws := rfl
@[simp] theorem setLres_W (w : NumWord) : (s.setLres w).W = s.W := rfl
@[simp] theorem setLres_H (w : NumWord) : (s.setLres w).H = s.H := rfl
@[simp] theorem setLres_pixels (w : NumWord) : (s.setLres w).pixels = s.pixels := rfl
@[simp] theorem setLres_depth (w : NumWord) : (s.setLres w).depth = s.depth := rfl
@[simp] theorem setLres_depthOk (w : NumWord) : (s.setLres w).depthOk = s.depthOk := rfl
@[simp] theorem setLres_busy (w : NumWord) : (s.setLres w).busy = s.busy := rfl
@[simp] theorem setLres_check (w : NumWord) : (s.setLres w).check = s.check := rfl

@[simp] theorem dropWrite_cfg : (s.dropWrite).cfg = s.cfg := rfl
@[simp] theorem dropWrite_irqEn : (s.dropWrite).irqEn = s.irqEn := rfl
@[simp] theorem dropWrite_bits : (s.dropWrite).bits = s.bits := rfl
@[simp] theorem dropWrite_width : (s.dropWrite).width = s.width := rfl
@[simp] theorem dropWrite_height : (s.dropWrite).height = s.height := rfl
@[simp] theorem dropWrite_srcLen : (s.dropWrite).srcLen = s.srcLen := rfl
@[simp] theorem dropWrite_srcBase : (s.dropWrite).srcBase = s.srcBase := rfl
@[simp] theorem dropWrite_dstBase : (s.dropWrite).dstBase = s.dstBase := rfl
@[simp] theorem dropWrite_opa : (s.dropWrite).opa = s.opa := rfl
@[simp] theorem dropWrite_lresLo : (s.dropWrite).lresLo = s.lresLo := rfl
@[simp] theorem dropWrite_lresHi : (s.dropWrite).lresHi = s.lresHi := rfl
@[simp] theorem dropWrite_qinLo : (s.dropWrite).qinLo = s.qinLo := rfl
@[simp] theorem dropWrite_qinHi : (s.dropWrite).qinHi = s.qinHi := rfl
@[simp] theorem dropWrite_qres : (s.dropWrite).qres = s.qres := rfl
@[simp] theorem dropWrite_done : (s.dropWrite).done = s.done := rfl
@[simp] theorem dropWrite_err : (s.dropWrite).err = s.err := rfl
@[simp] theorem dropWrite_range : (s.dropWrite).range = s.range := rfl
@[simp] theorem dropWrite_werr : (s.dropWrite).werr = true := rfl
@[simp] theorem dropWrite_pm : (s.dropWrite).pm = s.pm := rfl
@[simp] theorem dropWrite_phase : (s.dropWrite).phase = s.phase := rfl
@[simp] theorem dropWrite_cursor : (s.dropWrite).cursor = s.cursor := rfl
@[simp] theorem dropWrite_scanX : (s.dropWrite).scanX = s.scanX := rfl
@[simp] theorem dropWrite_scanY : (s.dropWrite).scanY = s.scanY := rfl
@[simp] theorem dropWrite_saturated : (s.dropWrite).saturated = s.saturated := rfl
@[simp] theorem dropWrite_eb : (s.dropWrite).eb = s.eb := rfl
@[simp] theorem dropWrite_qb : (s.dropWrite).qb = s.qb := rfl
@[simp] theorem dropWrite_inputs : (s.dropWrite).inputs = s.inputs := rfl
@[simp] theorem dropWrite_response : (s.dropWrite).response = s.response := rfl
@[simp] theorem dropWrite_draws : (s.dropWrite).draws = s.draws := rfl
@[simp] theorem dropWrite_W : (s.dropWrite).W = s.W := rfl
@[simp] theorem dropWrite_H : (s.dropWrite).H = s.H := rfl
@[simp] theorem dropWrite_pixels : (s.dropWrite).pixels = s.pixels := rfl
@[simp] theorem dropWrite_depth : (s.dropWrite).depth = s.depth := rfl
@[simp] theorem dropWrite_depthOk : (s.dropWrite).depthOk = s.depthOk := rfl
@[simp] theorem dropWrite_busy : (s.dropWrite).busy = s.busy := rfl
@[simp] theorem dropWrite_check : (s.dropWrite).check = s.check := rfl

@[simp] theorem writeStatus_cfg (v : Word) : (s.writeStatus v).cfg = s.cfg := rfl
@[simp] theorem writeStatus_irqEn (v : Word) : (s.writeStatus v).irqEn = s.irqEn := rfl
@[simp] theorem writeStatus_bits (v : Word) : (s.writeStatus v).bits = s.bits := rfl
@[simp] theorem writeStatus_width (v : Word) : (s.writeStatus v).width = s.width := rfl
@[simp] theorem writeStatus_height (v : Word) : (s.writeStatus v).height = s.height := rfl
@[simp] theorem writeStatus_srcLen (v : Word) : (s.writeStatus v).srcLen = s.srcLen := rfl
@[simp] theorem writeStatus_srcBase (v : Word) : (s.writeStatus v).srcBase = s.srcBase := rfl
@[simp] theorem writeStatus_dstBase (v : Word) : (s.writeStatus v).dstBase = s.dstBase := rfl
@[simp] theorem writeStatus_opa (v : Word) : (s.writeStatus v).opa = s.opa := rfl
@[simp] theorem writeStatus_lresLo (v : Word) : (s.writeStatus v).lresLo = s.lresLo := rfl
@[simp] theorem writeStatus_lresHi (v : Word) : (s.writeStatus v).lresHi = s.lresHi := rfl
@[simp] theorem writeStatus_qinLo (v : Word) : (s.writeStatus v).qinLo = s.qinLo := rfl
@[simp] theorem writeStatus_qinHi (v : Word) : (s.writeStatus v).qinHi = s.qinHi := rfl
@[simp] theorem writeStatus_qres (v : Word) : (s.writeStatus v).qres = s.qres := rfl
@[simp] theorem writeStatus_done (v : Word) : (s.writeStatus v).done = (s.done && !v.getLsbD 1) := rfl
@[simp] theorem writeStatus_err (v : Word) : (s.writeStatus v).err = (if v.getLsbD 1 then .none else s.err) := rfl
@[simp] theorem writeStatus_range (v : Word) : (s.writeStatus v).range = (s.range && !v.getLsbD 8) := rfl
@[simp] theorem writeStatus_werr (v : Word) : (s.writeStatus v).werr = (s.werr && !v.getLsbD 9) := rfl
@[simp] theorem writeStatus_pm (v : Word) : (s.writeStatus v).pm = s.pm := rfl
@[simp] theorem writeStatus_phase (v : Word) : (s.writeStatus v).phase = s.phase := rfl
@[simp] theorem writeStatus_cursor (v : Word) : (s.writeStatus v).cursor = s.cursor := rfl
@[simp] theorem writeStatus_scanX (v : Word) : (s.writeStatus v).scanX = s.scanX := rfl
@[simp] theorem writeStatus_scanY (v : Word) : (s.writeStatus v).scanY = s.scanY := rfl
@[simp] theorem writeStatus_saturated (v : Word) : (s.writeStatus v).saturated = s.saturated := rfl
@[simp] theorem writeStatus_eb (v : Word) : (s.writeStatus v).eb = s.eb := rfl
@[simp] theorem writeStatus_qb (v : Word) : (s.writeStatus v).qb = s.qb := rfl
@[simp] theorem writeStatus_inputs (v : Word) : (s.writeStatus v).inputs = s.inputs := rfl
@[simp] theorem writeStatus_response (v : Word) : (s.writeStatus v).response = s.response := rfl
@[simp] theorem writeStatus_draws (v : Word) : (s.writeStatus v).draws = s.draws := rfl
@[simp] theorem writeStatus_W (v : Word) : (s.writeStatus v).W = s.W := rfl
@[simp] theorem writeStatus_H (v : Word) : (s.writeStatus v).H = s.H := rfl
@[simp] theorem writeStatus_pixels (v : Word) : (s.writeStatus v).pixels = s.pixels := rfl
@[simp] theorem writeStatus_depth (v : Word) : (s.writeStatus v).depth = s.depth := rfl
@[simp] theorem writeStatus_depthOk (v : Word) : (s.writeStatus v).depthOk = s.depthOk := rfl
@[simp] theorem writeStatus_busy (v : Word) : (s.writeStatus v).busy = s.busy := rfl
@[simp] theorem writeStatus_check (v : Word) : (s.writeStatus v).check = s.check := rfl

@[simp] theorem writeIrqen_cfg (v : Word) : (s.writeIrqen v).cfg = s.cfg := rfl
@[simp] theorem writeIrqen_irqEn (v : Word) : (s.writeIrqen v).irqEn = v.getLsbD 0 := rfl
@[simp] theorem writeIrqen_bits (v : Word) : (s.writeIrqen v).bits = s.bits := rfl
@[simp] theorem writeIrqen_width (v : Word) : (s.writeIrqen v).width = s.width := rfl
@[simp] theorem writeIrqen_height (v : Word) : (s.writeIrqen v).height = s.height := rfl
@[simp] theorem writeIrqen_srcLen (v : Word) : (s.writeIrqen v).srcLen = s.srcLen := rfl
@[simp] theorem writeIrqen_srcBase (v : Word) : (s.writeIrqen v).srcBase = s.srcBase := rfl
@[simp] theorem writeIrqen_dstBase (v : Word) : (s.writeIrqen v).dstBase = s.dstBase := rfl
@[simp] theorem writeIrqen_opa (v : Word) : (s.writeIrqen v).opa = s.opa := rfl
@[simp] theorem writeIrqen_lresLo (v : Word) : (s.writeIrqen v).lresLo = s.lresLo := rfl
@[simp] theorem writeIrqen_lresHi (v : Word) : (s.writeIrqen v).lresHi = s.lresHi := rfl
@[simp] theorem writeIrqen_qinLo (v : Word) : (s.writeIrqen v).qinLo = s.qinLo := rfl
@[simp] theorem writeIrqen_qinHi (v : Word) : (s.writeIrqen v).qinHi = s.qinHi := rfl
@[simp] theorem writeIrqen_qres (v : Word) : (s.writeIrqen v).qres = s.qres := rfl
@[simp] theorem writeIrqen_done (v : Word) : (s.writeIrqen v).done = s.done := rfl
@[simp] theorem writeIrqen_err (v : Word) : (s.writeIrqen v).err = s.err := rfl
@[simp] theorem writeIrqen_range (v : Word) : (s.writeIrqen v).range = s.range := rfl
@[simp] theorem writeIrqen_werr (v : Word) : (s.writeIrqen v).werr = s.werr := rfl
@[simp] theorem writeIrqen_pm (v : Word) : (s.writeIrqen v).pm = s.pm := rfl
@[simp] theorem writeIrqen_phase (v : Word) : (s.writeIrqen v).phase = s.phase := rfl
@[simp] theorem writeIrqen_cursor (v : Word) : (s.writeIrqen v).cursor = s.cursor := rfl
@[simp] theorem writeIrqen_scanX (v : Word) : (s.writeIrqen v).scanX = s.scanX := rfl
@[simp] theorem writeIrqen_scanY (v : Word) : (s.writeIrqen v).scanY = s.scanY := rfl
@[simp] theorem writeIrqen_saturated (v : Word) : (s.writeIrqen v).saturated = s.saturated := rfl
@[simp] theorem writeIrqen_eb (v : Word) : (s.writeIrqen v).eb = s.eb := rfl
@[simp] theorem writeIrqen_qb (v : Word) : (s.writeIrqen v).qb = s.qb := rfl
@[simp] theorem writeIrqen_inputs (v : Word) : (s.writeIrqen v).inputs = s.inputs := rfl
@[simp] theorem writeIrqen_response (v : Word) : (s.writeIrqen v).response = s.response := rfl
@[simp] theorem writeIrqen_draws (v : Word) : (s.writeIrqen v).draws = s.draws := rfl
@[simp] theorem writeIrqen_W (v : Word) : (s.writeIrqen v).W = s.W := rfl
@[simp] theorem writeIrqen_H (v : Word) : (s.writeIrqen v).H = s.H := rfl
@[simp] theorem writeIrqen_pixels (v : Word) : (s.writeIrqen v).pixels = s.pixels := rfl
@[simp] theorem writeIrqen_depth (v : Word) : (s.writeIrqen v).depth = s.depth := rfl
@[simp] theorem writeIrqen_depthOk (v : Word) : (s.writeIrqen v).depthOk = s.depthOk := rfl
@[simp] theorem writeIrqen_busy (v : Word) : (s.writeIrqen v).busy = s.busy := rfl
@[simp] theorem writeIrqen_check (v : Word) : (s.writeIrqen v).check = s.check := rfl

@[simp] theorem beginPass_cfg : (s.beginPass).cfg = s.cfg := rfl
@[simp] theorem beginPass_irqEn : (s.beginPass).irqEn = s.irqEn := rfl
@[simp] theorem beginPass_bits : (s.beginPass).bits = s.bits := rfl
@[simp] theorem beginPass_width : (s.beginPass).width = s.width := rfl
@[simp] theorem beginPass_height : (s.beginPass).height = s.height := rfl
@[simp] theorem beginPass_srcLen : (s.beginPass).srcLen = s.srcLen := rfl
@[simp] theorem beginPass_srcBase : (s.beginPass).srcBase = s.srcBase := rfl
@[simp] theorem beginPass_dstBase : (s.beginPass).dstBase = s.dstBase := rfl
@[simp] theorem beginPass_opa : (s.beginPass).opa = s.opa := rfl
@[simp] theorem beginPass_lresLo : (s.beginPass).lresLo = s.lresLo := rfl
@[simp] theorem beginPass_lresHi : (s.beginPass).lresHi = s.lresHi := rfl
@[simp] theorem beginPass_qinLo : (s.beginPass).qinLo = s.qinLo := rfl
@[simp] theorem beginPass_qinHi : (s.beginPass).qinHi = s.qinHi := rfl
@[simp] theorem beginPass_qres : (s.beginPass).qres = s.qres := rfl
@[simp] theorem beginPass_done : (s.beginPass).done = s.done := rfl
@[simp] theorem beginPass_err : (s.beginPass).err = s.err := rfl
@[simp] theorem beginPass_range : (s.beginPass).range = s.range := rfl
@[simp] theorem beginPass_werr : (s.beginPass).werr = s.werr := rfl
@[simp] theorem beginPass_pm : (s.beginPass).pm = s.pm := rfl
@[simp] theorem beginPass_phase : (s.beginPass).phase = .init := rfl
@[simp] theorem beginPass_cursor : (s.beginPass).cursor = 0 := rfl
@[simp] theorem beginPass_scanX : (s.beginPass).scanX = s.scanX := rfl
@[simp] theorem beginPass_scanY : (s.beginPass).scanY = s.scanY := rfl
@[simp] theorem beginPass_saturated : (s.beginPass).saturated = false := rfl
@[simp] theorem beginPass_eb : (s.beginPass).eb = [] := rfl
@[simp] theorem beginPass_qb : (s.beginPass).qb = [] := rfl
@[simp] theorem beginPass_inputs : (s.beginPass).inputs = s.inputs := rfl
@[simp] theorem beginPass_response : (s.beginPass).response = s.response := rfl
@[simp] theorem beginPass_draws : (s.beginPass).draws = s.draws := rfl
@[simp] theorem beginPass_W : (s.beginPass).W = s.W := rfl
@[simp] theorem beginPass_H : (s.beginPass).H = s.H := rfl
@[simp] theorem beginPass_pixels : (s.beginPass).pixels = s.pixels := rfl
@[simp] theorem beginPass_depth : (s.beginPass).depth = s.depth := rfl
@[simp] theorem beginPass_depthOk : (s.beginPass).depthOk = s.depthOk := rfl
@[simp] theorem beginPass_check : (s.beginPass).check = s.check := rfl

@[simp] theorem completePass_cfg : (s.completePass).cfg = s.cfg := rfl
@[simp] theorem completePass_irqEn : (s.completePass).irqEn = s.irqEn := rfl
@[simp] theorem completePass_bits : (s.completePass).bits = s.bits := rfl
@[simp] theorem completePass_width : (s.completePass).width = s.width := rfl
@[simp] theorem completePass_height : (s.completePass).height = s.height := rfl
@[simp] theorem completePass_srcLen : (s.completePass).srcLen = s.srcLen := rfl
@[simp] theorem completePass_srcBase : (s.completePass).srcBase = s.srcBase := rfl
@[simp] theorem completePass_dstBase : (s.completePass).dstBase = s.dstBase := rfl
@[simp] theorem completePass_opa : (s.completePass).opa = s.opa := rfl
@[simp] theorem completePass_lresLo : (s.completePass).lresLo = s.lresLo := rfl
@[simp] theorem completePass_lresHi : (s.completePass).lresHi = s.lresHi := rfl
@[simp] theorem completePass_qinLo : (s.completePass).qinLo = s.qinLo := rfl
@[simp] theorem completePass_qinHi : (s.completePass).qinHi = s.qinHi := rfl
@[simp] theorem completePass_qres : (s.completePass).qres = s.qres := rfl
@[simp] theorem completePass_done : (s.completePass).done = true := rfl
@[simp] theorem completePass_err : (s.completePass).err = .none := rfl
@[simp] theorem completePass_range : (s.completePass).range = (s.range || s.saturated) := rfl
@[simp] theorem completePass_werr : (s.completePass).werr = s.werr := rfl
@[simp] theorem completePass_pm : (s.completePass).pm = s.pm := rfl
@[simp] theorem completePass_phase : (s.completePass).phase = .idle := rfl
@[simp] theorem completePass_cursor : (s.completePass).cursor = 0 := rfl
@[simp] theorem completePass_scanX : (s.completePass).scanX = 0 := rfl
@[simp] theorem completePass_scanY : (s.completePass).scanY = 0 := rfl
@[simp] theorem completePass_saturated : (s.completePass).saturated = false := rfl
@[simp] theorem completePass_eb : (s.completePass).eb = [] := rfl
@[simp] theorem completePass_qb : (s.completePass).qb = [] := rfl
@[simp] theorem completePass_inputs : (s.completePass).inputs = s.inputs := rfl
@[simp] theorem completePass_response : (s.completePass).response = s.response := rfl
@[simp] theorem completePass_draws : (s.completePass).draws = s.draws := rfl
@[simp] theorem completePass_W : (s.completePass).W = s.W := rfl
@[simp] theorem completePass_H : (s.completePass).H = s.H := rfl
@[simp] theorem completePass_pixels : (s.completePass).pixels = s.pixels := rfl
@[simp] theorem completePass_depth : (s.completePass).depth = s.depth := rfl
@[simp] theorem completePass_depthOk : (s.completePass).depthOk = s.depthOk := rfl
@[simp] theorem completePass_check : (s.completePass).check = s.check := rfl

@[simp] theorem beginPass_busy : s.beginPass.busy = true := rfl
@[simp] theorem completePass_busy : s.completePass.busy = false := rfl
@[simp] theorem startScan_busy : s.startScan.busy = true := rfl
@[simp] theorem startMat_busy : s.startMat.busy = true := rfl
@[simp] theorem applyReset_cfg : s.applyReset.cfg = s.cfg := rfl
@[simp] theorem applyReset_phase : s.applyReset.phase = .idle := rfl
@[simp] theorem applyReset_done : s.applyReset.done = false := rfl
@[simp] theorem applyReset_err : s.applyReset.err = .none := rfl
@[simp] theorem applyReset_range : s.applyReset.range = false := rfl
@[simp] theorem applyReset_werr : s.applyReset.werr = false := rfl
@[simp] theorem applyReset_irqEn : s.applyReset.irqEn = false := rfl
@[simp] theorem applyReset_inputs : s.applyReset.inputs = s.inputs := rfl
@[simp] theorem applyReset_response : s.applyReset.response = s.response := rfl

/-- A reset outside a pass keeps pixel memory (rule R272). -/
theorem applyReset_pm_idle (h : s.busy = false) : s.applyReset.pm = s.pm := by
  simp [State.applyReset, h]

/-- A reset during a pass scrambles the output region (rule R273). -/
theorem applyReset_pm_busy (h : s.busy = true) :
    s.applyReset.pm = s.pm.scramble s.draws s.dstBase.toNat (4 * s.pixels) := by
  simp [State.applyReset, h]

/-- BUSY is the phase's being other than IDLE (rule R54). -/
theorem busy_iff : s.busy = true ↔ s.phase ≠ .idle := by
  simp [State.busy]

theorem busy_false_iff : s.busy = false ↔ s.phase = .idle := by
  simp [State.busy]

end Sys2Proof.Machine.State
end

