-- ==== Sys2Proof/Laws/Bus.lean ====
section
/-! SUPPORT. What one step does for each kind of turn, and which accesses reach what. -/

namespace Sys2Proof.Machine

/-- A 4-byte access at a register's address reaches that register (rules R30, R75). -/
@[simp] theorem target_reg (c : Config) (r : Reg) : target c .b4 r.addr = .reg r := by
  cases r <;> rfl

/-- An aligned access inside pixel memory reaches it (rules R71, R74). -/
theorem target_pm (c : Config) (w : Width) (off : Nat) (hc : c.pmBytes ≤ 0x0F000000)
    (ha : off % w.bytes = 0) (hr : off + w.bytes ≤ c.pmBytes) : target c w (pmAddr off) = .pm off := by
  have hoff : off < 0x0F000000 := by cases w <;> simp [Width.bytes] at hr <;> omega
  have ht : (pmAddr off).toNat = 0x01000000 + off := by
    simp only [pmAddr, pmWindow, BitVec.toNat_ofNat]
    omega
  have hal : (0x01000000 + off) % w.bytes = 0 := by cases w <;> simp [Width.bytes] at ha ⊢ <;> omega
  simp only [target, ht, pmWindow]
  rw [if_neg (by omega), if_pos ⟨by omega, hal, by omega⟩]
  rw [Nat.add_sub_cancel_left]

/-- What an access reaches of pixel memory lies inside it (rules R72, R74). -/
theorem target_pm_within {c : Config} {w : Width} {a : Word} {off : Nat} (h : target c w a = .pm off) :
    off + w.bytes ≤ c.pmBytes := by
  unfold target at h
  generalize pmWindow = base at h
  simp only at h
  split at h
  · split at h
    · split at h <;> cases h
    · cases h
  · split at h
    · rename_i hb
      injection h with h
      omega
    · cases h

/-- What a register-window access reaches, in both directions (rules R30, R75). -/
theorem target_reg_iff {c : Config} {w : Width} {a : Word} {r : Reg} :
    target c w a = .reg r ↔ w = .b4 ∧ a = r.addr := by
  constructor
  · intro h
    unfold target at h
    generalize pmWindow = base at h
    simp only at h
    split at h
    · split at h
      · rename_i h4
        refine ⟨h4.1, ?_⟩
        split at h
        · rename_i r' hr
          cases h
          apply BitVec.eq_of_toNat_eq
          have e : r.offset = a.toNat := by simpa using List.find?_some hr
          have hr : r.addr.toNat = r.offset := by cases r <;> rfl
          omega
        · cases h
      · cases h
    · split at h <;> cases h
  · rintro ⟨rfl, rfl⟩
    exact target_reg c r

/-- When an access reaches pixel memory, in both directions (rules R71, R74). -/
theorem target_pm_iff {c : Config} {w : Width} {a : Word} : (∃ off, target c w a = .pm off) ↔
    0x01000000 ≤ a.toNat ∧ a.toNat % w.bytes = 0 ∧ a.toNat + w.bytes ≤ 0x01000000 + c.pmBytes := by
  have hb : pmWindow = 0x01000000 := rfl
  generalize hB : 0x01000000 = B at *
  constructor
  · rintro ⟨off, h⟩
    unfold target at h
    rw [hb] at h
    simp only at h
    split at h
    · split at h
      · split at h <;> cases h
      · cases h
    · split at h
      · rename_i hh
        exact ⟨hh.1, hh.2.1, by omega⟩
      · cases h
  · rintro ⟨h1, h2, h3⟩
    refine ⟨a.toNat - B, ?_⟩
    unfold target
    rw [hb]
    simp only
    rw [if_neg (by omega), if_pos ⟨h1, h2, by omega⟩]

variable {s : State} {rest : List Input}

theorem step_reset (h : s.inputs = .reset :: rest) : step s = .next (s.withInputs rest).applyReset := by
  simp only [step, nextTurn, h]

theorem step_silent (h : s.inputs = []) : step s = engineStep s := by
  simp only [step, nextTurn, h]

theorem step_engine (h : s.inputs = .engine :: rest) : step s = engineStep (s.withInputs rest) := by
  simp only [step, nextTurn, h]

theorem step_read {w : Width} {a : Word} (h : s.inputs = .host (.read w a) :: rest) :
    step s = .next (hostRead w a (s.withInputs rest)) := by
  simp only [step, nextTurn, h, hostAccess]

/-- A bus error, of a read or a write (rule R77). -/
theorem step_busError {w : Width} {a v : Word} (ht : target s.cfg w a = .busError)
    (h : s.inputs = .host (.read w a) :: rest ∨ s.inputs = .host (.write w a v) :: rest) :
    step s = .next ((s.withInputs rest).respond .busError) := by
  rcases h with h | h <;>
    simp only [step, nextTurn, h, hostAccess, hostRead, hostWrite, State.withInputs_cfg, ht]

/-- A register read (rule R217). -/
theorem step_readReg {r : Reg} (h : s.inputs = .host (.read .b4 r.addr) :: rest) :
    step s = .next ((s.withInputs rest).respond (.data (s.readReg r))) := by
  rw [step_read h, hostRead, target_reg]
  cases r <;> rfl

/-- A write to a register other than CTRL, when it is not dropped (rules R55, R214 to R216). -/
theorem step_writeReg {r : Reg} {v : Word} (h : s.inputs = .host (.write .b4 r.addr v) :: rest)
    (hb : s.busy = false ∨ r.busyLocked = false) (hr : r ≠ .ctrl) :
    step s = .next (((s.withInputs rest).respond .written).storeReg v r) := by
  have hb' : (s.busy && r.busyLocked) = false := by
    rcases hb with hb | hb <;> simp [hb]
  simp only [step, nextTurn, h, hostAccess, hostWrite, target_reg, State.withInputs_busy, hb', if_neg hr,
    Bool.false_eq_true, if_false]

/-- A dropped register write (rule R280). -/
theorem step_writeReg_busy {r : Reg} {v : Word} (h : s.inputs = .host (.write .b4 r.addr v) :: rest)
    (hb : s.busy = true) (hr : r.busyLocked = true) :
    step s = .next ((s.withInputs rest).respond .written).dropWrite := by
  simp only [step, nextTurn, h, hostAccess, hostWrite, target_reg, State.withInputs_busy, hb, hr, Bool.and_self,
    if_true]

/-- A command is issued by a CTRL write with BUSY = 0 (rule R210). -/
theorem step_writeCtrl {w : Word} (h : s.inputs = .host (.write .b4 Reg.ctrl.addr w) :: rest) (hb : s.busy = false) :
    step s = issue w ((s.withInputs rest).respond .written).beginCommand := by
  simp only [step, nextTurn, h, hostAccess, hostWrite, target_reg, State.withInputs_busy, hb, Bool.false_and,
    Bool.false_eq_true, if_false, if_true]

/-- A write to pixel memory (rule R79). -/
theorem step_writePm {w : Width} {a v : Word} {off : Nat} (ht : target s.cfg w a = .pm off) (hb : s.busy = false)
    (h : s.inputs = .host (.write w a v) :: rest) :
    step s = .next (((s.withInputs rest).respond .written).withPm (s.pm.write off w.bytes v.toNat)) := by
  simp only [step, nextTurn, h, hostAccess, hostWrite, State.withInputs_cfg, ht, State.withInputs_busy, hb,
    Bool.false_eq_true, if_false, State.withInputs_pm]

/-- A dropped write to pixel memory (rule R281). -/
theorem step_writePm_busy {w : Width} {a v : Word} {off : Nat} (ht : target s.cfg w a = .pm off)
    (hb : s.busy = true) (h : s.inputs = .host (.write w a v) :: rest) :
    step s = .next ((s.withInputs rest).respond .written).dropWrite := by
  simp only [step, nextTurn, h, hostAccess, hostWrite, State.withInputs_cfg, ht, State.withInputs_busy, hb, if_true]

/-- A read of pixel memory (rule R79). -/
theorem step_readPm {w : Width} {a : Word} {off : Nat} (ht : target s.cfg w a = .pm off) (hb : s.busy = false)
    (h : s.inputs = .host (.read w a) :: rest) :
    step s = .next ((s.withInputs rest).respond (.data (BitVec.ofNat 32 (s.pm.read off w.bytes)))) := by
  simp only [step_read h, hostRead, State.withInputs_cfg, ht, State.withInputs_busy, hb, Bool.false_eq_true,
    if_false, State.withInputs_pm]

/-- A read of pixel memory while BUSY = 1 (rule R281). -/
theorem step_readPm_busy {w : Width} {a : Word} {off : Nat} (ht : target s.cfg w a = .pm off) (hb : s.busy = true)
    (h : s.inputs = .host (.read w a) :: rest) :
    step s = .next ((s.withInputs rest).respond (.data (w.clip (Config.busyRead s.draws)))).drawn := by
  simp only [step_read h, hostRead, State.withInputs_cfg, ht, State.withInputs_busy, hb, if_true,
    State.withInputs_draws]

end Sys2Proof.Machine
end

