-- ==== Sys2Proof/Laws/Decode.lean ====
section
/-! SUPPORT. The laws of the decoder and the encoder. -/

namespace Sys2Proof

/-- A word is its two fields (rule R101). -/
theorem rsv_append_op (w : Word) : rsvField w ++ opField w = w := by
  have h (i : Nat) : BitVec.getLsbD (w := 24 + 8) (rsvField w ++ opField w) i = w.getLsbD i := by
    rw [BitVec.getLsbD_append]
    simp only [rsvField, opField, BitVec.getLsbD_extractLsb']
    grind
  exact BitVec.eq_of_getLsbD_eq (fun i _ => h i)

/-- The value of a word by its two fields. -/
theorem toNat_fields (w : Word) : w.toNat = (rsvField w).toNat * 256 + (opField w).toNat := by
  simp only [rsvField, opField, BitVec.extractLsb'_toNat]
  have := w.isLt
  omega

end Sys2Proof
end

