-- ==== Sys2Proof/Laws/Memory.lean ====
section
/-! SUPPORT. The laws of pixel memory: what each operation does to each byte, and that each keeps the
canonical form. -/

namespace Sys2Proof.Machine.Memory

theorem find_put (m : Memory) (a b : Nat) (v : Byte) :
    (m.put a v).find b = if b = a then some v else m.find b := by
  induction m with
  | nil => by_cases hb : b = a <;> simp [put, find, hb, unlisted, Ne.symm]
  | cons c m ih =>
    unfold put
    split
    · by_cases hb : b = a
      · simp [find, hb]
      · simp [find, hb, Ne.symm hb]
    · split
      · subst_vars
        by_cases hb : b = c.1
        · simp [find, hb]
        · simp [find, hb, Ne.symm hb]
      · by_cases hc : c.1 = b
        · have : b ≠ a := by omega
          simp [find, hc, this]
        · simp [find, hc, ih]

/-- A byte write is read back, and every other byte keeps its value. -/
theorem byte_put (m : Memory) (a b : Nat) (v : Byte) :
    (m.put a v).byte b = if b = a then v else m.byte b := by
  unfold byte
  rw [find_put]
  split <;> simp

/-- A byte write keeps the canonical form. -/
theorem wf_put (m : Memory) (a : Nat) (v : Byte) (h : m.wf = true) : (m.put a v).wf = true := by
  induction m with
  | nil => simp [put, wf, unlisted]
  | cons c m ih =>
    have ih := ih (by cases m <;> simp_all [wf])
    unfold put
    split
    · simp_all [wf, unlisted]
    · split
      · cases m <;> simp_all [wf, unlisted]
      · cases m with
        | nil => simp [put, wf, unlisted]; omega
        | cons d m =>
          have hcd : c.1 < d.1 := by simp [wf, unlisted] at h; exact h.1
          unfold put at ih ⊢
          split
          · simp_all [wf, unlisted]
            omega
          · split
            · cases m <;> simp_all [wf, unlisted]
            · simp_all [wf, unlisted]

theorem within_put (m : Memory) (a n : Nat) (v : Byte) (h : m.within n = true) (ha : a < n) :
    (m.put a v).within n = true := by
  induction m with
  | nil => simpa [put, within] using ha
  | cons c m ih =>
    simp only [within, List.all_cons, Bool.and_eq_true, decide_eq_true_eq] at h
    unfold put
    split
    · simp [within, ha, h.1]; simpa [within] using h.2
    · split
      · simp [within, ha]; simpa [within] using h.2
      · have := ih h.2
        simp only [within, List.all_cons, Bool.and_eq_true, decide_eq_true_eq] at this ⊢
        exact ⟨h.1, this⟩

/-- The canonical form determines the list: two canonical memories with the same bytes listed are equal. -/
theorem ext_of_find : ∀ (m m' : Memory), m.wf = true → m'.wf = true → (∀ a, m.find a = m'.find a) → m = m' := by
  have low : ∀ (m : Memory) (c : Host.Cell) (a : Nat), Memory.wf (c :: m) = true → a ≤ c.1 → m.find a = none := by
    intro m
    induction m with
    | nil => intros; rfl
    | cons d m ih =>
      intro c a h ha
      simp only [wf, Bool.and_eq_true, decide_eq_true_eq] at h
      rw [find, if_neg (by omega)]
      exact ih d a h.2 (by omega)
  intro m
  induction m with
  | nil =>
    intro m' _ h' hf
    cases m' with
    | nil => rfl
    | cons d m' =>
      have := hf d.1
      simp [find, unlisted] at this
  | cons c m ih =>
    intro m' h h' hf
    cases m' with
    | nil =>
      have := hf c.1
      simp [find, unlisted] at this
    | cons d m' =>
      have hc := hf c.1
      have hd := hf d.1
      rw [find, if_pos rfl, find] at hc
      rw [find, find, if_pos rfl] at hd
      have hcd : c.1 = d.1 := by
        by_contra hne
        rw [if_neg (Ne.symm hne)] at hc
        rw [if_neg hne] at hd
        rcases Nat.lt_or_gt_of_ne hne with hlt | hlt
        · rw [low m' d c.1 h' (by omega)] at hc; simp at hc
        · rw [low m c d.1 h (by omega)] at hd; simp at hd
      rw [if_pos hcd.symm] at hc
      have hcd2 : c = d := Prod.ext hcd (by simpa using hc)
      subst hcd2
      congr 1
      refine ih m' (by cases m <;> simp_all [wf]) (by cases m' <;> simp_all [wf]) (fun a => ?_)
      by_cases ha : a ≤ c.1
      · rw [low m c a h ha, low m' c a h' ha]
      · have := hf a
        rwa [find, find, if_neg (by omega), if_neg (by omega)] at this

theorem wf_write (m : Memory) (a n v : Nat) (h : m.wf = true) : (m.write a n v).wf = true := by
  induction n generalizing m a v with
  | zero => exact h
  | succ n ih => exact ih _ _ _ (wf_put _ _ _ h)

theorem within_write (m : Memory) (a n v size : Nat) (h : m.within size = true) (ha : a + n ≤ size) :
    (m.write a n v).within size = true := by
  induction n generalizing m a v with
  | zero => exact h
  | succ n ih => exact ih _ _ _ (within_put _ _ _ _ h (by omega)) (by omega)

/-- `MemWrite(a, n, v)` changes exactly the bytes a … a + n − 1, to the bytes of v, little-endian (rule R14). -/
theorem byte_write (m : Memory) (a n v b : Nat) :
    (m.write a n v).byte b =
      if a ≤ b ∧ b < a + n then BitVec.ofNat 8 (v / 256 ^ (b - a)) else m.byte b := by
  induction n generalizing m a v with
  | zero =>
    rw [if_neg (by omega)]
    rfl
  | succ n ih =>
    rw [write, ih, byte_put]
    by_cases h1 : a + 1 ≤ b ∧ b < a + 1 + n
    · rw [if_pos h1, if_pos (by omega), Nat.div_div_eq_div_mul, ← Nat.pow_succ']
      congr 3
      omega
    · rw [if_neg h1]
      by_cases h2 : b = a
      · rw [if_pos h2, if_pos (by omega), h2]
        simp
      · rw [if_neg h2, if_neg (by omega)]

/-- `MemRead` depends only on the bytes it reads. -/
theorem read_congr (m m' : Memory) (a n : Nat) (h : ∀ b, a ≤ b → b < a + n → m.byte b = m'.byte b) :
    m.read a n = m'.read a n := by
  induction n generalizing a with
  | zero => rfl
  | succ n ih => rw [read, read, h a (by omega) (by omega), ih (a + 1) (fun b h1 h2 => h b (by omega) (by omega))]

theorem read_lt (m : Memory) (a n : Nat) : m.read a n < 256 ^ n := by
  induction n generalizing a with
  | zero => simp [read]
  | succ n ih =>
    have h1 := ih (a + 1)
    have h2 := (m.byte a).isLt
    rw [read, Nat.pow_succ]
    omega

/-- A read of the bytes just written returns the low 8n bits of the value. -/
theorem read_write_same (m : Memory) (a n v : Nat) :
    (m.write a n v).read a n = v % 256 ^ n := by
  have key : ∀ (k : Nat) (m' : Memory) (b w : Nat),
      (∀ c, b ≤ c → c < b + k → m'.byte c = BitVec.ofNat 8 (w / 256 ^ (c - b))) → m'.read b k = w % 256 ^ k := by
    intro k
    induction k with
    | zero => intros; simp [read, Nat.mod_one]
    | succ k ih =>
      intro m' b w hb
      have h0 := hb b (by omega) (by omega)
      have h1 := ih m' (b + 1) (w / 256) (fun c h2 h3 => by
        rw [hb c (by omega) (by omega), Nat.div_div_eq_div_mul, ← Nat.pow_succ']
        congr 3
        omega)
      rw [read, h0, h1, Nat.pow_succ, Nat.mul_comm (256 ^ k) 256, Nat.mod_mul]
      simp
  refine key n _ a v (fun c h1 h2 => ?_)
  rw [byte_write, if_pos ⟨h1, h2⟩]

theorem read_write_disjoint (m : Memory) (a n v b k : Nat) (hd : b + k ≤ a ∨ a + n ≤ b) :
    (m.write a n v).read b k = m.read b k :=
  read_congr _ _ _ _ (fun c h1 h2 => by rw [byte_write, if_neg (by omega)])

theorem wf_scramble (d : Nat) (m : Memory) (a n : Nat) (h : m.wf = true) : (m.scramble d a n).wf = true := by
  induction n with
  | zero => exact h
  | succ n ih => exact wf_put _ _ _ ih

theorem within_scramble (d : Nat) (m : Memory) (a n size : Nat) (h : m.within size = true) (ha : a + n ≤ size) :
    (m.scramble d a n).within size = true := by
  induction n with
  | zero => exact h
  | succ n ih => exact within_put _ _ _ _ (ih (by omega)) (by omega)

/-- A reset during a pass leaves free values in the n bytes from a, and every other byte as it was
(rule R273). -/
theorem byte_scramble (d : Nat) (m : Memory) (a n b : Nat) :
    (m.scramble d a n).byte b = if a ≤ b ∧ b < a + n then Config.abandonedByte d b else m.byte b := by
  induction n with
  | zero =>
    rw [if_neg (by omega)]
    rfl
  | succ n ih =>
    rw [scramble, byte_put, ih]
    by_cases hb : b = a + n
    · rw [if_pos hb, if_pos (by omega), hb]
    · rw [if_neg hb]
      by_cases h2 : a ≤ b ∧ b < a + n
      · rw [if_pos h2, if_pos (by omega)]
      · rw [if_neg h2, if_neg (by omega)]

theorem wf_putPixel (m : Memory) (a : Nat) (p : Pixel) (h : m.wf = true) : (m.putPixel a p).wf = true :=
  wf_write _ _ _ _ h

theorem within_putPixel (m : Memory) (a : Nat) (p : Pixel) (size : Nat) (h : m.within size = true) (ha : a + 4 ≤ size) :
    (m.putPixel a p).within size = true :=
  within_write _ _ _ _ _ h ha

/-- The pixel word read back is the pixel written (rules R78, R79). -/
theorem ofWord_toWord (p : Pixel) : Pixel.ofWord p.toWord = p := by
  obtain ⟨r, g, b, a⟩ := p
  simp only [Pixel.ofWord, Pixel.toWord, Pixel.mk.injEq]
  have h (i : Nat) : BitVec.getLsbD (w := 8 + 8 + 8 + 8) (a ++ b ++ g ++ r) i =
      if i < 8 then r.getLsbD i else if i < 16 then g.getLsbD (i - 8)
        else if i < 24 then b.getLsbD (i - 16) else a.getLsbD (i - 24) := by
    rw [BitVec.getLsbD_append, BitVec.getLsbD_append, BitVec.getLsbD_append]
    grind
  refine ⟨?_, ?_, ?_, ?_⟩ <;> ext i hi <;> rw [BitVec.getElem_extractLsb'] <;> refine (h _).trans ?_ <;> grind

/-- The number of a pixel's word (rule R79). -/
theorem toNat_toWord (p : Pixel) :
    p.toWord.toNat = p.r.toNat + 256 * p.g.toNat + 65536 * p.b.toNat + 16777216 * p.a.toNat := by
  simp only [Pixel.toWord, BitVec.toNat_append]
  have h1 := p.r.isLt
  have h2 := p.g.isLt
  have h3 := p.b.isLt
  rw [← Nat.shiftLeft_add_eq_or_of_lt (by omega), ← Nat.shiftLeft_add_eq_or_of_lt (by omega),
    ← Nat.shiftLeft_add_eq_or_of_lt (by omega)]
  simp only [Nat.shiftLeft_eq]
  omega

/-- A pixel write puts R, G, B, A at rising offsets and changes no other byte (rules R78, R184). -/
theorem byte_putPixel (m : Memory) (a b : Nat) (p : Pixel) : (m.putPixel a p).byte b =
    if b = a then p.r else if b = a + 1 then p.g else if b = a + 2 then p.b else if b = a + 3 then p.a
    else m.byte b := by
  have h1 := p.r.isLt
  have h2 := p.g.isLt
  have h3 := p.b.isLt
  have h4 := p.a.isLt
  rw [putPixel, byte_write, toNat_toWord]
  by_cases hb : a ≤ b ∧ b < a + 4
  · rw [if_pos hb]
    obtain ⟨k, rfl⟩ : ∃ k, b = a + k := ⟨b - a, by omega⟩
    have hk : k = 0 ∨ k = 1 ∨ k = 2 ∨ k = 3 := by omega
    rw [Nat.add_sub_cancel_left]
    apply BitVec.eq_of_toNat_eq
    rw [BitVec.toNat_ofNat]
    rcases hk with rfl | rfl | rfl | rfl
    · rw [Nat.add_zero, if_pos rfl]; omega
    · rw [if_neg (by omega), if_pos rfl]; omega
    · rw [if_neg (by omega), if_neg (by omega), if_pos rfl]; omega
    · rw [if_neg (by omega), if_neg (by omega), if_neg (by omega), if_pos rfl]; omega
  · rw [if_neg hb, if_neg (by omega), if_neg (by omega), if_neg (by omega), if_neg (by omega)]

/-- A pixel written is read back. -/
theorem pixel_putPixel_same (m : Memory) (a : Nat) (p : Pixel) : (m.putPixel a p).pixel a = p := by
  have h := p.toWord.isLt
  rw [pixel, putPixel, read_write_same, Nat.mod_eq_of_lt (by omega), BitVec.ofNat_toNat, BitVec.setWidth_eq,
    ofWord_toWord]

/-- A pixel elsewhere is not changed. -/
theorem pixel_putPixel_disjoint (m : Memory) (a b : Nat) (p : Pixel) (hd : b + 4 ≤ a ∨ a + 4 ≤ b) :
    (m.putPixel a p).pixel b = m.pixel b := by
  rw [pixel, putPixel, read_write_disjoint _ _ _ _ _ _ hd, pixel]

end Sys2Proof.Machine.Memory
end

