-- ==== Sys2Proof/Laws/Pass.lean ====
section
/-! SUPPORT. The laws of the raster scan and the diffusion (42_dither.md rules R178 to R183), in every mode. -/

namespace Sys2Proof.Machine

variable {α : Type} (A : Arith α)

/-- A target is a pixel exactly when its coordinates are in bounds, and then it has that pixel's index
(rules R16, R181). -/
theorem targetIndex_eq_some {w h j : Nat} {nx ny : Int} :
    targetIndex w h nx ny = some j ↔ ∃ x y : Nat, nx = x ∧ ny = y ∧ x < w ∧ y < h ∧ j = y * w + x := by
  unfold targetIndex
  split
  · rename_i hb
    obtain ⟨h1, h2, h3, h4⟩ := hb
    obtain ⟨x, rfl⟩ := Int.eq_ofNat_of_zero_le h1
    obtain ⟨y, rfl⟩ := Int.eq_ofNat_of_zero_le h3
    have e : ((y : Int) * w + x).toNat = y * w + x := by
      rw [← Int.natCast_mul, ← Int.natCast_add, Int.toNat_natCast]
    rw [Option.some.injEq, e]
    constructor
    · intro hj
      exact ⟨x, y, rfl, rfl, by omega, by omega, hj.symm⟩
    · rintro ⟨x', y', hx, hy, -, -, rfl⟩
      rw [Int.ofNat_inj.1 hx, Int.ofNat_inj.1 hy]
  · rename_i hb
    constructor
    · intro h; cases h
    · rintro ⟨x, y, rfl, rfl, hx, hy, -⟩
      exact absurd ⟨by omega, by omega, by omega, by omega⟩ hb

/-- An index below w·h is that of one pixel, and the index of a pixel is below w·h (rule R16). -/
theorem index_lt {w h x y : Nat} (hx : x < w) (hy : y < h) : y * w + x < w * h := by
  have : (y + 1) * w ≤ h * w := Nat.mul_le_mul_right w hy
  rw [Nat.add_mul, Nat.one_mul] at this
  rw [Nat.mul_comm w h]
  omega

theorem index_div {w x : Nat} (y : Nat) (hx : x < w) : (y * w + x) / w = y := by
  rw [Nat.mul_comm, Nat.mul_add_div (by omega), Nat.div_eq_of_lt hx, Nat.add_zero]

theorem index_mod {w x : Nat} (y : Nat) (hx : x < w) : (y * w + x) % w = x := by
  rw [Nat.mul_comm, Nat.mul_add_mod, Nat.mod_eq_of_lt hx]

theorem mod_div_bounds {w h i : Nat} (hi : i < w * h) : i % w < w ∧ i / w < h ∧ i / w * w + i % w = i := by
  have hw : 0 < w := by
    rcases Nat.eq_zero_or_pos w with rfl | h
    · simp at hi
    · exact h
  exact ⟨Nat.mod_lt _ hw, Nat.div_lt_of_lt_mul hi, Nat.div_add_mod' i w⟩

/-- The scanner visits the indices in rising order: after index i comes i + 1, until w·h − 1 (rule R53). -/
theorem nextPos_index {w h x y : Nat} (hx : x < w) (hy : y < h) :
    nextPos w h x y =
      if y * w + x + 1 < w * h then some ((y * w + x + 1) % w, (y * w + x + 1) / w) else none := by
  have hlt := index_lt hx hy
  unfold nextPos
  by_cases h1 : x + 1 < w
  · have hlt' := index_lt h1 hy
    rw [if_pos h1, if_pos (by omega), Nat.add_assoc, index_div y h1, index_mod y h1]
  · have hx1 : y * w + x + 1 = (y + 1) * w := by rw [Nat.add_mul, Nat.one_mul]; omega
    rw [if_neg h1, hx1, Nat.mul_mod_left, Nat.mul_div_cancel _ (by omega)]
    by_cases h2 : y + 1 < h
    · rw [if_pos h2, if_pos (by rw [Nat.mul_comm w h]; exact Nat.mul_lt_mul_of_pos_right h2 (by omega))]
    · rw [if_neg h2, if_neg (by rw [Nat.mul_comm w h]; exact Nat.not_lt.2 (Nat.mul_le_mul_right w (by omega)))]

theorem diffuseTo_length (w h x y : Nat) (e : α) (eb : List α) (t : Int × Int × Nat) :
    (diffuseTo A w h x y e eb t).length = eb.length := by
  unfold diffuseTo
  split
  · exact List.length_modify ..
  · rfl

/-- A diffusion adds no entry and drops none (rule R181). -/
theorem diffuse_length (w h x y : Nat) (e : α) (eb : List α) : (diffuse A w h x y e eb).length = eb.length := by
  simp only [diffuse, diffusionTargets, List.foldl_cons, List.foldl_nil, diffuseTo_length]

/-- The one entry that a target's update changes. -/
theorem getElem?_diffuseTo (w h x y : Nat) (e : α) (eb : List α) (t : Int × Int × Nat) (j : Nat) :
    (diffuseTo A w h x y e eb t)[j]? =
      if targetIndex w h (x + t.1) (y + t.2.1) = some j then (eb[j]?).map (fun v => A.add v (A.term e t.2.2))
      else eb[j]? := by
  unfold diffuseTo
  split
  · rename_i k hk
    rw [hk, List.getElem?_modify]
    by_cases hkj : k = j
    · simp only [hkj, if_true, Option.map_eq_map]
    · simp only [hkj, Option.some.injEq, if_false, Option.map_eq_map, Option.map_id']
  · rename_i hk
    rw [hk, if_neg (by simp)]

/-- Each target lies after the pixel it comes from, so the entries up to that pixel keep their values
(rule R183). -/
theorem target_after {w h x y j : Nat} (hx : x < w) {t : Int × Int × Nat} (ht : t ∈ diffusionTargets)
    (hj : targetIndex w h (x + t.1) (y + t.2.1) = some j) : y * w + x < j := by
  obtain ⟨x', y', h1, h2, h3, -, rfl⟩ := targetIndex_eq_some.1 hj
  simp only [diffusionTargets, List.mem_cons, List.not_mem_nil, or_false] at ht
  rcases ht with rfl | rfl | rfl | rfl <;> simp only at h1 h2
  · have : y' = y := by omega
    subst this
    omega
  all_goals
    have : y' = y + 1 := by omega
    subst this
    rw [Nat.add_mul, Nat.one_mul]
    omega

theorem getElem?_diffuse_of_le {w h x y : Nat} (hx : x < w) (e : α) (eb : List α) {j : Nat} (hj : j ≤ y * w + x) :
    (diffuse A w h x y e eb)[j]? = eb[j]? := by
  have key : ∀ t ∈ diffusionTargets, ∀ eb : List α, (diffuseTo A w h x y e eb t)[j]? = eb[j]? := by
    intro t ht eb
    rw [getElem?_diffuseTo, if_neg]
    intro h
    have := target_after hx ht h
    omega
  have fold : ∀ (ts : List (Int × Int × Nat)), (∀ t ∈ ts, t ∈ diffusionTargets) → ∀ eb : List α,
      (ts.foldl (diffuseTo A w h x y e) eb)[j]? = eb[j]? := by
    intro ts
    induction ts with
    | nil => intros; rfl
    | cons t ts ih =>
      intro hts eb
      rw [List.foldl_cons, ih (fun u hu => hts u (List.mem_cons_of_mem _ hu)), key t (hts t List.mem_cons_self)]
  exact fold _ (fun _ h => h) eb

/-- A pixel whose EB entry is written has a level, and the diffused buffer has the same entries
(rules R178 to R181). -/
theorem scanPixel_eq_some {w h bits x y : Nat} {eb : List α} {new : Int} {eb' : List α} :
    scanPixel A w h bits x y eb = some (new, eb') ↔
      ∃ old, eb[y * w + x]? = some old ∧ new = A.quant old bits
        ∧ eb' = diffuse A w h x y (A.err old (A.quant old bits)) eb := by
  unfold scanPixel
  cases hold : eb[y * w + x]? with
  | none => simp
  | some old =>
    simp only [Option.some.injEq, Prod.mk.injEq]
    constructor
    · rintro ⟨rfl, rfl⟩; exact ⟨old, rfl, rfl, rfl⟩
    · rintro ⟨_, rfl, rfl, rfl⟩; exact ⟨rfl, rfl⟩

theorem scanPixel_some {w h x y : Nat} (bits : Nat) {eb : List α} (hi : y * w + x < eb.length) :
    ∃ new eb', scanPixel A w h bits x y eb = some (new, eb') ∧ eb'.length = eb.length := by
  refine ⟨_, _, (scanPixel_eq_some A).2 ⟨eb[y * w + x], List.getElem?_eq_getElem hi, rfl, rfl⟩, ?_⟩
  exact diffuse_length A _ _ _ _ _ _

/-- The loop of phase 2 takes one pixel at a time. -/
theorem scanLoop_succ {w h bits n i : Nat} {eb : List α} {new : Int} {eb' : List α}
    (hp : scanPixel A w h bits (i % w) (i / w) eb = some (new, eb')) :
    scanLoop A w h bits (n + 1) i eb = (scanLoop A w h bits n (i + 1) eb').map (fun levels => new :: levels) := by
  rw [scanLoop, hp]

/-- Over a buffer of w·h entries phase 2 has a level for each pixel. -/
theorem scanLoop_some (w h bits n i : Nat) (eb : List α) (hl : eb.length = w * h) (hn : i + n ≤ w * h) :
    ∃ levels, scanLoop A w h bits n i eb = some levels ∧ levels.length = n := by
  induction n generalizing i eb with
  | zero => exact ⟨[], rfl, rfl⟩
  | succ n ih =>
    have hb := mod_div_bounds (w := w) (h := h) (i := i) (by omega)
    obtain ⟨new, eb', hp, hl'⟩ := scanPixel_some A (w := w) (h := h) (x := i % w) (y := i / w) bits (eb := eb)
      (by rw [hb.2.2]; omega)
    obtain ⟨levels, h1, h2⟩ := ih (i + 1) eb' (by omega) (by omega)
    exact ⟨new :: levels, by rw [scanLoop_succ A hp, h1]; rfl, by simp [h2]⟩

end Sys2Proof.Machine
end

