-- ==== Sys2Proof/Laws/Engine.lean ====
section
/-! SUPPORT. What an accepted check gives, and what one engine step does in each phase
(42_dither.md rules R171, R176 to R186). -/

namespace Sys2Proof.Machine

/-- What acceptance says (rule R171). -/
theorem check_accept {s : State} : s.check = .accept ↔
    s.depthOk = true ∧ s.srcLen.toNat = s.W * s.H * 4 ∧ 0 < s.pixels ∧ s.W ≤ s.cfg.maxW ∧ s.H ≤ s.cfg.maxH
      ∧ s.srcBase.toNat % 4 = 0 ∧ s.dstBase.toNat % 4 = 0
      ∧ s.srcBase.toNat + 4 * s.pixels ≤ s.cfg.pmBytes ∧ s.dstBase.toNat + 4 * s.pixels ≤ s.cfg.pmBytes := by
  unfold State.check
  constructor
  · intro h
    simp only at h
    repeat' split at h
    all_goals cases h
    rename_i h1 h2 h3 h4 h5 h6
    refine ⟨by simpa using h1, by simpa using h2, by omega, by omega, by omega, by omega, by omega, by omega, by omega⟩
  · rintro ⟨h1, h2, h3, h4, h5, h6, h7, h8, h9⟩
    simp only
    rw [if_neg (by simp [h1]), if_neg (by simp [h2]), if_neg (by omega), if_neg (by omega), if_neg (by omega),
      if_neg (by omega)]

theorem accept_src {s : State} (h : s.check = .accept) {i : Nat} (hi : i < s.pixels) :
    s.srcPixel i + 4 ≤ s.cfg.pmBytes := by
  have := (check_accept.1 h).2.2.2.2.2.2.2.1
  unfold State.srcPixel
  omega

theorem accept_dst {s : State} (h : s.check = .accept) {i : Nat} (hi : i < s.pixels) :
    s.dstPixel i + 4 ≤ s.cfg.pmBytes := by
  have := (check_accept.1 h).2.2.2.2.2.2.2.2
  unfold State.dstPixel
  omega

variable {s : State}

theorem engineStep_idle (hp : s.phase = .idle) : engineStep s = .next s := by
  simp only [engineStep, hp]

/-- One iteration of phase 1 (rule R177). -/
theorem engineStep_init (hp : s.phase = .init) (hf : s.srcPixel s.cursor + 4 ≤ s.cfg.pmBytes) :
    engineStep s = .next
      (if s.cursor + 1 < s.pixels then
        (s.appendEb ((arithOf s.cfg).luma (s.pm.pixel (s.srcPixel s.cursor)))).nextIndex
      else (s.appendEb ((arithOf s.cfg).luma (s.pm.pixel (s.srcPixel s.cursor)))).startScan) := by
  have : s.pmHas (s.srcPixel s.cursor) 4 = true := by simpa [State.pmHas] using hf
  simp only [engineStep, hp, engineInit, this, Bool.not_true, Bool.false_eq_true, if_false]

/-- One iteration of phase 2 (rule R178). -/
theorem engineStep_scan (hp : s.phase = .scan) {new : Int} {eb : List NumWord}
    (hs : scanPixel (arithOf s.cfg) s.W s.H s.depth s.scanX.toNat s.scanY.toNat s.eb = some (new, eb)) :
    engineStep s = .next (match nextPos s.W s.H s.scanX.toNat s.scanY.toNat with
      | some (x, y) => (s.finalize new eb).moveScanner x y
      | none => (s.finalize new eb).startMat) := by
  simp only [engineStep, hp, engineScan, hs]
  cases nextPos s.W s.H s.scanX.toNat s.scanY.toNat <;> rfl

/-- One iteration of phase 3 (rules R184, R185). -/
theorem engineStep_mat (hp : s.phase = .mat) (hc : s.cursor < s.pixels) {q : QbEntry}
    (hq : s.qb[s.cursor]? = some q) (hf : s.dstPixel s.cursor + 4 ≤ s.cfg.pmBytes) :
    engineStep s = .next
      ((s.withPm (s.pm.putPixel (s.dstPixel s.cursor) (materialize q))).noteLevel (qbLevel q)).nextIndex := by
  have : s.pmHas (s.dstPixel s.cursor) 4 = true := by simpa [State.pmHas] using hf
  simp only [engineStep, hp, engineMat, hc, hq, this, if_true, Bool.not_true, Bool.false_eq_true, if_false]

/-- The completion step (rule R186). -/
theorem engineStep_done (hp : s.phase = .mat) (hc : s.pixels ≤ s.cursor) :
    engineStep s = .next s.completePass := by
  simp only [engineStep, hp, engineMat, Nat.not_lt.2 hc, if_false]

/-- An engine step keeps WERR, and RANGE but for the completion step (rules R39, R40, R186). -/
theorem engineStep_flags {t : State} (h : engineStep s = .next t) :
    t.werr = s.werr ∧ (t.range = s.range ∧ ¬(s.phase = .mat ∧ s.pixels ≤ s.cursor)
      ∨ s.phase = .mat ∧ s.pixels ≤ s.cursor ∧ t.range = (s.range || s.saturated)) := by
  unfold engineStep at h
  cases hp : s.phase with
  | idle => simp only [hp] at h; cases h; exact ⟨rfl, .inl ⟨rfl, by rintro ⟨h, -⟩; cases h⟩⟩
  | init =>
    simp only [hp, engineInit] at h
    split at h
    · cases h
    · cases h; split <;> exact ⟨rfl, .inl ⟨rfl, by rintro ⟨h, -⟩; cases h⟩⟩
  | scan =>
    simp only [hp, engineScan] at h
    split at h
    · cases h
    · split at h <;> cases h <;> exact ⟨rfl, .inl ⟨rfl, by rintro ⟨h, -⟩; cases h⟩⟩
  | mat =>
    simp only [hp, engineMat] at h
    split at h
    · split at h
      · cases h
      · split at h
        · cases h
        · cases h; exact ⟨rfl, .inl ⟨rfl, by rintro ⟨-, h⟩; omega⟩⟩
    · cases h; exact ⟨rfl, .inr ⟨rfl, by omega, rfl⟩⟩

end Sys2Proof.Machine
end

