-- ==== Sys2Proof/Laws/Exec.lean ====
section
/-! SUPPORT. What each command does, over the shared operations, and the arithmetic of each mode by name. -/

namespace Sys2Proof.Machine

theorem arithOf_fix {c : Config} (h : c.numFmt = .fix) : arithOf c = fixArith c.fracBits := by
  simp only [arithOf, h]

theorem arithOf_fp64 {c : Config} (h : c.numFmt = .fp64) : arithOf c = fp64Arith := by
  simp only [arithOf, h]

theorem depthOk_iff (s : State) : s.depthOk = true ↔ 1 ≤ s.bits.toNat ∧ s.bits.toNat ≤ 8 := by
  simp only [State.depthOk, Bool.and_eq_true, decide_eq_true_eq]
  rfl

theorem exec_nop (s : State) : exec .nop s = .next s.finish := rfl

theorem exec_luma (s : State) : exec .luma s = .next (s.setLres ((arithOf s.cfg).luma s.opaPixel)).finish := rfl

theorem exec_quant_badDepth {s : State} (h : s.depthOk = false) : exec .quant s = .next (s.raise .invalidParam) := by
  simp only [exec, execQuant, h, Bool.not_false, if_true]

theorem exec_quant_badOperand {s : State} (h : s.depthOk = true) (ho : operandOk s.cfg s.qin = false) :
    exec .quant s = .next (s.raise .operand) := by
  simp only [exec, execQuant, h, ho, Bool.not_true, Bool.false_eq_true, if_false, Bool.not_false, if_true]

theorem exec_quant_ok {s : State} (h : s.depthOk = true) (ho : operandOk s.cfg s.qin = true) :
    exec .quant s = .next (s.setQres ((arithOf s.cfg).quant s.qin s.depth)).finish := by
  simp only [exec, execQuant, h, ho, Bool.not_true, Bool.false_eq_true, if_false]

theorem exec_dither_reject {s : State} {e : ErrCode} (h : s.check = .reject e) :
    exec .dither s = .next (s.raise e) := by
  simp only [exec, execDither, h]

theorem exec_dither_empty {s : State} (h : s.check = .empty) : exec .dither s = .next s.finish := by
  simp only [exec, execDither, h]

theorem exec_dither_accept {s : State} (h : s.check = .accept) : exec .dither s = .next s.beginPass := by
  simp only [exec, execDither, h]

/-- Every command gives a next state, one of five shapes. -/
theorem exec_cases (i : Instr) (s : State) :
    (∃ e, exec i s = .next (s.raise e)) ∨ exec i s = .next s.finish
      ∨ (i = .luma ∧ exec i s = .next (s.setLres ((arithOf s.cfg).luma s.opaPixel)).finish)
      ∨ (i = .quant ∧ exec i s = .next (s.setQres ((arithOf s.cfg).quant s.qin s.depth)).finish)
      ∨ (i = .dither ∧ s.check = .accept ∧ exec i s = .next s.beginPass) := by
  cases i with
  | nop => exact .inr (.inl rfl)
  | luma => exact .inr (.inr (.inl ⟨rfl, rfl⟩))
  | quant =>
    cases h : s.depthOk
    · exact .inl ⟨_, exec_quant_badDepth h⟩
    · cases ho : operandOk s.cfg s.qin
      · exact .inl ⟨_, exec_quant_badOperand h ho⟩
      · exact .inr (.inr (.inr (.inl ⟨rfl, exec_quant_ok h ho⟩)))
  | dither =>
    cases h : s.check with
    | reject e => exact .inl ⟨e, exec_dither_reject h⟩
    | empty => exact .inr (.inl (exec_dither_empty h))
    | accept => exact .inr (.inr (.inr (.inr ⟨rfl, rfl, exec_dither_accept h⟩)))

end Sys2Proof.Machine
end

