-- ==== Sys2Proof/Laws/F64.lean ====
section
/-! SUPPORT. The laws of binary64: the fields of a packed pattern, the order of magnitudes, and the
monotonicity and exactness of the rounding (rule R13). -/

namespace Sys2Proof.Machine.F64

theorem f64one_pos : 0 < one := by
  unfold one
  exact Nat.two_pow_pos _

/-- Twice the distance of `nearestEven n d` from `n / d` is at most one step. -/
theorem nearestEven_near (n d : Nat) (hd : 0 < d) :
    2 * n ≤ 2 * (d * nearestEven n d) + d ∧ 2 * (d * nearestEven n d) ≤ 2 * n + d := by
  have hm := Nat.div_add_mod n d
  have hlt := Nat.mod_lt n hd
  unfold nearestEven
  generalize n / d = q at *
  generalize n % d = r at *
  simp only
  split
  · rw [Nat.mul_add, Nat.mul_one]; omega
  · omega

/-- At a tie the even integer is taken. -/
theorem nearestEven_tie (n d : Nat) (hd : 0 < d)
    (h : 2 * n = 2 * (d * nearestEven n d) + d ∨ 2 * (d * nearestEven n d) = 2 * n + d) :
    nearestEven n d % 2 = 0 := by
  have hm := Nat.div_add_mod n d
  have hlt := Nat.mod_lt n hd
  unfold nearestEven at h ⊢
  generalize n / d = q at *
  generalize n % d = r at *
  simp only at h ⊢
  split at h
  · rename_i hc
    rw [if_pos hc]
    rw [Nat.mul_add, Nat.mul_one] at h
    omega
  · rename_i hc
    rw [if_neg hc]
    omega

/-- A larger quotient rounds to an integer at least as large. -/
theorem nearestEven_mono {n d n' d' : Nat} (hd : 0 < d) (hd' : 0 < d') (h : n * d' ≤ n' * d) :
    nearestEven n d ≤ nearestEven n' d' := by
  by_contra hlt
  rw [Nat.not_le] at hlt
  obtain ⟨a1, a2⟩ := nearestEven_near n d hd
  obtain ⟨b1, b2⟩ := nearestEven_near n' d' hd'
  have t1 := nearestEven_tie n d hd
  have t2 := nearestEven_tie n' d' hd'
  generalize nearestEven n d = q at *
  generalize nearestEven n' d' = q' at *
  -- 2 d q ≤ 2 n + d and 2 n' ≤ 2 d' q' + d', so q ≤ q' + 1, and equality makes both ties
  have e1 : 2 * (d * q) * d' ≤ 2 * (n * d') + d * d' := by nlinarith
  have e2 : 2 * (n' * d) ≤ 2 * (d' * q') * d + d' * d := by nlinarith
  have hpos : 0 < d * d' := Nat.mul_pos hd hd'
  have e3 : 2 * (d * d') * q ≤ 2 * (d * d') * (q' + 1) := by nlinarith
  have hq : q = q' + 1 := by
    have := Nat.le_of_mul_le_mul_left e3 (by omega)
    omega
  subst hq
  have f1 : 2 * (d * (q' + 1)) = 2 * n + d := by
    have : (2 * n + d) * d' ≤ 2 * (d * (q' + 1)) * d' := by nlinarith
    have := Nat.le_of_mul_le_mul_right this hd'
    omega
  have f2 : 2 * n' = 2 * (d' * q') + d' := by
    have : (2 * (d' * q') + d') * d ≤ 2 * n' * d := by nlinarith
    have := Nat.le_of_mul_le_mul_right this hd
    omega
  have g1 := t1 (.inr f1)
  have g2 := t2 (.inl f2)
  omega

/-- An exact quotient is not changed by rounding. -/
theorem nearestEven_exact (q d : Nat) (hd : 0 < d) : nearestEven (q * d) d = q := by
  unfold nearestEven
  rw [Nat.mul_mod_left, Nat.mul_div_cancel _ hd]
  exact if_neg (by omega)

/-- The magnitude of the pattern with these low 63 bits, in units of 2^−1074.
Irreducible for the same reason as `one`. -/
@[irreducible] def magBits (m : Nat) : Nat :=
  if m / 2 ^ 52 = 0 then m % 2 ^ 52 else (2 ^ 52 + m % 2 ^ 52) * 2 ^ (m / 2 ^ 52 - 1)

theorem pack_toNat (s : Bool) (m : Nat) (hm : m < 2 ^ 63) :
    (pack s m).toNat = (if s then 2 ^ 63 else 0) + m := by
  rw [pack, BitVec.toNat_ofNat]
  cases s <;> simp <;> omega

theorem expField_pack (s : Bool) (m : Nat) (hm : m < 2 ^ 63) : expField (pack s m) = m / 2 ^ 52 := by
  rw [expField, BitVec.extractLsb'_toNat, pack_toNat s m hm, Nat.shiftRight_eq_div_pow]
  cases s <;> simp <;> omega

theorem fracField_pack (s : Bool) (m : Nat) (hm : m < 2 ^ 63) : fracField (pack s m) = m % 2 ^ 52 := by
  rw [fracField, BitVec.extractLsb'_toNat, pack_toNat s m hm]
  cases s <;> simp <;> omega

theorem neg_pack (s : Bool) (m : Nat) (hm : m < 2 ^ 63) : neg (pack s m) = s := by
  rw [neg, BitVec.msb_eq_decide, pack_toNat s m hm]
  cases s <;> simp <;> omega

theorem mag_pack (s : Bool) (m : Nat) (hm : m < 2 ^ 63) : mag (pack s m) = magBits m := by
  rw [mag, magBits, expField_pack s m hm, fracField_pack s m hm]

theorem isNumeric_pack (s : Bool) (m : Nat) (hm : m < 0x7FF * 2 ^ 52) : isNumeric (pack s m) = true := by
  rw [isNumeric, expField_pack s m (by omega), bne_iff_ne]
  omega

/-- Every pattern is its sign and its low 63 bits. -/
theorem pack_self (w : NumWord) : pack (neg w) (w.toNat % 2 ^ 63) = w := by
  apply BitVec.eq_of_toNat_eq
  rw [pack_toNat _ _ (by omega), neg, BitVec.msb_eq_decide]
  have := w.isLt
  by_cases h : 2 ^ 63 ≤ w.toNat
  · rw [decide_eq_true (by simpa using h), if_pos rfl]; omega
  · rw [decide_eq_false (by simpa using h), if_neg (by decide)]; omega

theorem isNumeric_iff (w : NumWord) : isNumeric w = true ↔ w.toNat % 2 ^ 63 < 0x7FF * 2 ^ 52 := by
  have h := expField_pack (neg w) (w.toNat % 2 ^ 63) (by omega)
  rw [pack_self] at h
  rw [isNumeric, bne_iff_ne, h]
  omega

theorem mag_eq (w : NumWord) : mag w = magBits (w.toNat % 2 ^ 63) := by
  have h := mag_pack (neg w) (w.toNat % 2 ^ 63) (by omega)
  rwa [pack_self] at h

/-- A pattern with k dropped places and the significand q has the magnitude q·2^k. -/
theorem magBits_of (k q : Nat) (h : q ≤ 2 ^ 53) (hk : k = 0 ∨ 2 ^ 52 ≤ q) :
    magBits (k * 2 ^ 52 + q) = q * 2 ^ k := by
  unfold magBits
  by_cases h1 : q < 2 ^ 52
  · have hk0 : k = 0 := by omega
    subst hk0
    rw [if_pos (by omega)]
    simp
    omega
  · by_cases h2 : q < 2 ^ 53
    · have e1 : (k * 2 ^ 52 + q) / 2 ^ 52 = k + 1 := by omega
      have e2 : (k * 2 ^ 52 + q) % 2 ^ 52 = q - 2 ^ 52 := by omega
      have e3 : 2 ^ 52 + (q - 2 ^ 52) = q := by omega
      rw [e1, e2, if_neg (Nat.succ_ne_zero _), Nat.add_sub_cancel, e3]
    · have hq : q = 2 ^ 53 := by omega
      have e1 : (k * 2 ^ 52 + q) / 2 ^ 52 = k + 2 := by omega
      have e2 : (k * 2 ^ 52 + q) % 2 ^ 52 = 0 := by omega
      have e3 : k + 2 - 1 = k + 1 := by omega
      rw [e1, e2, if_neg (Nat.succ_ne_zero _), e3, hq, Nat.add_zero, ← Nat.pow_add, ← Nat.pow_add,
        show 52 + (k + 1) = 53 + k by omega]

/-- Magnitudes are ordered as their low 63 bits. -/
theorem magBits_strictMono {m m' : Nat} (h : m < m') : magBits m < magBits m' := by
  have step : ∀ m, magBits m < magBits (m + 1) := by
    intro m
    have hm := Nat.div_add_mod m (2 ^ 52)
    generalize he : m / 2 ^ 52 = e at hm
    generalize hf : m % 2 ^ 52 = f at hm
    have hf' : f < 2 ^ 52 := by omega
    cases e with
    | zero =>
      have a := magBits_of 0 f (by omega) (.inl rfl)
      have b := magBits_of 0 (f + 1) (by omega) (.inl rfl)
      rw [show m = 0 * 2 ^ 52 + f by omega, show 0 * 2 ^ 52 + f + 1 = 0 * 2 ^ 52 + (f + 1) by omega, a, b]
      omega
    | succ e =>
      have a := magBits_of e (2 ^ 52 + f) (by omega) (.inr (by omega))
      have b := magBits_of e (2 ^ 52 + f + 1) (by omega) (.inr (by omega))
      rw [show m = e * 2 ^ 52 + (2 ^ 52 + f) by omega,
        show e * 2 ^ 52 + (2 ^ 52 + f) + 1 = e * 2 ^ 52 + (2 ^ 52 + f + 1) by omega, a, b]
      exact Nat.mul_lt_mul_of_pos_right (by omega) (Nat.pow_pos (by decide))
  induction h with
  | refl => exact step m
  | step _ ih => exact Nat.lt_trans ih (step _)

theorem magBits_mono {m m' : Nat} (h : m ≤ m') : magBits m ≤ magBits m' := by
  rcases Nat.lt_or_eq_of_le h with h | h
  · exact Nat.le_of_lt (magBits_strictMono h)
  · rw [h]

theorem magBits_le_iff {m m' : Nat} : magBits m ≤ magBits m' ↔ m ≤ m' := by
  constructor
  · intro h
    by_contra hlt
    have := magBits_strictMono (Nat.not_le.1 hlt)
    omega
  · exact magBits_mono

/-- The significand before rounding: with k dropped places, `n / d` lies below 2^53·2^k, and not below
2^52·2^k unless k = 0. -/
theorem dropped_bounds (n d : Nat) (hd : 0 < d) :
    n < 2 ^ 53 * (d * 2 ^ dropped n d) ∧ (dropped n d = 0 ∨ 2 ^ 52 * (d * 2 ^ dropped n d) ≤ n) := by
  have hm := Nat.div_add_mod n d
  have hlt := Nat.mod_lt n hd
  unfold dropped
  generalize hq : n / d = q at *
  by_cases h0 : q = 0
  · subst h0
    simp
    omega
  · have l1 : 2 ^ q.log2 ≤ q := Nat.log2_self_le h0
    have l2 : q < 2 ^ (q.log2 + 1) := Nat.lt_log2_self
    generalize q.log2 = l at *
    by_cases hl : l ≤ 52
    · have hz : l - 52 = 0 := by omega
      rw [hz]
      refine ⟨?_, .inl rfl⟩
      have : q < 2 ^ 53 := lt_of_lt_of_le l2 (Nat.pow_le_pow_right (by decide) (by omega))
      have : (q + 1) * d ≤ 2 ^ 53 * d := Nat.mul_le_mul_right d (by omega)
      have e : (q + 1) * d = d * q + d := by ring
      simp only [Nat.pow_zero, Nat.mul_one]
      omega
    · have e1 : 2 ^ l = 2 ^ 52 * 2 ^ (l - 52) := by rw [← Nat.pow_add]; congr 1; omega
      have e2 : 2 ^ (l + 1) = 2 ^ 53 * 2 ^ (l - 52) := by rw [← Nat.pow_add]; congr 1; omega
      rw [e1] at l1
      rw [e2] at l2
      generalize 2 ^ (l - 52) = p at *
      refine ⟨?_, .inr ?_⟩
      · have h : (q + 1) * d ≤ 2 ^ 53 * p * d := Nat.mul_le_mul_right d l2
        have e : (q + 1) * d = d * q + d := by ring
        have e' : 2 ^ 53 * p * d = 2 ^ 53 * (d * p) := by ring
        omega
      · have h : 2 ^ 52 * p * d ≤ q * d := Nat.mul_le_mul_right d l1
        have e : q * d = d * q := by ring
        have e' : 2 ^ 52 * p * d = 2 ^ 52 * (d * p) := by ring
        omega

/-- The significand after rounding. -/
theorem signif_bounds (n d : Nat) (hd : 0 < d) :
    nearestEven n (d * 2 ^ dropped n d) ≤ 2 ^ 53
      ∧ (dropped n d = 0 ∨ 2 ^ 52 ≤ nearestEven n (d * 2 ^ dropped n d)) := by
  obtain ⟨h1, h2⟩ := dropped_bounds n d hd
  have hD : 0 < d * 2 ^ dropped n d := Nat.mul_pos hd (Nat.pow_pos (by decide))
  generalize hk : dropped n d = k at *
  generalize d * 2 ^ k = D at *
  constructor
  · have := nearestEven_mono (n := n) (d := D) (n' := 2 ^ 53 * D) (d' := D) hD hD
      (Nat.mul_le_mul_right D (Nat.le_of_lt h1))
    rwa [nearestEven_exact _ _ hD] at this
  · rcases h2 with h2 | h2
    · exact .inl h2
    · right
      have := nearestEven_mono (n := 2 ^ 52 * D) (d := D) (n' := n) (d' := D) hD hD (Nat.mul_le_mul_right D h2)
      rwa [nearestEven_exact _ _ hD] at this

theorem roundMag_eq (n d : Nat) : roundMag n d =
    min (dropped n d * 2 ^ 52 + nearestEven n (d * 2 ^ dropped n d)) (0x7FF * 2 ^ 52) := rfl

/-- `fl` does not exceed the infinity pattern. -/
theorem roundMag_le (n d : Nat) : roundMag n d ≤ 0x7FF * 2 ^ 52 := Nat.min_le_right _ _

/-- The magnitude of `fl` where it does not overflow: the rounded significand times its power of two. -/
theorem magBits_roundMag (n d : Nat) (hd : 0 < d) (h : roundMag n d < 0x7FF * 2 ^ 52) :
    magBits (roundMag n d) = nearestEven n (d * 2 ^ dropped n d) * 2 ^ dropped n d := by
  obtain ⟨h1, h2⟩ := signif_bounds n d hd
  have hr : roundMag n d = dropped n d * 2 ^ 52 + nearestEven n (d * 2 ^ dropped n d) := by
    simp only [roundMag] at h ⊢
    omega
  rw [hr]
  exact magBits_of _ _ h1 h2

/-- `fl` is monotone (rule R13). -/
theorem roundMag_mono {n d n' d' : Nat} (hd : 0 < d) (hd' : 0 < d') (h : n * d' ≤ n' * d) :
    roundMag n d ≤ roundMag n' d' := by
  have hk : dropped n d ≤ dropped n' d' := by
    unfold dropped
    have : n / d ≤ n' / d' := by
      rw [Nat.le_div_iff_mul_le hd']
      have h1 : n / d * d ≤ n := Nat.div_mul_le_self n d
      have h2 : n / d * d' * d ≤ n' * d := by
        calc n / d * d' * d = n / d * d * d' := by ring
          _ ≤ n * d' := Nat.mul_le_mul_right d' h1
          _ ≤ n' * d := h
      exact Nat.le_of_mul_le_mul_right h2 hd
    by_cases h0 : n / d = 0
    · rw [h0]; simp
    · have hq : n' / d' ≠ 0 := Nat.ne_of_gt (lt_of_lt_of_le (Nat.pos_of_ne_zero h0) this)
      have := (Nat.le_log2 (k := (n / d).log2) hq).2 (le_trans (Nat.log2_self_le h0) this)
      omega
  obtain ⟨a1, a2⟩ := signif_bounds n d hd
  obtain ⟨b1, b2⟩ := signif_bounds n' d' hd'
  have hle : dropped n d * 2 ^ 52 + nearestEven n (d * 2 ^ dropped n d)
      ≤ dropped n' d' * 2 ^ 52 + nearestEven n' (d' * 2 ^ dropped n' d') := by
    rcases Nat.lt_or_eq_of_le hk with hlt | heq
    · omega
    · have : nearestEven n (d * 2 ^ dropped n d) ≤ nearestEven n' (d' * 2 ^ dropped n' d') := by
        refine nearestEven_mono (Nat.mul_pos hd (Nat.pow_pos (by decide))) (Nat.mul_pos hd' (Nat.pow_pos (by decide))) ?_
        rw [heq]
        calc n * (d' * 2 ^ dropped n' d') = n * d' * 2 ^ dropped n' d' := by ring
          _ ≤ n' * d * 2 ^ dropped n' d' := Nat.mul_le_mul_right _ h
          _ = n' * (d * 2 ^ dropped n' d') := by ring
      omega
  simp only [roundMag]
  omega

/-- A magnitude that is a binary64 value is its own rounding. -/
theorem roundMag_exact (m : Nat) (hm : m ≤ 0x7FF * 2 ^ 52) (d : Nat) (hd : 0 < d) :
    roundMag (magBits m * d) d = m := by
  have base : ∀ m, m < 0x7FF * 2 ^ 52 → roundMag (magBits m * d) d = m := by
    intro m hm
    have hdm := Nat.div_add_mod m (2 ^ 52)
    -- write m = k·2^52 + q with q < 2^53
    obtain ⟨k, q, hq, hkq, hmkq⟩ : ∃ k q, q < 2 ^ 53 ∧ (k = 0 ∨ 2 ^ 52 ≤ q) ∧ m = k * 2 ^ 52 + q := by
      cases he : m / 2 ^ 52 with
      | zero => exact ⟨0, m % 2 ^ 52, by omega, .inl rfl, by omega⟩
      | succ e => exact ⟨e, 2 ^ 52 + m % 2 ^ 52, by omega, .inr (by omega), by omega⟩
    have hmag := magBits_of k q (Nat.le_of_lt hq) hkq
    rw [← hmkq] at hmag
    have hdrop : dropped (magBits m * d) d = k := by
      rw [dropped, Nat.mul_div_cancel _ hd, hmag]
      by_cases hq0 : q = 0
      · have : k = 0 := by omega
        subst hq0 this
        simp
      · have hne : q * 2 ^ k ≠ 0 := Nat.mul_ne_zero hq0 (Nat.ne_of_gt (Nat.pow_pos (by decide)))
        rcases hkq with hk | hk
        · subst hk
          have : (q * 2 ^ 0).log2 < 53 := (Nat.log2_lt hne).2 (by simpa using hq)
          omega
        · have h1 : (q * 2 ^ k).log2 < 53 + k := (Nat.log2_lt hne).2 (by
            rw [Nat.pow_add]; exact Nat.mul_lt_mul_of_pos_right hq (Nat.pow_pos (by decide)))
          have h2 : 52 + k ≤ (q * 2 ^ k).log2 := (Nat.le_log2 hne).2 (by
            rw [Nat.pow_add]; exact Nat.mul_le_mul_right _ hk)
          omega
    rw [roundMag_eq, hdrop, hmag, show q * 2 ^ k * d = q * (d * 2 ^ k) by ring,
      nearestEven_exact _ _ (Nat.mul_pos hd (Nat.pow_pos (by decide)))]
    omega
  rcases Nat.lt_or_eq_of_le hm with hlt | heq
  · exact base m hlt
  · -- the infinity pattern: its magnitude is above every finite one
    subst heq
    have hlast := base (0x7FF * 2 ^ 52 - 1) (by omega)
    have hmag : magBits (0x7FF * 2 ^ 52) = 2 ^ 52 * 2 ^ 2046 := by
      have := magBits_of 2046 (2 ^ 52) (by omega) (.inr (by omega))
      rwa [show 2046 * 2 ^ 52 + 2 ^ 52 = 0x7FF * 2 ^ 52 by omega] at this
    have hdrop : dropped (magBits (0x7FF * 2 ^ 52) * d) d = 2046 := by
      rw [dropped, Nat.mul_div_cancel _ hd, hmag, ← Nat.pow_add, Nat.log2_two_pow]
    rw [roundMag_eq, hdrop, hmag, show 2 ^ 52 * 2 ^ 2046 * d = 2 ^ 52 * (d * 2 ^ 2046) by ring,
      nearestEven_exact _ _ (Nat.mul_pos hd (Nat.pow_pos (by decide)))]
    omega

end Sys2Proof.Machine.F64
end

