-- ==== Sys2Proof/Laws/PerInstr.lean ====
section
/-! SUPPORT. Per-instruction families (LAWS.json): the encoded fields of every command. -/

namespace Sys2Proof.Laws.EncodedFields

/-- The encoding of a command has RSV = 0 and an OP below 0x04 (rules R101, R102). -/
def Statement (i : Instr) : Prop := rsvField (encode i) = 0 ∧ (opField (encode i)).toNat < 4

theorem nop : Statement .nop := ⟨by decide, by decide⟩
theorem luma : Statement .luma := ⟨by decide, by decide⟩
theorem quant : Statement .quant := ⟨by decide, by decide⟩
theorem dither : Statement .dither := ⟨by decide, by decide⟩

end Sys2Proof.Laws.EncodedFields
end

