-- ==== Sys2Proof/Laws/Run.lean ====
section
/-! SUPPORT. Runs of several steps, and what the loop of each phase of a pass does while the host is silent
(42_dither.md rules R177, R178, R184). -/

namespace Sys2Proof.Machine

theorem run_succ {s t : State} {k : Nat} (h : step s = .next t) :
    Host.Core.run core (k + 1) s = Host.Core.run core k t := by
  have h' : core.step s = .next t := h
  simp only [Host.Core.run, h']

theorem run_add {k m : Nat} {s t : State} (h : Host.Core.run core k s = .next t) :
    Host.Core.run core (k + m) s = Host.Core.run core m t := by
  induction k generalizing s with
  | zero => cases h; rw [Nat.zero_add]
  | succ k ih =>
    rw [Nat.add_right_comm]
    cases hs : step s with
    | next u => rw [run_succ hs] at h ⊢; exact ih h
    | fault r =>
      have h' : core.step s = .fault r := hs
      simp only [Host.Core.run, h'] at h
      cases h
    | refused r =>
      have h' : core.step s = .refused r := hs
      simp only [Host.Core.run, h'] at h
      cases h

/-- The last m + 1 iterations of phase 1. -/
theorem run_init (m : Nat) (s : State) (hp : s.phase = .init) (ha : s.check = .accept) (hin : s.inputs = [])
    (hc : s.cursor + (m + 1) = s.pixels) :
    Host.Core.run core (m + 1) s = .next { s with
      phase := .scan, scanX := 0, scanY := 0, cursor := s.cursor + m,
      eb := s.eb ++ (List.range' s.cursor (m + 1)).map
        (fun i => (arithOf s.cfg).luma (s.pm.pixel (s.srcPixel i))) } := by
  induction m generalizing s with
  | zero =>
    rw [run_succ ((step_silent hin).trans (engineStep_init hp (accept_src ha (by omega)))), if_neg (by omega)]
    rfl
  | succ m ih =>
    rw [run_succ ((step_silent hin).trans (engineStep_init hp (accept_src ha (by omega)))), if_pos (by omega)]
    refine (ih (s.appendEb ((arithOf s.cfg).luma (s.pm.pixel (s.srcPixel s.cursor)))).nextIndex hp ha hin
      (by show s.cursor + 1 + (m + 1) = s.pixels; omega)).trans ?_
    simp only [State.nextIndex, State.appendEb, List.range'_succ (n := m + 1), List.map_cons, List.append_assoc,
      List.singleton_append]
    rw [show s.cursor + 1 + m = s.cursor + (m + 1) by omega]
    rfl

/-- The last m + 1 iterations of phase 2; what they leave in EB and the scanner is not said, since no rule
reads it (rules R46, R52). -/
theorem run_scan (m : Nat) (s : State) (levels : List Int) (hp : s.phase = .scan) (hx : s.scanX.toNat < s.W)
    (hy : s.scanY.toNat < s.H) (hW : s.W ≤ 65535) (hH : s.H ≤ 65535) (hin : s.inputs = [])
    (hlen : s.eb.length = s.pixels) (hc : s.scanY.toNat * s.W + s.scanX.toNat + (m + 1) = s.pixels)
    (hl : scanLoop (arithOf s.cfg) s.W s.H s.depth (m + 1) (s.scanY.toNat * s.W + s.scanX.toNat) s.eb = some levels) :
    ∃ eb x y, Host.Core.run core (m + 1) s = .next { s with
      phase := .mat, cursor := 0, eb := eb, qb := s.qb ++ levels.map (BitVec.ofInt 16), scanX := x, scanY := y } := by
  induction m generalizing s levels with
  | zero =>
    obtain ⟨new, eb', hsc, -⟩ := scanPixel_some (arithOf s.cfg) (w := s.W) (h := s.H) s.depth (eb := s.eb)
      (x := s.scanX.toNat) (y := s.scanY.toNat) (by rw [hlen]; exact index_lt hx hy)
    rw [scanLoop_succ _ (by rw [index_mod _ hx, index_div _ hx]; exact hsc)] at hl
    rw [run_succ ((step_silent hin).trans (engineStep_scan hp hsc)), nextPos_index hx hy,
      if_neg (by unfold State.pixels at hc; omega)]
    simp only [scanLoop, Option.map_some, Option.some.injEq] at hl
    subst hl
    exact ⟨eb', _, _, rfl⟩
  | succ m ih =>
    obtain ⟨new, eb', hsc, hl'⟩ := scanPixel_some (arithOf s.cfg) (w := s.W) (h := s.H) s.depth (eb := s.eb)
      (x := s.scanX.toNat) (y := s.scanY.toNat) (by rw [hlen]; exact index_lt hx hy)
    rw [scanLoop_succ _ (by rw [index_mod _ hx, index_div _ hx]; exact hsc), Option.map_eq_some_iff] at hl
    obtain ⟨ls, hl, rfl⟩ := hl
    have hlt : s.scanY.toNat * s.W + s.scanX.toNat + 1 < s.W * s.H := by unfold State.pixels at hc; omega
    obtain ⟨b1, b2, b3⟩ := mod_div_bounds hlt
    rw [run_succ ((step_silent hin).trans (engineStep_scan hp hsc)), nextPos_index hx hy, if_pos hlt]
    simp only
    generalize hi : s.scanY.toNat * s.W + s.scanX.toNat + 1 = i at *
    have e1 : (BitVec.ofNat 16 (i % s.W)).toNat = i % s.W := by
      rw [BitVec.toNat_ofNat]; exact Nat.mod_eq_of_lt (by omega)
    have e2 : (BitVec.ofNat 16 (i / s.W)).toNat = i / s.W := by
      rw [BitVec.toNat_ofNat]; exact Nat.mod_eq_of_lt (by omega)
    have e3 : (BitVec.ofNat 16 (i / s.W)).toNat * s.W + (BitVec.ofNat 16 (i % s.W)).toNat = i := by rw [e1, e2, b3]
    obtain ⟨eb, x, y, h⟩ := ih ((s.finalize new eb').moveScanner (i % s.W) (i / s.W)) ls hp
      (lt_of_eq_of_lt e1 b1) (lt_of_eq_of_lt e2 b2) hW hH hin (hl'.trans hlen)
      (by refine (congrArg (· + (m + 1)) e3).trans ?_; show i + (m + 1) = s.pixels; omega)
      (by refine Eq.trans ?_ hl; exact congrArg (fun j => scanLoop (arithOf s.cfg) s.W s.H s.depth (m + 1) j eb') e3)
    refine ⟨eb, x, y, h.trans ?_⟩
    simp only [State.finalize, State.moveScanner, List.map_cons, List.append_assoc, List.singleton_append]

/-- The last iterations of phase 3, and the completion step. -/
theorem run_mat (levels : List Int) (s : State) (pre : List QbEntry) (hp : s.phase = .mat) (ha : s.check = .accept)
    (hin : s.inputs = []) (hq : s.qb = pre ++ levels.map (BitVec.ofInt 16)) (hc : s.cursor = pre.length)
    (hn : s.cursor + levels.length = s.pixels) :
    Host.Core.run core (levels.length + 1) s = .next (State.completePass { s with
      pm := s.pm.putLevels (s.dstPixel s.cursor) levels
      saturated := s.saturated || levels.any (fun q => outOfRange (qbLevel (BitVec.ofInt 16 q))) }) := by
  induction levels generalizing s pre with
  | nil =>
    rw [List.length_nil, run_succ ((step_silent hin).trans (engineStep_done hp (by simp at hn; omega)))]
    simp only [Memory.putLevels, List.any_nil, Bool.or_false]
    rfl
  | cons q qs ih =>
    simp only [List.length_cons] at hn
    have hg : s.qb[s.cursor]? = some (BitVec.ofInt 16 q) := by rw [hq, hc]; simp
    rw [List.length_cons,
      run_succ ((step_silent hin).trans (engineStep_mat hp (by omega) hg (accept_dst ha (by omega))))]
    refine (ih ((s.withPm (s.pm.putPixel (s.dstPixel s.cursor) (materialize (BitVec.ofInt 16 q)))).noteLevel
      (qbLevel (BitVec.ofInt 16 q))).nextIndex (pre ++ [BitVec.ofInt 16 q]) hp ha hin
      (by show s.qb = _; simp [hq]) (by show s.cursor + 1 = _; simp [hc])
      (by show s.cursor + 1 + _ = s.pixels; omega)).trans ?_
    simp only [State.nextIndex, State.noteLevel, State.withPm, State.dstPixel, Memory.putLevels, List.any_cons,
      Bool.or_assoc]
    rw [show s.dstBase.toNat + 4 * (s.cursor + 1) = s.dstBase.toNat + 4 * s.cursor + 4 by omega]
    rfl

end Sys2Proof.Machine
end

