-- ==== Sys2Proof/Machine/HostProgram.lean ====
section
/-! DEFINITION. The notation for host programs (30_encoding.md rules R110, R111) as data, with the accesses
each statement stands for. -/

namespace Sys2Proof.Machine

/-- A statement of a host program: the six forms of rule R110 and the pseudo-statements of rule R111.
WAIT polls STATUS; how many reads it takes is not the program's to say (rule R285), so it is written with
that number (log 18). -/
inductive Stmt where
  | wr (r : Reg) (v : Word)
  | rd (r : Reg)
  | pmWrite (w : Width) (off : Nat) (v : Word)
  | pmRead (w : Width) (off : Nat)
  | cmd (i : Instr)
  | cmdRaw (w : Word)
  | wait (reads : Nat)
  | clrst
  | lumai (rgba : Word)
  | quanti (hi lo : Word)
  | setup (w h bits src dst : Word)
  | pix (off : Nat) (r g b a : Byte)
  deriving DecidableEq, Repr

/-- `WR <REG>, <v32>` (rule R110). -/
def wrAccess (r : Reg) (v : Word) : Access := .write .b4 r.addr v

/-- The accesses of a statement, in order (rules R110, R111). -/
def Stmt.accesses : Stmt → List Access
  | .wr r v => [wrAccess r v]
  | .rd r => [.read .b4 r.addr]
  | .pmWrite w off v => [.write w (pmAddr off) v]
  | .pmRead w off => [.read w (pmAddr off)]
  | .cmd i => [wrAccess .ctrl (encode i)]
  | .cmdRaw w => [wrAccess .ctrl w]
  | .wait n => List.replicate n (.read .b4 Reg.status.addr)
  | .clrst => [wrAccess .status 0x00000302]
  | .lumai v => [wrAccess .opa v, wrAccess .ctrl (encode .luma)]
  | .quanti hi lo => [wrAccess .qinHi hi, wrAccess .qinLo lo, wrAccess .ctrl (encode .quant)]
  | .setup w h bits src dst =>
    [wrAccess .width w, wrAccess .height h, wrAccess .bits bits, wrAccess .srcBase src,
      wrAccess .dstBase dst, wrAccess .srcLen (BitVec.ofNat 32 (w.toNat * h.toNat * 4))]
  | .pix off r g b a => [.write .b4 (pmAddr off) (Pixel.toWord { r := r, g := g, b := b, a := a })]

/-- The turns of a program that the host runs with no engine step between its accesses. -/
def programInputs (p : List Stmt) : List Input := (p.flatMap Stmt.accesses).map Input.host

/-- The condition on a STATUS word that ends a WAIT: `s[0] = 0` and `s[1] = 1` (rule R111). -/
def waitEnds (status : Word) : Bool := !status.getLsbD 0 && status.getLsbD 1

end Sys2Proof.Machine
end

