-- ==== Sys2Proof/Tests/Slice0.lean ====
section
/-! SUPPORT. The model's own tests: ill-formed parameters, command words written out from the spec, one-step
tests on values of 95_test_vectors.md, and for each statement with hypotheses a state and operands that meet
them. -/

namespace Sys2Proof.Tests

open Sys2Proof.Machine

/-! ### Well-formedness of the parameters (rule R6) -/

/-- The check accepts a choice at the low end of each range and one at the high end. -/
theorem test_legal_ends :
    Config.legal { numFmt := .fix, fracBits := 8, maxW := 1, maxH := 1, pmBytes := 4 } = true
      ∧ Config.legal { numFmt := .fix, fracBits := 32, maxW := 65535, maxH := 65535, pmBytes := 0x0F000000 } = true
      ∧ Config.legal { numFmt := .fp64, fracBits := 0, maxW := 1, maxH := 1, pmBytes := 4 } = true := by
  decide

theorem test_fracBits_refused : Config.legal { Config.default with fracBits := 7 } = false
    ∧ Config.legal { Config.default with fracBits := 33 } = false := by
  decide

theorem test_maxW_refused : Config.legal { Config.default with maxW := 0 } = false
    ∧ Config.legal { Config.default with maxW := 65536 } = false := by
  decide

theorem test_maxH_refused : Config.legal { Config.default with maxH := 0 } = false
    ∧ Config.legal { Config.default with maxH := 65536 } = false := by
  decide

theorem test_pmBytes_refused : Config.legal { Config.default with pmBytes := 6 } = false
    ∧ Config.legal { Config.default with pmBytes := 0 } = false
    ∧ Config.legal { Config.default with pmBytes := 0x0F000004 } = false := by
  decide

/-! ### Command words, bit by bit from rules R101 and R102: RSV in bits 31:8, OP in bits 7:0 -/

theorem test_decode_nop : decode 0b00000000000000000000000000000000 = .ok .nop := by decide
theorem test_decode_luma : decode 0b00000000000000000000000000000001 = .ok .luma := by decide
theorem test_decode_quant : decode 0b00000000000000000000000000000010 = .ok .quant := by decide
theorem test_decode_dither : decode 0b00000000000000000000000000000011 = .ok .dither := by decide

/-- The illegal words CV-5 to CV-10 of 95_test_vectors.md. -/
theorem test_decode_illegal : decode 0x00000004 = .error .opReserved ∧ decode 0x000000FF = .error .opReserved
    ∧ decode 0x00000100 = .error .rsvNonzero ∧ decode 0x00000103 = .error .rsvNonzero
    ∧ decode 0x80000000 = .error .rsvNonzero ∧ decode 0xFFFFFFFF = .error .rsvNonzero := by
  decide

/-! ### Small states -/

/-- 64 bytes of pixel memory, images up to 4×4, FIX with 16 fractional bits. -/
def tiny : Config := { numFmt := .fix, fracBits := 16, maxW := 4, maxH := 4, pmBytes := 64 }

/-- The same in FP64. -/
def tiny64 : Config := { tiny with numFmt := .fp64 }

/-- The next state, if there is one. -/
def nextOf : Host.Outcome State Fault Refusal → Option State
  | .next t => some t
  | .fault _ => none
  | .refused _ => none

/-- A register right after one step. -/
def regAfter (r : Reg) (s : State) : Option Word := (nextOf (step s)).map (fun t => t.readReg r)

/-- What the host sees of its access. -/
def answer (s : State) : Option Response := (nextOf (step s)).map State.response

/-- `s` with a command as the next event. -/
def issued (s : State) (w : Word) : State := { s with inputs := [.host (wrAccess .ctrl w)] }

/-- `s` with an access as the next event. -/
def asked (s : State) (a : Access) : State := { s with inputs := [.host a] }

/-- A 2×1 image at offset 0 with its output at 8, at depth 8: an accepted DITHER. -/
def image2 : State :=
  { State.powerOn tiny with
    width := 2, height := 1, srcLen := 8, dstBase := 8, bits := 8,
    pm := [(0, 1), (1, 0), (2, 0), (3, 255), (4, 0), (5, 0), (6, 4), (7, 255)] }

/-- `image2` at the start of its pass. -/
def started : State := { image2 with phase := .init }

/-- `image2` at the start of phase 2 (vector DV-D5: the FIX lumas LV-15 and LV-16). -/
def scanning : State := { image2 with phase := .scan, eb := [0x4C8B, 0x74BC] }

/-- A 2×2 image at offset 0 with its output at 16, at the end of the first row of phase 2 (x = 1, y = 0). -/
def rowEnd : State :=
  { State.powerOn tiny with
    width := 2, height := 2, srcLen := 16, dstBase := 16, bits := 8,
    phase := .scan, scanX := 1, eb := [0x4C8B, 38457, 0, 0x10000], qb := [0] }

/-- `image2` with both levels known, one of them negative. -/
def writing : State := { image2 with phase := .mat, qb := [0xFFF8, 1] }

/-- `image2` with every output pixel complete. -/
def complete : State := { writing with cursor := 2, saturated := true }

/-! ### One step of each command, from 95_test_vectors.md -/

/-- CV-1. -/
theorem test_nop : regAfter .status (issued State.reset 0) = some 0x00000002 := by decide

/-- CV-8. -/
theorem test_illegal : regAfter .status (issued State.reset 0x103) = some 0x00000012 := by decide

/-- LV-7, FIX. -/
theorem test_luma_fix : regAfter .lresLo (issued { State.powerOn tiny with opa := 0xFF2A5500 } 1) = some 0x0036AED9 := by
  decide

/-- LV-6, FP64. -/
theorem test_luma_fp64 :
    regAfter .lresHi (issued { State.powerOn tiny64 with opa := 0xFF44CC00 } 1) = some 0x405FDFFF
      ∧ regAfter .lresLo (issued { State.powerOn tiny64 with opa := 0xFF44CC00 } 1) = some 0xFFFFFFFF := by
  decide +kernel

/-- QV-9, FIX. -/
theorem test_quant_fix :
    regAfter .qres (issued { State.powerOn tiny with bits := 3, qinHi := 0xFFFFFFFF, qinLo := 0xFFD80000 } 2)
      = some 0xFFFFFFDC := by
  decide

/-- QV-19 and QE-11, FP64. -/
theorem test_quant_fp64 :
    regAfter .qres (issued { State.powerOn tiny64 with bits := 5, qinHi := 0x4070E000 } 2) = some 0x0000010F
      ∧ regAfter .status (issued { State.powerOn tiny64 with bits := 1, qinHi := 0x40E00000 } 2) = some 0x00000072 := by
  decide +kernel

/-- CV-4, and the acceptance of rule R176: BUSY = 1, DONE = 0. -/
theorem test_dither : regAfter .status (issued State.reset 3) = some 0x00000002
    ∧ regAfter .status (issued image2 3) = some 0x00000001 := by
  decide

/-- DV-D1 e: SHAPE_MISMATCH is checked before zero area. -/
theorem test_dither_shape : regAfter .status (issued { State.reset with srcLen := 4 } 3) = some 0x00000032 := by decide

/-! ### One step of the engine and of the bus -/

/-- DV-D5 at (0, 0): the level is 0, and the pixel to the right becomes 38457. -/
theorem test_scan : nextOf (engineStep scanning) = some { scanning with eb := [0x4C8B, 38457], qb := [0], scanX := 1 } := by
  decide

/-- Rules R53 and R181 at the end of a row: 38457 gives the level 1, the error −27079 goes below with weights 3
and 5 only, floor((−27079·3 + 8)/16) = −5077 and floor((−27079·5 + 8)/16) = −8462, and the scanner wraps. -/
theorem test_scan_rowEnd : nextOf (engineStep rowEnd) = some { rowEnd with
    eb := [0x4C8B, 38457, BitVec.ofInt 64 (-5077), BitVec.ofInt 64 (0x10000 - 8462)], qb := [0, 1], scanX := 0,
    scanY := 1 } := by
  decide

/-- DV-D9: the level −8 is written as 0. -/
theorem test_materialize :
    nextOf (engineStep writing) = some { writing with
      pm := writing.pm ++ [(8, 0), (9, 0), (10, 0), (11, 255)], saturated := true, cursor := 1 } := by
  decide

/-- A misaligned register read, and a pixel-memory read past the end (rules R75, R74). -/
theorem test_busError : answer (asked image2 (.read .b4 0x16)) = some .busError
    ∧ answer (asked image2 (.read .b4 (pmAddr 64))) = some .busError := by
  decide

/-- Rule R30: the register at each offset written as a number, in a state whose registers all differ. -/
theorem test_offsets :
    [0x000, 0x004, 0x008, 0x00C, 0x010, 0x014, 0x018, 0x01C, 0x020, 0x024, 0x028, 0x02C, 0x030, 0x034, 0x038,
        0x03C, 0x040, 0x044, 0x048].map (fun a => answer (asked { State.powerOn tiny with
      werr := true, irqEn := true, bits := 2, width := 3, height := 4, srcLen := 5, srcBase := 6, dstBase := 7,
      opa := 8, lresLo := 9, lresHi := 10, qinLo := 11, qinHi := 12, qres := 13 } (.read .b4 a)))
    = [0x46534401, 0x1000, 0x40004, 64, 0, 0x200, 1, 2, 3, 4, 5, 6, 7, 8, 9, 10, 11, 12, 13].map
        (fun v => some (.data v)) := by
  decide

/-- Rule R79: the word of the pixel at offset 4. -/
theorem test_pmRead : answer (asked image2 (.read .b4 (pmAddr 4))) = some (.data 0xFF040000) := by
  decide +kernel

/-- Rule R111: CLRST clears DONE, ERR, RANGE and WERR. -/
theorem test_clrst : (Stmt.clrst.accesses).map (fun a =>
    regAfter .status (asked { State.reset with done := true, err := .align, range := true, werr := true } a))
    = [some 0] := by
  decide

/-! ### States and operands that meet the hypotheses of the statements -/

theorem image2_inv : image2.Inv :=
  ⟨by decide, by decide, by decide, fun h => absurd rfl h, fun h => absurd h (by decide), trivial⟩

theorem started_inv : started.Inv :=
  ⟨by decide, by decide, by decide, fun h => absurd rfl h, fun _ => rfl, by decide, by decide, rfl, rfl⟩

theorem scanning_inv : scanning.Inv :=
  ⟨by decide, by decide, by decide, fun h => absurd rfl h, fun _ => rfl, by decide, by decide, by decide, rfl, rfl⟩

theorem rowEnd_inv : rowEnd.Inv :=
  ⟨by decide, by decide, by decide, fun h => absurd rfl h, fun _ => rfl, by decide, by decide, by decide, rfl, rfl⟩

theorem writing_inv : writing.Inv :=
  ⟨by decide, by decide, by decide, fun h => absurd rfl h, fun _ => rfl, by decide, by decide, rfl⟩

theorem complete_inv : complete.Inv :=
  ⟨by decide, by decide, by decide, fun h => absurd rfl h, fun _ => rfl, by decide, by decide, rfl⟩

theorem witness_ResetPutsRegistersInResetValues :
    ({ scanning with inputs := [.reset] } : State).inputs = .reset :: [] := rfl

/-- The first and the last byte of the output region, and the bytes beside it. -/
theorem witness_ResetKeepsPixelMemoryButAbandonedOutput :
    ({ writing with inputs := [.reset] } : State).inputs = .reset :: [] ∧ writing.busy = true ∧ image2.busy = false
      ∧ writing.inOutput 8 = true ∧ writing.inOutput 15 = true ∧ writing.inOutput 7 = false
      ∧ writing.inOutput 16 = false := by
  decide

theorem witness_ConfigRegistersReportParameters :
    nextOf (step image2) = some image2 ∧ image2.cfg.legal = true ∧ tiny64.legal = true := by
  decide

theorem witness_RegisterReadAtItsOffsetIsExact :
    (asked scanning (.read .b4 Reg.id.addr)).inputs = .host (.read .b4 Reg.id.addr) :: []
      ∧ (asked scanning (.read .b4 Reg.qres.addr)).inputs = .host (.read .b4 Reg.qres.addr) :: [] := ⟨rfl, rfl⟩

theorem witness_RegisterWriteStoresWholeWord :
    Reg.qinHi ∈ [Reg.bits, .width, .height, .srcLen, .srcBase, .dstBase, .opa, .qinLo, .qinHi]
      ∧ (asked image2 (.write .b4 Reg.qinHi.addr 5)).busy = false
      ∧ (asked image2 (.write .b4 Reg.qinHi.addr 5)).inputs = .host (.write .b4 Reg.qinHi.addr 5) :: []
      ∧ (asked scanning (.write .b4 Reg.bits.addr 5)).busy = true := by
  decide

/-- The second and third clauses at words that differ in every bit they ignore. -/
theorem witness_ReadOnlyAndReservedWritesChangeNothing :
    Reg.qres ∈ [Reg.id, .cfg0, .cfg1, .cfg2, .lresLo, .lresHi, .qres]
      ∧ (asked scanning (.write .b4 Reg.qres.addr 5)).inputs = .host (.write .b4 Reg.qres.addr 5) :: []
      ∧ (0x302 : Word) &&& 0x302 = 0xFFFFFFFF &&& 0x302 ∧ (0 : Word) &&& 1 = 0xFFFFFFFE &&& 1 := by
  decide

theorem witness_StatusAndIrqenWrites :
    (asked scanning (.write .b4 Reg.status.addr 0x302)).inputs = .host (.write .b4 Reg.status.addr 0x302) :: []
      ∧ (asked scanning (.write .b4 Reg.irqen.addr 3)).inputs = .host (.write .b4 Reg.irqen.addr 3) :: [] := by
  decide

theorem witness_InterruptLineIsDoneAndEnable :
    (∃ t, image2.busy = false ∧ exec .nop image2 = .next t ∧ t.busy = false)
      ∧ (0x302 : Word).getLsbD 1 = true ∧ (0xFFFFFFFE : Word).getLsbD 0 = false :=
  ⟨⟨_, rfl, rfl, rfl⟩, by decide, by decide⟩

theorem witness_BusyRegisterWritesAreDropped :
    scanning.busy = true ∧ Reg.qinHi ∈ [Reg.ctrl, .bits, .width, .height, .srcLen, .srcBase, .dstBase, .opa, .qinLo, .qinHi]
      ∧ (asked scanning (.write .b4 Reg.qinHi.addr 5)).inputs = .host (.write .b4 Reg.qinHi.addr 5) :: []
      ∧ (asked scanning (.write .b4 Reg.status.addr 5)).inputs = .host (.write .b4 Reg.status.addr 5) :: []
      ∧ (asked scanning (.write .b4 Reg.irqen.addr 5)).inputs = .host (.write .b4 Reg.irqen.addr 5) :: []
      ∧ (asked scanning (.read .b4 Reg.id.addr)).inputs = .host (.read .b4 Reg.id.addr) :: [] := by
  decide

/-- Each way to be malformed, at the ends of its range. -/
theorem witness_BusErrorChangesNothing :
    (asked image2 (.read .b2 0x48)).inputs = .host (.read .b2 0x48) :: []
      ∧ ((0x48 : Word).toNat < 0x100 ∧ Width.b2.bytes ≠ 4)
      ∧ ((0xFE : Word).toNat < 0x100 ∧ (0xFE : Word).toNat % 4 ≠ 0)
      ∧ ((0x4C : Word).toNat < 0x100 ∧ 0x4C ≤ (0x4C : Word).toNat)
      ∧ (0x100 ≤ (0x100 : Word).toNat ∧ (0x00FFFFFF : Word).toNat < 0x01000000)
      ∧ (0x01000000 ≤ (0x01000001 : Word).toNat ∧ (0x01000001 : Word).toNat % Width.b2.bytes ≠ 0)
      ∧ 0x01000000 + image2.cfg.pmBytes < (0x01000040 : Word).toNat + Width.b1.bytes
      ∧ 0x01000000 + image2.cfg.pmBytes < (0xFFFFFFFF : Word).toNat + Width.b1.bytes := by
  decide

/-- The last word, half-word and byte of pixel memory. -/
theorem witness_PixelMemoryWriteIsLittleEndian :
    image2.cfg.legal = true ∧ image2.busy = false ∧ 60 % Width.b4.bytes = 0 ∧ 60 + Width.b4.bytes ≤ image2.cfg.pmBytes
      ∧ 62 % Width.b2.bytes = 0 ∧ 62 + Width.b2.bytes ≤ image2.cfg.pmBytes
      ∧ 63 % Width.b1.bytes = 0 ∧ 63 + Width.b1.bytes ≤ image2.cfg.pmBytes
      ∧ (asked image2 (.write .b4 (pmAddr 60) 7)).inputs = .host (.write .b4 (pmAddr 60) 7) :: [] := by
  decide

theorem witness_PixelMemoryReadIsLittleEndian :
    image2.cfg.legal = true ∧ image2.busy = false ∧ 63 % Width.b1.bytes = 0 ∧ 63 + Width.b1.bytes ≤ image2.cfg.pmBytes
      ∧ (asked image2 (.read .b1 (pmAddr 63))).inputs = .host (.read .b1 (pmAddr 63)) :: [] := by
  decide

theorem witness_BusyPixelMemoryAccess :
    scanning.cfg.legal = true ∧ scanning.busy = true ∧ 60 % Width.b4.bytes = 0
      ∧ 60 + Width.b4.bytes ≤ scanning.cfg.pmBytes
      ∧ (asked scanning (.write .b4 (pmAddr 60) 7)).inputs = .host (.write .b4 (pmAddr 60) 7) :: []
      ∧ (asked scanning (.read .b4 (pmAddr 60))).inputs = .host (.read .b4 (pmAddr 60)) :: [] := by
  decide

theorem witness_DecodeInvertsEncode : decode 0x00000003 = .ok .dither ∧ 0x04 ≤ (opField 4).toNat
    ∧ rsvField 0x100 ≠ 0 := by
  decide

theorem witness_StepRunsDecodedCommand :
    (issued image2 3).inputs = .host (.write .b4 Reg.ctrl.addr 3) :: [] ∧ (issued image2 3).busy = false
      ∧ decode 3 = .ok .dither ∧ decode 4 = .error .opReserved ∧ (issued scanning 3).busy = true := by
  decide

theorem witness_LumaWritesLumaOfOpa :
    image2.cfg.numFmt = .fix ∧ (State.powerOn tiny64).cfg.numFmt = .fp64
      ∧ (0 : Byte) = image2.opa.extractLsb' 0 8 := by
  decide

/-- Both ends of the accepted range in both modes (QV-20, QV-21, QV-25), and both ends of the depths. -/
theorem witness_QuantWritesLevel :
    1 ≤ image2.bits.toNat ∧ image2.bits.toNat ≤ 8 ∧ 1 ≤ (State.powerOn tiny64).bits.toNat
      ∧ image2.cfg.numFmt = .fix ∧ (State.powerOn tiny64).cfg.numFmt = .fp64
      ∧ -32768 * 2 ^ 16 ≤ (0xFFFFFFFF80000000 : NumWord).toInt ∧ (0x7FFFFFFF : NumWord).toInt < 32768 * 2 ^ 16
      ∧ (0x40DFFFFFFFD60E95 : NumWord).extractLsb' 52 11 ≠ 0x7FF
      ∧ (-32768 : ℚ) ≤ fp64Value 0xC0E0000000000000 ∧ fp64Value 0x40DFFFFFFFD60E95 < (32768 : ℚ) := by
  decide +kernel

/-- QE-1, QE-2, QE-5, QE-6, QE-9, QE-11 and QE-12. -/
theorem witness_QuantErrorsInOrder :
    (0 : Word).toNat < 1 ∧ 8 < (9 : Word).toNat
      ∧ (0xFFFFFFFF7FFFFFFF : NumWord).toInt < -32768 * 2 ^ 16 ∧ 32768 * 2 ^ 16 ≤ (0x80000000 : NumWord).toInt
      ∧ (0x7FF0000000000000 : NumWord).extractLsb' 52 11 = 0x7FF
      ∧ fp64Value 0xC0E0000000000001 < (-32768 : ℚ) ∧ (32768 : ℚ) ≤ fp64Value 0x40E0000000000000 := by
  decide +kernel

theorem witness_CommandFrames : ∃ t, exec .dither image2 = .next t ∧ t.busy = true := ⟨_, rfl, rfl⟩

theorem witness_ErrorReportIsPrecise : ∃ t, ({ image2 with bits := 9 } : State).err = .none
    ∧ exec .quant { image2 with bits := 9 } = .next t ∧ t.err ≠ .none := ⟨_, rfl, rfl, by decide⟩

theorem witness_LumaFixIsNearest : lumaSum { r := 255, g := 255, b := 255, a := 0 } = 0
    ∧ (255 : Byte) = 255 := by
  decide

theorem witness_LumaFixZeroOnlyForZeroSum : 8 ≤ 8 ∧ 8 ≤ 32 := by decide

theorem witness_LumaF64InRange : ({ r := 255, g := 255, b := 255, a := 0 } : Pixel).a = 0 := by decide

theorem witness_QuantFixIsQuantReal : 1 ≤ 8 := by decide

/-- Both ends of the depths and of the values. -/
theorem witness_InRangeValueGivesLevel : (1 ≤ 1 ∧ 8 ≤ 8) ∧ (0 : ℚ) ≤ 0 ∧ (255 : ℚ) ≤ 255 := by decide +kernel

/-- The first and the last index of the deepest quantizer. -/
theorem witness_QuantF64ScaleAndLevels : 8 < 9 ∧ 1 ≤ 8 ∧ 257 < steps 8 + 3 := by decide

theorem witness_DepthOneGivesBlackOrWhite : tiny64.numFmt = .fp64 ∧ operandOk tiny64 0x405FE00000000000 = true := by
  decide +kernel

theorem witness_InvariantHoldsAtReset : tiny64.legal = true := by decide

theorem witness_SinglePixelIsQuantizedLuma : tiny.legal = true ∧ tiny64.legal = true ∧ 1 ≤ 1 ∧ 8 ≤ 8
    ∧ 255 = (arithOf tiny).quant ((arithOf tiny).luma (Pixel.grey 255)) 8
    ∧ 255 = (arithOf tiny64).quant ((arithOf tiny64).luma (Pixel.grey 255)) 1 := by
  decide +kernel

theorem witness_QuantizerTies : (1 : Nat) ≤ 1 ∧ (255 / 2 * (steps 1 : ℚ) / 255 = ((0 : Int) : ℚ) + 1 / 2) := by
  refine ⟨le_rfl, ?_⟩
  norm_num [steps]

theorem witness_AcceptedOperandLevelFitsQres :
    operandOk tiny 0xFFFFFFFF80000000 = true ∧ operandOk tiny 0x7FFFFFFF = true
      ∧ operandOk tiny64 0xC0E0000000000000 = true ∧ operandOk tiny64 0x40DFFFFFFFD60E95 = true := by
  decide +kernel

/-- Both ends of the FIX words, of the levels and of the weights. -/
theorem witness_ErrorTermAndAddOfEachMode :
    image2.cfg.legal = true ∧ image2.cfg.numFmt = .fix ∧ (State.powerOn tiny64).cfg.numFmt = .fp64
      ∧ |(BitVec.ofInt 64 (-(400 * 2 ^ 16)) : NumWord).toInt| ≤ 400 * 2 ^ image2.cfg.fracBits
      ∧ |(BitVec.ofInt 64 (400 * 2 ^ 16) : NumWord).toInt| ≤ 400 * 2 ^ image2.cfg.fracBits
      ∧ (-255 ≤ (-255 : Int) ∧ (510 : Int) ≤ 510) ∧ 16 ≤ 16 := by
  decide

/-- A magnitude that ties, operands of both signs, the largest finite value, the smallest divisor, and both
ends of the integers. -/
theorem witness_F64OperationsRoundExactResultOnce :
    (0 < 1 ∧ F64.roundMag (2 ^ 53 + 1) 1 < 0x7FF * 2 ^ 52 ∧ F64.isNumeric 1 = true ∧ F64.neg 1 = false)
      ∧ F64.isNumeric 0xFFEFFFFFFFFFFFFF = true ∧ F64.isNumeric 0x8000000000000001 = true
      ∧ |fp64Value 0xFFEFFFFFFFFFFFFF + fp64Value 0| ≤ fp64Max
      ∧ |fp64Value 0x7FEFFFFFFFFFFFFF - fp64Value 0x3FF0000000000000| ≤ fp64Max
      ∧ |fp64Value 0xFFEFFFFFFFFFFFFF * fp64Value 0x3FF0000000000000| ≤ fp64Max
      ∧ fp64Value 0x8000000000000001 ≠ 0 ∧ |fp64Value 0x8000000000000001 / fp64Value 0x8000000000000001| ≤ fp64Max
      ∧ |(2 ^ 53 : Int)| ≤ 2 ^ 53 ∧ |(-2 ^ 53 : Int)| ≤ 2 ^ 53 := by
  decide +kernel

theorem witness_NumericPatternRoundTrips :
    F64.isNumeric 0x8000000000000001 = true ∧ F64.isNumeric 0x7FEFFFFFFFFFFFFF = true := by
  decide

/-- DV-D1 c: neither the limits nor the bases are checked. -/
theorem witness_ZeroAreaEndsAtOnce :
    ∃ s : State, 1 ≤ s.bits.toNat ∧ s.bits.toNat ≤ 8 ∧ s.srcLen = 0 ∧ s.width.toNat = 0 ∧ s.busy = false
      ∧ s.height = 0xFFFFFFFF ∧ s.srcBase = 3 ∧ s.dstBase = 7 :=
  ⟨{ State.reset with height := 0xFFFFFFFF, srcBase := 3, dstBase := 7 }, by decide⟩

/-- The largest image of the parameters, filling pixel memory. -/
def full : State := { State.powerOn tiny with width := 4, height := 4, srcLen := 64 }

theorem witness_AcceptedDitherBeginsPass :
    1 ≤ full.bits.toNat ∧ full.bits.toNat ≤ 8 ∧ full.srcLen.toNat = full.width.toNat * full.height.toNat * 4
      ∧ 0 < full.width.toNat * full.height.toNat ∧ full.width.toNat ≤ full.cfg.maxW
      ∧ full.height.toNat ≤ full.cfg.maxH ∧ full.srcBase.toNat % 4 = 0 ∧ full.dstBase.toNat % 4 = 0
      ∧ full.srcBase.toNat + 4 * (full.width.toNat * full.height.toNat) ≤ full.cfg.pmBytes
      ∧ full.dstBase.toNat + 4 * (full.width.toNat * full.height.toNat) ≤ full.cfg.pmBytes := by
  decide

/-- The first and the last iteration of phase 1. -/
theorem witness_PhaseOneEntryIsLuma :
    started.phase = .init ∧ started.srcPixel started.cursor + 4 ≤ started.cfg.pmBytes
      ∧ started.cursor + 1 < started.pixels
      ∧ ({ started with cursor := 1, eb := [0] } : State).pixels ≤ 1 + 1 := by
  decide

/-- The scanner inside a row, at the end of a row that is not the last, and at the last pixel. -/
theorem witness_ScanStepFinalizesPixel :
    scanning.Inv ∧ scanning.phase = .scan ∧ scanning.scanX.toNat + 1 < scanning.W
      ∧ rowEnd.Inv ∧ rowEnd.phase = .scan ∧ rowEnd.scanX.toNat + 1 = rowEnd.W ∧ rowEnd.scanY.toNat + 1 < rowEnd.H
      ∧ ({ scanning with scanX := 1, qb := [0] } : State).Inv ∧ (1 : BitVec 16).toNat + 1 = scanning.W
      ∧ scanning.scanY.toNat + 1 = scanning.H :=
  ⟨scanning_inv, rfl, by decide, rowEnd_inv, rfl, by decide, by decide,
    ⟨by decide, by decide, by decide, fun h => absurd rfl h, fun _ => rfl, by decide, by decide, by decide, rfl, rfl⟩,
    by decide, by decide⟩

theorem witness_DiffusionUpdatesFourNeighbours :
    1 < 3 ∧ 0 < 2 ∧ ([0, 0, 0, 0, 0, 0] : List NumWord).length = 3 * 2 := by
  decide

theorem witness_DiffusionTargetsAreUnvisited :
    1 < 3 ∧ 0 < 2 ∧ ((-1, 1, 3) : Int × Int × Nat) ∈ diffusionTargets
      ∧ targetIndex 3 2 ((1 : Nat) + (-1)) ((0 : Nat) + 1) = some 3 := by
  decide

/-- The six positions of rule R182 in a 3×2 and a 1×2 image. -/
theorem witness_BorderWeights :
    (1 ≤ 1 ∧ 1 + 2 ≤ 3 ∧ 0 + 2 ≤ 2) ∧ (2 ≤ 3 ∧ 0 + 2 ≤ 2) ∧ (2 + 1 = 3 ∧ 2 ≤ 3) ∧ (0 < 1 ∧ 0 + 2 ≤ 2)
      ∧ (1 + 1 = 2 ∧ 0 + 2 ≤ 3) ∧ (1 + 1 = 2 ∧ 2 + 1 = 3)
      ∧ diffusedWeight 3 2 1 0 = 16 ∧ diffusedWeight 1 2 0 0 = 5 := by
  decide

theorem witness_MaterializerWritesGreyPixel : writing.Inv ∧ writing.phase = .mat ∧ writing.cursor < writing.pixels :=
  ⟨writing_inv, rfl, by decide⟩

theorem witness_CompletionStepReports : complete.Inv ∧ complete.phase = .mat ∧ complete.pixels ≤ complete.cursor :=
  ⟨complete_inv, rfl, by decide⟩

theorem witness_StepKeepsInvariant : scanning.Inv ∧ ∃ t, step scanning = .next t ∧ t.qb = [0] :=
  ⟨scanning_inv, _, rfl, by decide⟩

theorem witness_RunsNeverStop : started.Inv := started_inv

/-- BUSY set by a DITHER, and cleared by the completion step and by a reset. -/
theorem witness_BusyChangesOnlyByPass :
    (∃ t, step (issued image2 3) = .next t ∧ (issued image2 3).busy = false ∧ t.busy = true)
      ∧ (∃ t, step complete = .next t ∧ complete.busy = true ∧ t.busy = false)
      ∧ ∃ t, step { writing with inputs := [.reset] } = .next t ∧ writing.busy = true ∧ t.busy = false :=
  ⟨⟨_, rfl, rfl, rfl⟩, ⟨_, rfl, rfl, rfl⟩, ⟨_, rfl, rfl, rfl⟩⟩

/-- Each of the two flags set by each of its events, at the ends of pixel memory, and cleared by each of its
events; and each left alone by an event beside them. -/
theorem witness_StickyFlagsChange :
    (∃ t, step complete = .next t ∧ complete.range = false ∧ t.range = true)
      ∧ (∃ t, step { complete with saturated := false } = .next t ∧ t.range = false)
      ∧ (∃ t, step (asked writing (.write .b4 Reg.bits.addr 1)) = .next t ∧ writing.werr = false ∧ t.werr = true)
      ∧ (∃ t, step (asked writing (.write .b4 0x01000000 1)) = .next t ∧ t.werr = true)
      ∧ (∃ t, step (asked writing (.write .b1 0x0100003F 1)) = .next t ∧ t.werr = true)
      ∧ (∃ t, step (asked writing (.write .b1 0x01000040 1)) = .next t ∧ t.werr = false)
      ∧ (∃ t, step (asked writing (.write .b4 Reg.irqen.addr 1)) = .next t ∧ t.werr = false)
      ∧ (∃ t, step (asked { writing with range := true, werr := true } (.write .b4 Reg.status.addr 0x300)) = .next t
        ∧ t.range = false ∧ t.werr = false)
      ∧ ∃ t, step { writing with range := true, werr := true, inputs := [.reset] } = .next t
        ∧ t.range = false ∧ t.werr = false :=
  ⟨⟨_, rfl, rfl, rfl⟩, ⟨_, rfl, rfl⟩, ⟨_, rfl, rfl, rfl⟩, ⟨_, rfl, rfl⟩, ⟨_, rfl, rfl⟩, ⟨_, rfl, rfl⟩,
    ⟨_, rfl, rfl⟩, ⟨_, rfl, rfl, rfl⟩, ⟨_, rfl, rfl, rfl⟩⟩

/-- A dropped write, a STATUS write without bit 8, and a malformed access. -/
theorem witness_HostAccessLeavesPassAlone :
    (asked scanning (.write .b4 Reg.width.addr 9)).busy = true
      ∧ (asked scanning (.write .b4 Reg.width.addr 9)).inputs = .host (.write .b4 Reg.width.addr 9) :: []
      ∧ (asked scanning (.write .b4 Reg.status.addr 0x202)).inputs = .host (.write .b4 Reg.status.addr 0x202) :: []
      ∧ (0x202 : Word).getLsbD 8 = false
      ∧ (asked scanning (.read .b2 0)).inputs = .host (.read .b2 0) :: [] := by
  decide

theorem witness_EngineStepsAreWholePass :
    started.Inv ∧ started.phase = .init ∧ started.cursor = 0 ∧ started.saturated = false ∧ started.inputs = [] :=
  ⟨started_inv, rfl, rfl, rfl, rfl⟩

/-- A host write between the first and the second engine step of a two-pixel pass. -/
theorem witness_InterleavedPassGivesSameOutput :
    ∃ (s : State) (turns : List Input), s.Inv ∧ s.phase = .init ∧ s.cursor = 0 ∧ s.saturated = false
      ∧ s.inputs = turns ++ .engine :: [] ∧ Input.reset ∉ turns
      ∧ (turns.filter (· == .engine)).length = 3 * s.pixels :=
  ⟨{ started with inputs := .engine :: .host (.write .b1 (pmAddr 0) 9) :: List.replicate 6 .engine },
    .engine :: .host (.write .b1 (pmAddr 0) 9) :: List.replicate 5 .engine,
    ⟨by decide, by decide, by decide, fun h => absurd rfl h, fun _ => rfl, by decide, by decide, rfl, rfl⟩,
    by decide⟩

theorem witness_AcceptedDitherEnds :
    image2.Inv ∧ ∃ t, image2.busy = false ∧ image2.done = false ∧ image2.inputs = [] ∧ image2.check = .accept
      ∧ exec .dither image2 = .next t ∧ 0 < passSteps image2.pixels :=
  ⟨image2_inv, _, rfl, rfl, rfl, by decide, rfl, by decide⟩

/-- The first and the last byte beside the output region, and the last pixel inside it. -/
theorem witness_PassWritesOutputRegionOnly :
    ([-8, 300] : List Int).length = image2.pixels ∧ image2.inOutput 7 = false ∧ image2.inOutput 16 = false
      ∧ ([-8, 300] : List Int)[1]? = some 300 := by
  decide

/-- The machine is busy after each of the first k steps. -/
def busyUntil (k : Nat) (s : State) : Bool :=
  (List.range (k + 1)).all fun j => (nextOf (Host.Core.run core j s)).any State.busy

/-- Another machine with the image of `started`: other limits, registers and output region, and a host that
accesses it during the pass. -/
def other : State :=
  { started with
    cfg := { tiny with maxW := 2, maxH := 1, pmBytes := 128 }, dstBase := 0, opa := 7, qres := 9, range := true,
    inputs := .engine :: .host (.write .b4 Reg.status.addr 0x100) :: List.replicate 6 .engine }

theorem other_inv : other.Inv :=
  ⟨by decide, by decide, by decide, fun h => absurd rfl h, fun _ => rfl, by decide, by decide, rfl, rfl⟩

theorem witness_PassIsFunctionOfInput :
    ∃ u u' t t' : State, started.Inv ∧ other.Inv ∧ started.phase = .init ∧ other.phase = .init
      ∧ started.cursor = 0 ∧ other.cursor = 0 ∧ started.saturated = false ∧ other.saturated = false
      ∧ started.cfg.numFmt = other.cfg.numFmt ∧ started.cfg.fracBits = other.cfg.fracBits
      ∧ started.width = other.width ∧ started.height = other.height ∧ started.bits = other.bits
      ∧ (∀ a, a < 4 * started.pixels →
        started.pm.byte (started.srcBase.toNat + a) = other.pm.byte (other.srcBase.toNat + a))
      ∧ busyUntil 6 started = true ∧ busyUntil 7 other = true
      ∧ Host.Core.run core 6 started = .next u ∧ Host.Core.run core 7 other = .next u'
      ∧ step u = .next t ∧ step u' = .next t'
      ∧ t.busy = false ∧ t'.busy = false ∧ t.done = true ∧ t'.done = true ∧ started.inputs = [] :=
  ⟨_, _, _, _, started_inv, other_inv, rfl, rfl, rfl, rfl, rfl, rfl, rfl, rfl, rfl, rfl, rfl, fun _ _ => rfl,
    by decide, by decide, rfl, rfl, rfl, rfl, rfl, rfl, rfl, rfl, rfl⟩

/-- Both modes, both ends of the depths, the first pixel, one in the middle and the end of an image. -/
theorem witness_PassLevelsAndValuesInRange :
    tiny.legal = true ∧ tiny64.legal = true ∧ 1 ≤ 1 ∧ 8 ≤ 8
      ∧ ([Pixel.ofWord 0xFF000001, Pixel.ofWord 0xFF040000] : List Pixel).length = 2 * 1
      ∧ scanBuffer (arithOf tiny) 2 1 8 1 0 [0x4C8B, 0x74BC] = some [0x4C8B, 38457]
      ∧ ([0x4C8B, 38457] : List NumWord)[1]? = some 38457
      ∧ (scanBuffer (arithOf tiny64) 2 1 1 0 0 [0, 0x406FE00000000000] = some [0, 0x406FE00000000000])
      ∧ (scanBuffer (arithOf tiny64) 2 1 1 2 0 [0, 0x406FE00000000000]).isSome = true := by
  decide +kernel

/-- A grey opaque image: every luma is an integer. -/
theorem witness_RealDepthEightFollowsLuma :
    ([Pixel.grey 7] : List Pixel).length = 1 * 1 ∧ ∀ p ∈ [Pixel.grey 7], ∃ k : Int, lumaReal p = k := by
  refine ⟨rfl, fun p hp => ⟨7, ?_⟩⟩
  rw [List.mem_singleton.1 hp]
  have h : lumaSum (Pixel.grey 7) = 1785000 := by decide
  rw [lumaReal, h]
  norm_num

end Sys2Proof.Tests
end

/-! SUPPORT. The rounding `fl` on signed values (rules R13, R108): the value of a pattern from its sign and its
low 63 bits, the distance of `fl` from the exact magnitude, and each operation as one `fl` of the exact result. -/

namespace Sys2Proof.Machine.F64

/-! ### Values of patterns -/

/-- The factor that a sign bit stands for. -/
def signFactor (s : Bool) : ℚ := if s then -1 else 1

@[simp] theorem signFactor_true : signFactor true = -1 := rfl
@[simp] theorem signFactor_false : signFactor false = 1 := rfl

@[simp] theorem abs_signFactor (s : Bool) : |signFactor s| = 1 := by cases s <;> simp

theorem signFactor_bne (s t : Bool) : signFactor (s != t) = signFactor s * signFactor t := by
  cases s <;> cases t <;> simp

theorem one_cast_pos : (0 : ℚ) < one := Nat.cast_pos.2 f64one_pos

theorem fp64Value_eq (w : NumWord) : fp64Value w = signFactor (neg w) * mag w / one := by
  rw [fp64Value, scaled]
  cases neg w <;> simp

theorem fp64Value_pack (s : Bool) (m : Nat) (hm : m < 2 ^ 63) :
    fp64Value (pack s m) = signFactor s * magBits m / one := by
  rw [fp64Value_eq, neg_pack s m hm, mag_pack s m hm]

theorem magBits_zero : magBits 0 = 0 := by simpa using magBits_of 0 0 (by decide) (.inl rfl)

/-- The largest finite value has the low 63 bits just below those of infinity. -/
theorem fp64Max_eq : fp64Max = magBits (0x7FF * 2 ^ 52 - 1) / one := by
  have hpack : (0x7FEFFFFFFFFFFFFF : NumWord) = pack false (0x7FF * 2 ^ 52 - 1) := by decide
  rw [fp64Max, hpack, fp64Value_pack _ _ (by decide), signFactor_false, one_mul]

/-! ### The distance of `fl` -/

/-- The next pattern above k dropped places and the significand q is at least one place further. -/
theorem magBits_gap_above {k q m : Nat} (hq : q ≤ 2 ^ 53) (hk : k = 0 ∨ 2 ^ 52 ≤ q) (h : k * 2 ^ 52 + q < m) :
    (q + 1) * 2 ^ k ≤ magBits m := by
  rcases Nat.lt_or_eq_of_le hq with hlt | rfl
  · rw [← magBits_of k (q + 1) hlt (hk.imp_right (by omega))]
    exact magBits_mono h
  · calc (2 ^ 53 + 1) * 2 ^ k ≤ (2 ^ 52 + 1) * 2 ^ (k + 1) := by rw [Nat.pow_succ]; omega
      _ = magBits ((k + 1) * 2 ^ 52 + (2 ^ 52 + 1)) := (magBits_of _ _ (by decide) (.inr (by decide))).symm
      _ ≤ magBits m := magBits_mono (by omega)

/-- The next pattern below is at least one place away, unless q is the least significand of its binade. -/
theorem magBits_gap_below {k q m : Nat} (hq : q ≤ 2 ^ 53) (hk : k = 0 ∨ 2 ^ 52 < q) (h : m < k * 2 ^ 52 + q) :
    magBits m + 2 ^ k ≤ q * 2 ^ k := by
  have hpos : 0 < q := by omega
  obtain ⟨p, rfl⟩ := Nat.exists_eq_add_one_of_ne_zero hpos.ne'
  have hle : magBits m ≤ p * 2 ^ k := by
    rw [← magBits_of k p (by omega) (hk.imp_right (by omega))]
    exact magBits_mono (by omega)
  rw [Nat.succ_mul]
  omega

theorem roundMag_eq_of_lt {n d : Nat} (h : roundMag n d < 0x7FF * 2 ^ 52) :
    roundMag n d = dropped n d * 2 ^ 52 + nearestEven n (d * 2 ^ dropped n d) := by
  rw [roundMag_eq] at h ⊢
  omega

/-- The rounded magnitude is within half a place of the exact one, and at half a place its pattern is even. -/
theorem magBits_roundMag_near (n d : Nat) (hd : 0 < d) (h : roundMag n d < 0x7FF * 2 ^ 52) :
    2 * |(magBits (roundMag n d) : ℚ) - n / d| ≤ 2 ^ dropped n d
      ∧ (2 * |(magBits (roundMag n d) : ℚ) - n / d| = 2 ^ dropped n d → roundMag n d % 2 = 0) := by
  have hD : 0 < d * 2 ^ dropped n d := Nat.mul_pos hd (Nat.two_pow_pos _)
  obtain ⟨hle, hge⟩ := nearestEven_near n _ hD
  have htie := nearestEven_tie n _ hD
  rw [magBits_roundMag n d hd h, roundMag_eq_of_lt h]
  generalize nearestEven n (d * 2 ^ dropped n d) = q at *
  generalize dropped n d = k at *
  have hdQ : (0 : ℚ) < d := Nat.cast_pos.2 hd
  -- the same distance, times 2d, in whole numbers
  have hdist : 2 * |((q * 2 ^ k : Nat) : ℚ) - n / d| * d = |((2 * (d * 2 ^ k * q) : Nat) : ℚ) - (2 * n : Nat)| := by
    calc _ = |2 * (((q * 2 ^ k : Nat) : ℚ) - n / d) * d| := by rw [abs_mul, abs_mul, abs_two, abs_of_pos hdQ]
      _ = _ := by congr 1; push_cast; field_simp
  have hplace : (2 : ℚ) ^ k * d = (d * 2 ^ k : Nat) := by push_cast; ring
  constructor
  · rw [← mul_le_mul_iff_left₀ hdQ, hdist, hplace, abs_sub_le_iff, sub_le_iff_le_add, sub_le_iff_le_add]
    exact_mod_cast And.intro (by omega) (by omega)
  · intro he
    have hq : q % 2 = 0 := by
      rw [← mul_left_inj' hdQ.ne', hdist, hplace, abs_eq (Nat.cast_nonneg _), sub_eq_iff_eq_add, sub_eq_iff_eq_add,
        neg_add_eq_sub, eq_sub_iff_add_eq] at he
      rcases he with he | he
      · norm_cast at he
        exact htie (.inr (by omega))
      · norm_cast at he
        exact htie (.inl (by omega))
    omega

/-- A number at least a place away from a rounding is no nearer than it, and equally near only at a tie. -/
theorem near_of_gap {r m x place : ℚ} (hgap : place ≤ |m - r|) (hr : 2 * |r - x| ≤ place) :
    |r - x| ≤ |m - x| ∧ (|r - x| = |m - x| → 2 * |r - x| = place) := by
  have htri := abs_sub_le m x r
  rw [abs_sub_comm x r] at htri
  constructor
  · linarith
  · intro he
    linarith

/-- Every other pattern is a whole place away from `fl`, or lies in the binade below where the exact magnitude
does not. -/
theorem magBits_gap (n d : Nat) (hd : 0 < d) (h : roundMag n d < 0x7FF * 2 ^ 52) {m : Nat} (hne : m ≠ roundMag n d) :
    (2 : ℚ) ^ dropped n d ≤ |(magBits m : ℚ) - magBits (roundMag n d)|
      ∨ |(magBits (roundMag n d) : ℚ) - n / d| < |(magBits m : ℚ) - n / d| := by
  obtain ⟨hq, hk⟩ := signif_bounds n d hd
  have hmag := magBits_roundMag n d hd h
  have hr := roundMag_eq_of_lt h
  rcases Nat.lt_or_gt_of_ne hne with hlt | hgt
  · by_cases hleast : dropped n d = 0 ∨ 2 ^ 52 < nearestEven n (d * 2 ^ dropped n d)
    · refine .inl (le_abs.2 (.inr ?_))
      have hgap := magBits_gap_below hq hleast (hr ▸ hlt)
      rw [← hmag] at hgap
      rw [neg_sub, le_sub_iff_add_le']
      exact_mod_cast hgap
    · obtain ⟨hk0, hq52⟩ := not_or.1 hleast
      have hx : (magBits (roundMag n d) : ℚ) ≤ n / d := by
        have hn : 2 ^ 52 * (d * 2 ^ dropped n d) ≤ n := (dropped_bounds n d hd).2.resolve_left hk0
        rw [le_div_iff₀ (Nat.cast_pos.2 hd), hmag, (hk.resolve_left hk0).antisymm' (Nat.not_lt.1 hq52)]
        exact_mod_cast (by linarith : 2 ^ 52 * 2 ^ dropped n d * d ≤ n)
      have hm : (magBits m : ℚ) < magBits (roundMag n d) := Nat.cast_lt.2 (magBits_strictMono hlt)
      right
      rw [abs_of_nonpos (by linarith), abs_of_nonpos (by linarith)]
      linarith
  · refine .inl (le_abs.2 (.inl ?_))
    have hgap := magBits_gap_above hq hk (hr ▸ hgt)
    rw [Nat.succ_mul, ← hmag] at hgap
    rw [le_sub_iff_add_le']
    exact_mod_cast hgap

/-- `fl` of a magnitude is at least as near as every other magnitude, and even where another is equally near. -/
theorem roundMag_nearest (n d : Nat) (hd : 0 < d) (h : roundMag n d < 0x7FF * 2 ^ 52) (m : Nat) :
    |(magBits (roundMag n d) : ℚ) - n / d| ≤ |(magBits m : ℚ) - n / d|
      ∧ (|(magBits (roundMag n d) : ℚ) - n / d| = |(magBits m : ℚ) - n / d| → m ≠ roundMag n d →
        roundMag n d % 2 = 0) := by
  obtain ⟨hnear, heven⟩ := magBits_roundMag_near n d hd h
  by_cases hne : m = roundMag n d
  · exact ⟨by rw [hne], fun _ hne' => absurd hne hne'⟩
  · rcases magBits_gap n d hd h hne with hgap | hlt
    · obtain ⟨hle, htie⟩ := near_of_gap hgap hnear
      exact ⟨hle, fun he _ => heven (htie he)⟩
    · exact ⟨hlt.le, fun he => absurd he hlt.ne⟩

/-! ### `fl` on signed values -/

theorem fracField_pack_even {s : Bool} {m : Nat} (hm : m < 2 ^ 63) (h : m % 2 = 0) : fracField (pack s m) % 2 = 0 := by
  rw [fracField_pack s m hm]
  omega

theorem isNumeric_fl (s : Bool) {n d : Nat} (h : roundMag n d < 0x7FF * 2 ^ 52) : isNumeric (fl s n d) = true :=
  isNumeric_pack s _ h

theorem neg_fl (s : Bool) {n d : Nat} (h : roundMag n d < 0x7FF * 2 ^ 52) : neg (fl s n d) = s :=
  neg_pack s _ (by omega)

/-- `fl` of a magnitude is at least as near as every pattern of its sign, and even where another is equally near. -/
theorem fl_nearest {s : Bool} {n d : Nat} (hd : 0 < d) (h : roundMag n d < 0x7FF * 2 ^ 52) {p : NumWord}
    (hp : neg p = s) :
    |(mag (fl s n d) : ℚ) - n / d| ≤ |(mag p : ℚ) - n / d|
      ∧ (|(mag (fl s n d) : ℚ) - n / d| = |(mag p : ℚ) - n / d| → p ≠ fl s n d → fracField (fl s n d) % 2 = 0) := by
  obtain ⟨hle, htie⟩ := roundMag_nearest n d hd h (p.toNat % 2 ^ 63)
  rw [mag_eq p, fl, mag_pack _ _ (by omega)]
  refine ⟨hle, fun he hne => fracField_pack_even (by omega) (htie he fun hm => hne ?_)⟩
  rw [← hm, ← hp, pack_self]

/-- A magnitude up to the largest finite value does not overflow. -/
theorem roundMag_lt (n d : Nat) (hd : 0 < d) (h : (n / d : ℚ) / one ≤ fp64Max) : roundMag n d < 0x7FF * 2 ^ 52 := by
  rw [fp64Max_eq, div_le_div_iff_of_pos_right one_cast_pos, div_le_iff₀ (Nat.cast_pos.2 hd)] at h
  have hmax : roundMag n d ≤ roundMag (magBits (0x7FF * 2 ^ 52 - 1) * d) d :=
    roundMag_mono hd hd (Nat.mul_le_mul_right d (by exact_mod_cast h))
  rw [roundMag_exact _ (by omega) d hd] at hmax
  omega

theorem abs_fp64Value_sub_same {p : NumWord} {s : Bool} (hs : neg p = s) (x : ℚ) :
    |fp64Value p - signFactor s * x / one| = |(mag p : ℚ) - x| / one := by
  rw [fp64Value_eq, hs, ← sub_div, ← mul_sub, abs_div, abs_mul, abs_signFactor, one_mul, abs_of_pos one_cast_pos]

theorem abs_fp64Value_sub_opposite {p : NumWord} {s : Bool} (hs : neg p ≠ s) {x : ℚ} (hx : 0 ≤ x) :
    |fp64Value p - signFactor s * x / one| = (mag p + x) / one := by
  have hneg : signFactor s = -signFactor (neg p) := by
    rw [← Bool.not_eq.2 hs]
    cases neg p <;> simp
  rw [fp64Value_eq, hneg, ← sub_div, neg_mul, sub_neg_eq_add, ← mul_add, abs_div, abs_mul, abs_signFactor, one_mul,
    abs_of_pos one_cast_pos, abs_of_nonneg (by positivity)]

/-- `fl` of a sign and a magnitude is rule R13's `fl` of the value, up to the largest finite value. -/
theorem isFl_fl (s : Bool) (n d : Nat) (hd : 0 < d) {x : ℚ} (hx : x = signFactor s * (n / d) / one)
    (hmax : |x| ≤ fp64Max) : IsFl x (fl s n d) := by
  have hX : (0 : ℚ) ≤ n / d := div_nonneg (Nat.cast_nonneg n) (Nat.cast_nonneg d)
  have hr : roundMag n d < 0x7FF * 2 ^ 52 := by
    rw [hx, abs_div, abs_mul, abs_signFactor, one_mul, abs_of_nonneg hX, abs_of_pos one_cast_pos] at hmax
    exact roundMag_lt n d hd hmax
  have hdist : |fp64Value (fl s n d) - x| = |(mag (fl s n d) : ℚ) - n / d| / one := by
    rw [hx, abs_fp64Value_sub_same (neg_fl s hr)]
  refine ⟨isNumeric_fl s hr, fun p _ => ?_⟩
  rw [hdist, hx]
  by_cases hs : neg p = s
  · obtain ⟨hle, htie⟩ := fl_nearest hd hr hs
    rw [abs_fp64Value_sub_same hs, div_le_div_iff_of_pos_right one_cast_pos, div_left_inj' one_cast_pos.ne']
    exact ⟨hle, fun he hne => htie he fun hp => hne (congrArg fp64Value hp)⟩
  · -- of the other sign, p is no nearer than the zero of the result's sign
    obtain ⟨hle, htie⟩ := fl_nearest hd hr (neg_pack s 0 (by decide))
    rw [mag_pack s 0 (by decide), magBits_zero, Nat.cast_zero, zero_sub, abs_neg, abs_of_nonneg hX] at hle htie
    have hp : (0 : ℚ) ≤ mag p := Nat.cast_nonneg _
    rw [abs_fp64Value_sub_opposite hs hX, div_le_div_iff_of_pos_right one_cast_pos, div_left_inj' one_cast_pos.ne']
    refine ⟨by linarith, fun he _ => ?_⟩
    by_cases hzero : pack s 0 = fl s n d
    · exact hzero ▸ fracField_pack_even (by decide) rfl
    · exact htie (by linarith) hzero

/-! ### The operations on numeric patterns -/

theorem neg_negate (w : NumWord) : neg (negate w) = !neg w := by
  have hmsb : (0x8000000000000000 : NumWord).msb = true := by decide
  rw [neg, negate, BitVec.msb_xor, hmsb, Bool.xor_true, neg]

theorem expField_negate (w : NumWord) : expField (negate w) = expField w := by
  simp [expField, negate, BitVec.extractLsb'_xor]

theorem fracField_negate (w : NumWord) : fracField (negate w) = fracField w := by
  simp [fracField, negate, BitVec.extractLsb'_xor]

theorem isNumeric_negate (w : NumWord) : isNumeric (negate w) = isNumeric w := by
  rw [isNumeric, isNumeric, expField_negate]

theorem fp64Value_negate (w : NumWord) : fp64Value (negate w) = -fp64Value w := by
  have hmag : mag (negate w) = mag w := by rw [mag, mag, expField_negate, fracField_negate]
  rw [fp64Value_eq, fp64Value_eq, neg_negate, hmag]
  cases neg w <;> simp [neg_div]

theorem signFactor_mul_natAbs {s : Bool} {z : Int} (h : z ≠ 0 → s = decide (z < 0)) :
    signFactor s * z.natAbs = z := by
  rcases lt_trichotomy z 0 with hz | rfl | hz
  · rw [h hz.ne, decide_eq_true hz, signFactor_true, Nat.cast_natAbs, abs_of_neg hz]
    simp
  · simp
  · rw [h hz.ne', decide_eq_false (not_lt.2 hz.le), signFactor_false, Nat.cast_natAbs, abs_of_pos hz, one_mul]

section
variable {a b : NumWord} (ha : isNumeric a = true) (hb : isNumeric b = true)
include ha hb

theorem isFl_add (h : |fp64Value a + fp64Value b| ≤ fp64Max) : IsFl (fp64Value a + fp64Value b) (add a b) := by
  rw [add, ha, hb, Bool.and_self, if_pos rfl]
  refine isFl_fl _ _ 1 one_pos ?_ h
  rw [Nat.cast_one, div_one, signFactor_mul_natAbs (fun hz => if_neg hz), fp64Value, fp64Value, ← add_div]
  push_cast
  rfl

theorem isFl_sub (h : |fp64Value a - fp64Value b| ≤ fp64Max) : IsFl (fp64Value a - fp64Value b) (sub a b) := by
  rw [sub_eq_add_neg, ← fp64Value_negate] at h ⊢
  exact isFl_add ha (by rw [isNumeric_negate, hb]) h

theorem isFl_mul (h : |fp64Value a * fp64Value b| ≤ fp64Max) : IsFl (fp64Value a * fp64Value b) (mul a b) := by
  rw [mul, ha, hb, Bool.and_self, if_pos rfl]
  refine isFl_fl _ _ one f64one_pos ?_ h
  rw [fp64Value_eq, fp64Value_eq, signFactor_bne]
  push_cast
  ring

theorem isFl_div (h0 : fp64Value b ≠ 0) (h : |fp64Value a / fp64Value b| ≤ fp64Max) :
    IsFl (fp64Value a / fp64Value b) (div a b) := by
  have hmag : mag b ≠ 0 := fun hm => h0 (by rw [fp64Value_eq, hm]; simp)
  rw [div, ha, hb, bne_iff_ne.2 hmag, Bool.and_self, Bool.and_self, if_pos rfl]
  refine isFl_fl _ _ (mag b) (Nat.pos_of_ne_zero hmag) ?_ h
  have hone := one_cast_pos.ne'
  have hmagQ : (mag b : ℚ) ≠ 0 := Nat.cast_ne_zero.2 hmag
  have hsign : (signFactor (neg b))⁻¹ = signFactor (neg b) := by cases neg b <;> norm_num
  rw [fp64Value_eq, fp64Value_eq, signFactor_bne, div_div_div_cancel_right₀ hone, mul_div_mul_comm,
    div_eq_mul_inv (signFactor _), hsign]
  push_cast
  field_simp

end

/-! ### Exact values -/

theorem fl_self (w : NumWord) (hw : isNumeric w = true) : fl (neg w) (mag w) 1 = w := by
  have hexact := roundMag_exact (w.toNat % 2 ^ 63) ((isNumeric_iff w).1 hw).le 1 one_pos
  rw [fl, mag_eq, ← Nat.mul_one (magBits _), hexact, pack_self]

/-- A significand of at most 53 bits is written with an exponent, or as a subnormal. -/
theorem exists_normalized {i : Nat} (hi : i ≤ 2 ^ 53) (e : Nat) :
    ∃ k q, k ≤ e ∧ q ≤ 2 ^ 53 ∧ (k = 0 ∨ 2 ^ 52 ≤ q) ∧ q * 2 ^ k = i * 2 ^ e := by
  induction e with
  | zero => exact ⟨0, i, le_rfl, hi, .inl rfl, rfl⟩
  | succ e ih =>
    obtain ⟨k, q, hke, hq, hk, heq⟩ := ih
    by_cases hlt : q < 2 ^ 52
    · obtain rfl : k = 0 := by omega
      exact ⟨0, q * 2, by omega, by omega, .inl rfl, by rw [Nat.pow_succ, ← Nat.mul_assoc, ← heq]; ring⟩
    · exact ⟨k + 1, q, by omega, hq, .inr (by omega), by rw [Nat.pow_succ, ← Nat.mul_assoc, heq]; ring⟩

/-- A whole number of at most 53 bits is the magnitude of a numeric pattern. -/
theorem exists_magBits_eq_mul_one {i : Nat} (hi : i ≤ 2 ^ 53) : ∃ m < 0x7FF * 2 ^ 52, magBits m = i * one := by
  obtain ⟨e, he, hone⟩ : ∃ e ≤ 1074, one = 2 ^ e := by
    unfold one
    exact ⟨_, le_rfl, rfl⟩
  obtain ⟨k, q, hke, hq, hk, heq⟩ := exists_normalized hi e
  exact ⟨k * 2 ^ 52 + q, by omega, by rw [magBits_of k q hq hk, heq, hone]⟩

theorem ofInt_exact (i : Int) (hi : |i| ≤ 2 ^ 53) : isNumeric (ofInt i) = true ∧ fp64Value (ofInt i) = i := by
  rw [Int.abs_eq_natAbs] at hi
  obtain ⟨m, hm, hmag⟩ := exists_magBits_eq_mul_one (i := i.natAbs) (by omega)
  have hround : ofInt i = pack (decide (i < 0)) m := by
    rw [ofInt, fl, ← hmag, ← Nat.mul_one (magBits m), roundMag_exact m hm.le 1 one_pos]
  rw [hround, fp64Value_pack _ m (by omega), hmag, Nat.cast_mul, ← mul_assoc, signFactor_mul_natAbs (fun _ => rfl),
    mul_div_cancel_right₀ _ one_cast_pos.ne']
  exact ⟨isNumeric_pack _ m hm, rfl⟩

theorem rhu_eq_floor (w : NumWord) (hw : isNumeric w = true) : rhu w = ⌊fp64Value w + 1 / 2⌋ := by
  rw [rhu, if_pos hw]
  exact (rhuReal_div (scaled w) f64one_pos).symm

end Sys2Proof.Machine.F64

namespace Sys2Proof.Machine

/-- The machine right after reset meets the invariant: it is idle, and no byte is listed. -/
theorem State.powerOn_inv {c : Config} (h : c.legal = true) : (State.powerOn c).Inv where
  legal := h
  canonical := rfl
  within := rfl
  errDone := fun herr => absurd rfl herr
  busyQuiet := fun _ => rfl
  pass := trivial

end Sys2Proof.Machine

section
open Sys2Proof Sys2Proof.Machine

/-- Settles O34: each operation is one `fl` of its exact result, and `fl` is the nearest value because every other
pattern is a whole place away. -/
theorem f64OperationsRoundExactResultOnce : Obligations.F64OperationsRoundExactResultOnce := by
  refine ⟨fun n d hd h p _ hp => F64.fl_nearest hd h hp, ?_, F64.ofInt_exact, F64.rhu_eq_floor⟩
  rintro a b _ _ ha hb rfl rfl
  exact ⟨F64.isFl_add ha hb, F64.isFl_sub ha hb, F64.isFl_mul ha hb, F64.isFl_div ha hb⟩

/-- Settles O35: a numeric magnitude is its own rounding, and a pattern is its sign and its low 63 bits. -/
theorem numericPatternRoundTrips : Obligations.NumericPatternRoundTrips := F64.fl_self

/-- Settles O47. -/
theorem invariantHoldsAtReset : Obligations.InvariantHoldsAtReset :=
  ⟨State.powerOn_inv (by decide), fun _ => State.powerOn_inv⟩

end

/-! SUPPORT. What one step can do, said once: a case for each turn and what it reaches (rules R83, R84, R241), with
the frames of the shared operations, and the kept invariant case by case. -/

namespace Sys2Proof.Machine

/-! ### The cases of an engine step -/

/-- What one engine step from `s` does when it ends in `t` (rules R177 to R186). -/
inductive EngineCase (s t : State) : Prop
  /-- No pass is in progress. -/
  | idle (hp : s.phase = .idle) (ht : t = s)
  /-- A pixel of phase 1 that is not the last. -/
  | fill (w : NumWord) (hp : s.phase = .init) (hc : s.cursor + 1 < s.pixels) (ht : t = (s.appendEb w).nextIndex)
  /-- The last pixel of phase 1. -/
  | fillLast (w : NumWord) (hp : s.phase = .init) (hc : s.pixels ≤ s.cursor + 1) (ht : t = (s.appendEb w).startScan)
  /-- A pixel of phase 2 that is not the last; (x, y) is the next one. -/
  | scan (new : Int) (eb : List NumWord) (x y : Nat) (hp : s.phase = .scan)
      (hs : scanPixel (arithOf s.cfg) s.W s.H s.depth s.scanX.toNat s.scanY.toNat s.eb = some (new, eb))
      (hn : nextPos s.W s.H s.scanX.toNat s.scanY.toNat = some (x, y))
      (ht : t = (s.finalize new eb).moveScanner x y)
  /-- The last pixel of phase 2. -/
  | scanLast (new : Int) (eb : List NumWord) (hp : s.phase = .scan)
      (hs : scanPixel (arithOf s.cfg) s.W s.H s.depth s.scanX.toNat s.scanY.toNat s.eb = some (new, eb))
      (hn : nextPos s.W s.H s.scanX.toNat s.scanY.toNat = none)
      (ht : t = (s.finalize new eb).startMat)
  /-- A pixel of phase 3. -/
  | write (q : QbEntry) (hp : s.phase = .mat) (hc : s.cursor < s.pixels)
      (hf : s.dstPixel s.cursor + 4 ≤ s.cfg.pmBytes)
      (ht : t = ((s.withPm (s.pm.putPixel (s.dstPixel s.cursor) (materialize q))).noteLevel (qbLevel q)).nextIndex)
  /-- The completion step. -/
  | complete (hp : s.phase = .mat) (hc : s.pixels ≤ s.cursor) (ht : t = s.completePass)

theorem engineStep_cases {s t : State} (h : engineStep s = .next t) : EngineCase s t := by
  unfold engineStep at h
  cases hp : s.phase with
  | idle =>
    simp only [hp] at h
    cases h
    exact .idle hp rfl
  | init =>
    simp only [hp, engineInit] at h
    split at h
    · cases h
    · split at h <;> cases h
      · exact .fill _ hp ‹_› rfl
      · exact .fillLast _ hp (by omega) rfl
  | scan =>
    simp only [hp, engineScan] at h
    split at h
    · cases h
    · split at h <;> cases h
      · exact .scan _ _ _ _ hp ‹_› ‹_› rfl
      · exact .scanLast _ _ hp ‹_› ‹_› rfl
  | mat =>
    simp only [hp, engineMat] at h
    split at h
    · split at h
      · cases h
      · split at h
        · cases h
        · rename_i hf
          cases h
          exact .write _ hp ‹_› (by simpa [State.pmHas] using hf) rfl
    · cases h
      exact .complete hp (by omega) rfl

theorem engineStep_cfg {s t : State} (h : engineStep s = .next t) : t.cfg = s.cfg := by
  cases engineStep_cases h <;> subst_vars <;> rfl

/-- Only the completion step changes BUSY (rules R37, R186). -/
theorem engineStep_busy {s t : State} (h : engineStep s = .next t) :
    t.busy = s.busy ∨ (s.phase = .mat ∧ s.pixels ≤ s.cursor ∧ t = s.completePass) := by
  cases engineStep_cases h with
  | complete hp hc ht => exact .inr ⟨hp, hc, ht⟩
  | idle hp ht => exact .inl (by rw [ht])
  | fill w hp hc ht => exact .inl (by simp [ht])
  | fillLast w hp hc ht => exact .inl (by simp [ht, s.busy_iff.2 (by simp [hp])])
  | scan new eb x y hp hs hn ht => exact .inl (by simp [ht])
  | scanLast new eb hp hs hn ht => exact .inl (by simp [ht, s.busy_iff.2 (by simp [hp])])
  | write q hp hc hf ht => exact .inl (by simp [ht])

/-! ### The cases of a command -/

/-- The decoder reads a command from its own word only (rules R102 to R104). -/
theorem eq_encode_of_decode {w : Word} {i : Instr} (h : decode w = .ok i) : w = encode i := by
  rw [← rsv_append_op w]
  unfold decode at h
  split at h
  · cases h
  · rename_i hrsv
    rw [not_not.1 hrsv]
    repeat' split at h
    all_goals cases h
    all_goals
      rename_i hop
      rw [hop]
      rfl

/-- A command word either ends at once with DONE = 1 and the pass's state kept, or it is DITHER and its pass begins
(rules R176, R210 to R213). -/
theorem issue_cases {w : Word} {s t : State} (h : issue w s = .next t) :
    (t.done = true ∧ t.phase = s.phase ∧ t.cfg = s.cfg ∧ t.pm = s.pm ∧ t.range = s.range ∧ t.werr = s.werr)
      ∨ (w = encode .dither ∧ s.check = .accept ∧ t = s.beginPass) := by
  unfold issue at h
  split at h
  · rename_i i hi
    rcases exec_cases i s with ⟨e, he⟩ | he | ⟨-, he⟩ | ⟨-, he⟩ | ⟨rfl, hc, he⟩
    case inr.inr.inr.inr =>
      rw [he] at h
      cases h
      exact .inr ⟨eq_encode_of_decode hi, hc, rfl⟩
    all_goals
      rw [he] at h
      cases h
      exact .inl ⟨rfl, rfl, rfl, rfl, rfl, rfl⟩
  · cases h
    exact .inl ⟨rfl, rfl, rfl, rfl, rfl, rfl⟩

theorem issue_cfg {w : Word} {s t : State} (h : issue w s = .next t) : t.cfg = s.cfg := by
  rcases issue_cases h with ⟨-, -, hcfg, -⟩ | ⟨-, -, rfl⟩
  · exact hcfg
  · rfl

/-- No command ends with RANGE or WERR changed (rule R210). -/
theorem issue_flags {w : Word} {s t : State} (h : issue w s = .next t) : t.range = s.range ∧ t.werr = s.werr := by
  rcases issue_cases h with ⟨-, -, -, -, hrange, hwerr⟩ | ⟨-, -, rfl⟩
  · exact ⟨hrange, hwerr⟩
  · exact ⟨rfl, rfl⟩

/-! ### The cases of a step -/

/-- What one step from `s` does when it ends in `t`: one case for each kind of turn and what it reaches
(rules R83, R84, R210 to R217, R241, R280, R281). -/
inductive StepCase (s t : State) : Prop
  /-- The reset input is asserted. -/
  | reset (rest : List Input) (hin : s.inputs = .reset :: rest) (ht : t = (s.withInputs rest).applyReset)
  /-- The engine's turn, named or with the host silent. -/
  | engine (rest : List Input) (hin : s.inputs = [] ∧ rest = [] ∨ s.inputs = .engine :: rest)
      (h : engineStep (s.withInputs rest) = .next t)
  /-- A host read. -/
  | read (w : Width) (a : Word) (rest : List Input) (hin : s.inputs = .host (.read w a) :: rest)
      (ht : t = hostRead w a (s.withInputs rest))
  /-- A host write that ends with a bus error. -/
  | writeError (w : Width) (a v : Word) (rest : List Input) (hin : s.inputs = .host (.write w a v) :: rest)
      (hg : target s.cfg w a = .busError) (ht : t = (s.withInputs rest).respond .busError)
  /-- A host write dropped because BUSY = 1. -/
  | drop (w : Width) (a v : Word) (rest : List Input) (hin : s.inputs = .host (.write w a v) :: rest)
      (hb : s.busy = true)
      (hg : (∃ r, target s.cfg w a = .reg r ∧ r.busyLocked = true) ∨ ∃ off, target s.cfg w a = .pm off)
      (ht : t = ((s.withInputs rest).respond .written).dropWrite)
  /-- A host write to a register other than CTRL. -/
  | store (w : Width) (a v : Word) (r : Reg) (rest : List Input) (hin : s.inputs = .host (.write w a v) :: rest)
      (hg : target s.cfg w a = .reg r) (hr : r ≠ .ctrl) (hb : s.busy = false ∨ r.busyLocked = false)
      (ht : t = ((s.withInputs rest).respond .written).storeReg v r)
  /-- A host write to pixel memory. -/
  | writePm (w : Width) (a v : Word) (off : Nat) (rest : List Input)
      (hin : s.inputs = .host (.write w a v) :: rest) (hg : target s.cfg w a = .pm off) (hb : s.busy = false)
      (ht : t = ((s.withInputs rest).respond .written).withPm (s.pm.write off w.bytes v.toNat))
  /-- A command word written to CTRL. -/
  | command (w : Width) (a v : Word) (rest : List Input) (hin : s.inputs = .host (.write w a v) :: rest)
      (hg : target s.cfg w a = .reg .ctrl) (hb : s.busy = false)
      (h : issue v ((s.withInputs rest).respond .written).beginCommand = .next t)

theorem step_write_cases {s t : State} {w : Width} {a v : Word} {rest : List Input}
    (hin : s.inputs = .host (.write w a v) :: rest) (h : step s = .next t) : StepCase s t := by
  cases hg : target s.cfg w a with
  | busError =>
    rw [step_busError hg (.inr hin)] at h
    cases h
    exact .writeError w a v rest hin hg rfl
  | pm off =>
    cases hb : s.busy
    · rw [step_writePm hg hb hin] at h
      cases h
      exact .writePm w a v off rest hin hg hb rfl
    · rw [step_writePm_busy hg hb hin] at h
      cases h
      exact .drop w a v rest hin hb (.inr ⟨off, hg⟩) rfl
  | reg r =>
    obtain ⟨rfl, rfl⟩ := target_reg_iff.1 hg
    by_cases hd : s.busy = true ∧ r.busyLocked = true
    · rw [step_writeReg_busy hin hd.1 hd.2] at h
      cases h
      exact .drop _ _ v rest hin hd.1 (.inl ⟨r, hg, hd.2⟩) rfl
    · have hb : s.busy = false ∨ r.busyLocked = false := by simpa [← Bool.not_eq_true, imp_iff_not_or] using hd
      by_cases hr : r = .ctrl
      · subst hr
        have hb : s.busy = false := hb.resolve_right (by decide)
        exact .command _ _ v rest hin hg hb (step_writeCtrl hin hb ▸ h)
      · rw [step_writeReg hin hb hr] at h
        cases h
        exact .store _ _ v r rest hin hg hr hb rfl

theorem step_cases {s t : State} (h : step s = .next t) : StepCase s t := by
  rcases hin : s.inputs with _ | ⟨⟨_ | _⟩ | _ | _, rest⟩
  case nil =>
    have hs : s.withInputs [] = s := by rw [← hin]; rfl
    exact .engine [] (.inl ⟨hin, rfl⟩) (by rw [hs, ← step_silent hin, h])
  case cons.host.read w a =>
    rw [step_read hin] at h
    cases h
    exact .read w a rest hin rfl
  case cons.host.write w a v => exact step_write_cases hin h
  case cons.engine => exact .engine rest (.inr hin) (by rw [← step_engine hin, h])
  case cons.reset =>
    rw [step_reset hin] at h
    cases h
    exact .reset rest hin rfl

/-! ### Frames of the host's accesses -/

/-- A read changes the response and the draw counter only (rules R217, R281). -/
theorem hostRead_frame (w : Width) (a : Word) (s : State) :
    ∃ r d, hostRead w a s = { s with response := r, draws := d } := by
  unfold hostRead
  split
  · exact ⟨_, _, rfl⟩
  · exact ⟨_, _, rfl⟩
  · split <;> exact ⟨_, _, rfl⟩

section
variable (w : Width) (a : Word) (s : State)

@[simp] theorem hostRead_cfg : (hostRead w a s).cfg = s.cfg := by
  obtain ⟨r, d, h⟩ := hostRead_frame w a s
  rw [h]

@[simp] theorem hostRead_busy : (hostRead w a s).busy = s.busy := by
  obtain ⟨r, d, h⟩ := hostRead_frame w a s
  rw [h]
  rfl

@[simp] theorem hostRead_range : (hostRead w a s).range = s.range := by
  obtain ⟨r, d, h⟩ := hostRead_frame w a s
  rw [h]

@[simp] theorem hostRead_werr : (hostRead w a s).werr = s.werr := by
  obtain ⟨r, d, h⟩ := hostRead_frame w a s
  rw [h]

end

namespace State

variable (s : State) (v : Word) (r : Reg)

@[simp] theorem storeReg_cfg : (s.storeReg v r).cfg = s.cfg := by cases r <;> rfl
@[simp] theorem storeReg_pm : (s.storeReg v r).pm = s.pm := by cases r <;> rfl
@[simp] theorem storeReg_phase : (s.storeReg v r).phase = s.phase := by cases r <;> rfl
@[simp] theorem storeReg_busy : (s.storeReg v r).busy = s.busy := by cases r <;> rfl

/-- A register write clears DONE by bit 1 of a STATUS write only (rule R214). -/
theorem storeReg_done : (s.storeReg v r).done = (s.done && !(r == .status && v.getLsbD 1)) := by
  cases r <;> simp [storeReg]

/-- A register write clears ERR by bit 1 of a STATUS write only (rule R214). -/
theorem storeReg_err : (s.storeReg v r).err = if r == .status && v.getLsbD 1 then .none else s.err := by
  cases r <;> simp [storeReg]

/-- A register write clears RANGE by bit 8 of a STATUS write only (rule R214). -/
theorem storeReg_range : (s.storeReg v r).range = (s.range && !(r == .status && v.getLsbD 8)) := by
  cases r <;> simp [storeReg]

/-- A register write clears WERR by bit 9 of a STATUS write only (rule R214). -/
theorem storeReg_werr : (s.storeReg v r).werr = (s.werr && !(r == .status && v.getLsbD 9)) := by
  cases r <;> simp [storeReg]

/-- A register that is not busy-locked holds no parameter of a pass (rule R30). -/
theorem storeReg_passView (h : r.busyLocked = false) :
    (s.storeReg v r).passView = s.passView ∧ (s.storeReg v r).srcLen = s.srcLen := by
  cases r <;> simp [Reg.busyLocked] at h <;> exact ⟨rfl, rfl⟩

end State

end Sys2Proof.Machine

namespace Sys2Proof

/-- The bounds of legal parameters (rule R6). -/
theorem Config.legal_iff {c : Config} : c.legal = true ↔
    (c.numFmt = .fix → 8 ≤ c.fracBits ∧ c.fracBits ≤ 32) ∧ (1 ≤ c.maxW ∧ c.maxW ≤ 65535)
      ∧ (1 ≤ c.maxH ∧ c.maxH ≤ 65535) ∧ c.pmBytes % 4 = 0 ∧ 4 ≤ c.pmBytes ∧ c.pmBytes ≤ 0x0F000000 := by
  cases hf : c.numFmt <;> simp [legal, hf, and_assoc]

end Sys2Proof

namespace Sys2Proof.Machine

/-! ### The scanner -/

/-- The three moves of the scanner: along the row, to the next row, and the end of phase 2 (rule R53). -/
theorem nextPos_cases {w h x y : Nat} (hx : x < w) (hy : y < h) :
    (x + 1 < w ∧ nextPos w h x y = some (x + 1, y))
      ∨ (x + 1 = w ∧ y + 1 < h ∧ nextPos w h x y = some (0, y + 1))
      ∨ (x + 1 = w ∧ y + 1 = h ∧ nextPos w h x y = none) := by
  unfold nextPos
  by_cases h1 : x + 1 < w
  · exact .inl ⟨h1, if_pos h1⟩
  · rw [if_neg h1]
    by_cases h2 : y + 1 < h
    · exact .inr (.inl ⟨by omega, h2, if_pos h2⟩)
    · exact .inr (.inr ⟨by omega, by omega, if_neg h2⟩)

/-- Phase 2 ends at the last pixel (rule R53). -/
theorem last_of_nextPos_none {w h x y : Nat} (hx : x < w) (hy : y < h) (hn : nextPos w h x y = none) :
    y * w + x + 1 = w * h := by
  have hlt := index_lt hx hy
  rw [nextPos_index hx hy] at hn
  split at hn
  · cases hn
  · omega

theorem scanPixel_length {α : Type} {A : Arith α} {w h bits x y : Nat} {eb eb' : List α} {new : Int}
    (hs : scanPixel A w h bits x y eb = some (new, eb')) : eb'.length = eb.length := by
  obtain ⟨old, -, -, rfl⟩ := (scanPixel_eq_some A).1 hs
  exact diffuse_length A _ _ _ _ _ _

/-- A coordinate below 65536 fits the scanner's 16 bits (rule R52). -/
theorem toNat_coord {n : Nat} (hn : n ≤ 65535) : (BitVec.ofNat 16 n).toNat = n := by
  rw [BitVec.toNat_ofNat]
  omega

end Sys2Proof.Machine

namespace Sys2Proof.Machine.State

variable {s t : State}

/-! ### What the invariant gives -/

/-- A pass in progress has accepted parameters (rule R176). -/
theorem Inv.accept (hi : s.Inv) (hb : s.busy = true) : s.check = .accept := by
  have hpass := hi.pass
  unfold PassInv at hpass
  cases hp : s.phase <;> rw [hp] at hpass
  case idle => exact absurd hp (s.busy_iff.1 hb)
  all_goals exact hpass.1

theorem passInv_init (hp : s.phase = .init) :
    s.PassInv ↔ s.check = .accept ∧ s.cursor < s.pixels ∧ s.eb.length = s.cursor ∧ s.qb = [] := by
  rw [PassInv, hp]

theorem passInv_scan (hp : s.phase = .scan) :
    s.PassInv ↔ s.check = .accept ∧ s.scanX.toNat < s.W ∧ s.scanY.toNat < s.H ∧ s.eb.length = s.pixels
      ∧ s.qb.length = s.scanY.toNat * s.W + s.scanX.toNat := by
  rw [PassInv, hp]

theorem passInv_mat (hp : s.phase = .mat) :
    s.PassInv ↔ s.check = .accept ∧ s.cursor ≤ s.pixels ∧ s.qb.length = s.pixels := by
  rw [PassInv, hp]

/-- The sizes of an accepted pass fit the scanner's 16-bit coordinates (rules R6, R52, R171). -/
theorem Inv.size_le (hi : s.Inv) (ha : s.check = .accept) : s.W ≤ 65535 ∧ s.H ≤ 65535 := by
  obtain ⟨-, ⟨-, hW⟩, ⟨-, hH⟩, -⟩ := Config.legal_iff.1 hi.legal
  obtain ⟨-, -, -, hW', hH', -⟩ := check_accept.1 ha
  omega

/-! ### Ways to keep the invariant -/

/-- A state with the same pass meets the invariant when its STATUS flags do. -/
theorem Inv.of_passView (hi : s.Inv) (hv : t.passView = s.passView) (hl : t.srcLen = s.srcLen)
    (hed : t.err ≠ .none → t.done = true) (hbq : t.busy = true → t.done = false) : t.Inv := by
  obtain ⟨⟩ := s
  obtain ⟨⟩ := t
  simp only [passView, Prod.mk.injEq] at hv hl
  obtain ⟨rfl, ⟨rfl, rfl, rfl, rfl, rfl⟩, rfl, ⟨rfl, rfl, rfl, rfl, rfl⟩, rfl, rfl⟩ := hv
  subst hl
  exact ⟨hi.legal, hi.canonical, hi.within, hed, hbq, hi.pass⟩

/-- An update that touches neither the pass nor DONE and ERR keeps the invariant. -/
theorem Inv.of_frame (hi : s.Inv) (hv : t.passView = s.passView) (hl : t.srcLen = s.srcLen)
    (he : t.err = s.err) (hd : t.done = s.done) : t.Inv := by
  have hb : t.busy = s.busy := by
    have hp : t.phase = s.phase := congrArg (fun v => v.2.2.2.1.1) hv
    rw [busy, busy, hp]
  exact hi.of_passView hv hl (by rw [he, hd]; exact hi.errDone) (by rw [hb, hd]; exact hi.busyQuiet)

/-- An idle state has no pass to be consistent with. -/
theorem Inv.of_idle (hp : t.phase = .idle) (hlegal : t.cfg.legal = true) (hwf : t.pm.wf = true)
    (hin : t.pm.within t.cfg.pmBytes = true) (hed : t.err ≠ .none → t.done = true) : t.Inv where
  legal := hlegal
  canonical := hwf
  within := hin
  errDone := hed
  busyQuiet hb := absurd hp (t.busy_iff.1 hb)
  pass := by rw [PassInv, hp]; trivial

/-- A busy state meets the invariant when it keeps the parameters, DONE and ERR of one that does and its engine is
consistent with its phase. -/
theorem Inv.of_busy (hi : s.Inv) (hb : s.busy = true) (hcfg : t.cfg = s.cfg) (he : t.err = s.err)
    (hd : t.done = s.done) (hwf : t.pm.wf = true) (hin : t.pm.within t.cfg.pmBytes = true) (hpass : t.PassInv) :
    t.Inv where
  legal := hcfg ▸ hi.legal
  canonical := hwf
  within := hin
  errDone := by rw [he, hd]; exact hi.errDone
  busyQuiet _ := hd.trans (hi.busyQuiet hb)
  pass := hpass

/-! ### The invariant, turn by turn -/

theorem Inv.withInputs (hi : s.Inv) (rest : List Input) : (s.withInputs rest).Inv := hi.of_frame rfl rfl rfl rfl

theorem Inv.respond (hi : s.Inv) (r : Response) : (s.respond r).Inv := hi.of_frame rfl rfl rfl rfl

theorem Inv.dropWrite (hi : s.Inv) : s.dropWrite.Inv := hi.of_frame rfl rfl rfl rfl

/-- A reset leaves the machine idle, and scrambles bytes inside pixel memory only (rules R270 to R273). -/
theorem Inv.applyReset (hi : s.Inv) : s.applyReset.Inv := by
  have hpm : s.applyReset.pm.wf = true ∧ s.applyReset.pm.within s.cfg.pmBytes = true := by
    cases hb : s.busy
    · rw [s.applyReset_pm_idle hb]
      exact ⟨hi.canonical, hi.within⟩
    · obtain ⟨-, -, -, -, -, -, -, -, hdst⟩ := check_accept.1 (hi.accept hb)
      rw [s.applyReset_pm_busy hb]
      exact ⟨Memory.wf_scramble _ _ _ _ hi.canonical, Memory.within_scramble _ _ _ _ _ hi.within hdst⟩
  exact .of_idle rfl hi.legal hpm.1 hpm.2 (fun h => absurd rfl h)

theorem Inv.hostRead (hi : s.Inv) (w : Width) (a : Word) : (hostRead w a s).Inv := by
  obtain ⟨r, d, h⟩ := hostRead_frame w a s
  rw [h]
  exact hi.of_frame rfl rfl rfl rfl

/-- A write that is not dropped keeps the invariant: while busy it reaches no parameter of the pass (rule R280). -/
theorem Inv.storeReg (hi : s.Inv) (v : Word) (r : Reg) (hr : s.busy = false ∨ r.busyLocked = false) :
    (s.storeReg v r).Inv := by
  have hed : (s.storeReg v r).err ≠ .none → (s.storeReg v r).done = true := by
    rw [storeReg_err, storeReg_done]
    cases r == .status && v.getLsbD 1
    · simpa using hi.errDone
    · simp
  rcases hr with hb | hr
  · exact .of_idle (by simpa using s.busy_false_iff.1 hb) (by simpa using hi.legal) (by simpa using hi.canonical)
      (by simpa using hi.within) hed
  · obtain ⟨hv, hl⟩ := s.storeReg_passView v r hr
    refine hi.of_passView hv hl hed (fun hb => ?_)
    rw [storeReg_done, hi.busyQuiet (by simpa using hb), Bool.false_and]

theorem Inv.write (hi : s.Inv) (hb : s.busy = false) {off n : Nat} (v : Nat) (hf : off + n ≤ s.cfg.pmBytes) :
    (s.withPm (s.pm.write off n v)).Inv :=
  .of_idle (s.busy_false_iff.1 hb) hi.legal (Memory.wf_write _ _ _ _ hi.canonical)
    (Memory.within_write _ _ _ _ _ hi.within hf) hi.errDone

/-- A command ends at once with DONE = 1, or it begins a pass at its first pixel (rules R176, R210). -/
theorem Inv.issue (hi : s.Inv) (hb : s.busy = false) {w : Word} (h : issue w s.beginCommand = .next t) : t.Inv := by
  rcases issue_cases h with ⟨hdone, hp, hcfg, hpm, -⟩ | ⟨-, hc, rfl⟩
  · have hcfg : t.cfg = s.cfg := hcfg
    have hpm : t.pm = s.pm := hpm
    exact .of_idle (hp.trans (s.busy_false_iff.1 hb)) (hcfg ▸ hi.legal) (hpm ▸ hi.canonical)
      (by rw [hpm, hcfg]; exact hi.within) (fun _ => hdone)
  · obtain ⟨-, -, hpos, -⟩ := check_accept.1 hc
    exact ⟨hi.legal, hi.canonical, hi.within, fun he => absurd rfl he, fun _ => rfl, hc, hpos, rfl, rfl⟩

/-! ### The invariant, one engine step at a time -/

/-- The next position of the scanner as 16-bit coordinates: the next index of the image (rules R52, R53). -/
theorem Inv.nextPos_toNat (hi : s.Inv) (hp : s.phase = .scan) {x y : Nat}
    (hn : nextPos s.W s.H s.scanX.toNat s.scanY.toNat = some (x, y)) :
    (BitVec.ofNat 16 x).toNat < s.W ∧ (BitVec.ofNat 16 y).toNat < s.H
      ∧ (BitVec.ofNat 16 y).toNat * s.W + (BitVec.ofNat 16 x).toNat
        = s.scanY.toNat * s.W + s.scanX.toNat + 1 := by
  obtain ⟨ha, hx, hy, -, -⟩ := (passInv_scan hp).1 hi.pass
  obtain ⟨hW, hH⟩ := hi.size_le ha
  rw [nextPos_index hx hy] at hn
  split at hn
  · rename_i hlt
    cases hn
    have hb := mod_div_bounds hlt
    generalize (s.scanY.toNat * s.W + s.scanX.toNat + 1) % s.W = x at *
    generalize (s.scanY.toNat * s.W + s.scanX.toNat + 1) / s.W = y at *
    rw [toNat_coord (by omega), toNat_coord (by omega)]
    exact hb
  · cases hn

theorem Inv.engineStep (hi : s.Inv) (h : engineStep s = .next t) : t.Inv := by
  have busy_of (hp : s.phase ≠ .idle) : s.busy = true := s.busy_iff.2 hp
  cases engineStep_cases h with
  | idle hp ht => exact ht ▸ hi
  | fill w hp hc ht =>
    obtain ⟨ha, -, heb, hqb⟩ := (passInv_init hp).1 hi.pass
    subst ht
    exact hi.of_busy (busy_of (by simp [hp])) rfl rfl rfl hi.canonical hi.within
      ((passInv_init (by simpa using hp)).2 ⟨by simpa using ha, by simpa using hc, by simp [heb], hqb⟩)
  | fillLast w hp hc ht =>
    obtain ⟨ha, hlt, heb, hqb⟩ := (passInv_init hp).1 hi.pass
    have hlast : s.eb.length + 1 = s.pixels := by omega
    have hsize : 0 < s.W ∧ 0 < s.H := CanonicallyOrderedAdd.mul_pos.1 (Nat.zero_lt_of_lt hlt)
    subst ht
    exact hi.of_busy (busy_of (by simp [hp])) rfl rfl rfl hi.canonical hi.within
      ((passInv_scan rfl).2 ⟨by simpa using ha, hsize.1, hsize.2, by simpa using hlast, by simp [hqb]⟩)
  | scan new eb x y hp hs hn ht =>
    obtain ⟨ha, hx, hy, heb, hqb⟩ := (passInv_scan hp).1 hi.pass
    obtain ⟨hx', hy', hi'⟩ := hi.nextPos_toNat hp hn
    subst ht
    exact hi.of_busy (busy_of (by simp [hp])) rfl rfl rfl hi.canonical hi.within
      ((passInv_scan (by simpa using hp)).2
        ⟨by simpa using ha, hx', hy', (scanPixel_length hs).trans heb, by simpa [hqb] using hi'.symm⟩)
  | scanLast new eb hp hs hn ht =>
    obtain ⟨ha, hx, hy, heb, hqb⟩ := (passInv_scan hp).1 hi.pass
    have hlast := last_of_nextPos_none hx hy hn
    subst ht
    exact hi.of_busy (busy_of (by simp [hp])) rfl rfl rfl hi.canonical hi.within
      ((passInv_mat rfl).2 ⟨by simpa using ha, Nat.zero_le _, by simpa [hqb, pixels] using hlast⟩)
  | write q hp hc hf ht =>
    obtain ⟨ha, -, hqb⟩ := (passInv_mat hp).1 hi.pass
    have hwf := Memory.wf_putPixel s.pm (s.dstPixel s.cursor) (materialize q) hi.canonical
    have hin := Memory.within_putPixel s.pm (s.dstPixel s.cursor) (materialize q) _ hi.within hf
    generalize s.pm.putPixel (s.dstPixel s.cursor) (materialize q) = m at *
    subst ht
    exact hi.of_busy (busy_of (by simp [hp])) rfl rfl rfl hwf hin
      ((passInv_mat (by simpa using hp)).2 ⟨by simpa using ha, by simpa using hc, by simpa using hqb⟩)
  | complete hp hc ht =>
    subst ht
    exact .of_idle rfl hi.legal hi.canonical hi.within (fun _ => rfl)

theorem Inv.step (hi : s.Inv) (h : step s = .next t) : t.Inv := by
  cases step_cases h with
  | reset rest hin ht => exact ht ▸ (hi.withInputs rest).applyReset
  | engine rest hin h => exact (hi.withInputs rest).engineStep h
  | read w a rest hin ht => exact ht ▸ (hi.withInputs rest).hostRead w a
  | writeError w a v rest hin hg ht => exact ht ▸ (hi.withInputs rest).respond _
  | drop w a v rest hin hb hg ht => exact ht ▸ ((hi.withInputs rest).respond _).dropWrite
  | store w a v r rest hin hg hr hb ht => exact ht ▸ ((hi.withInputs rest).respond _).storeReg v r hb
  | writePm w a v off rest hin hg hb ht =>
    exact ht ▸ ((hi.withInputs rest).respond _).write hb v.toNat (target_pm_within hg)
  | command w a v rest hin hg hb h => exact ((hi.withInputs rest).respond _).issue hb h

end Sys2Proof.Machine.State

namespace Sys2Proof.Machine

/-! ### What never changes, and what sets and clears each flag -/

theorem step_cfg {s t : State} (h : step s = .next t) : t.cfg = s.cfg := by
  cases step_cases h with
  | reset rest hin ht => simp [ht]
  | engine rest hin h => simpa using engineStep_cfg h
  | read w a rest hin ht => simp [ht]
  | writeError w a v rest hin hg ht => simp [ht]
  | drop w a v rest hin hb hg ht => simp [ht]
  | store w a v r rest hin hg hr hb ht => simp [ht]
  | writePm w a v off rest hin hg hb ht => simp [ht]
  | command w a v rest hin hg hb h => simpa using issue_cfg h

/-- The next turn is the completion step of a pass (rule R186). -/
def State.Completes (s : State) : Prop :=
  (s.inputs = [] ∨ ∃ rest, s.inputs = .engine :: rest) ∧ s.phase = .mat ∧ s.pixels ≤ s.cursor

/-- The next turn is a write that is dropped because BUSY = 1 (rules R280, R281). -/
def State.DropsWrite (s : State) : Prop :=
  s.busy = true ∧ ∃ w a v rest, s.inputs = .host (.write w a v) :: rest
    ∧ ((∃ r, target s.cfg w a = .reg r ∧ r.busyLocked = true) ∨ ∃ off, target s.cfg w a = .pm off)

/-- The next turn is a reset, or a STATUS write with this bit (rules R214, R270). -/
def State.ClearsFlag (s : State) (bit : Nat) : Prop :=
  (∃ rest, s.inputs = .reset :: rest)
    ∨ ∃ v rest, s.inputs = .host (.write .b4 Reg.status.addr v) :: rest ∧ v.getLsbD bit = true

section
variable {s : State} {w : Width} {a v : Word} {rest : List Input}

theorem clearsFlag_write_iff {bit : Nat} (hin : s.inputs = .host (.write w a v) :: rest) :
    s.ClearsFlag bit ↔ target s.cfg w a = .reg .status ∧ v.getLsbD bit = true := by
  simp only [State.ClearsFlag, hin, target_reg_iff]
  grind

theorem dropsWrite_write_iff (hin : s.inputs = .host (.write w a v) :: rest) :
    s.DropsWrite ↔ s.busy = true
      ∧ ((∃ r, target s.cfg w a = .reg r ∧ r.busyLocked = true) ∨ ∃ off, target s.cfg w a = .pm off) := by
  simp only [State.DropsWrite, hin]
  grind

theorem not_completes_write (hin : s.inputs = .host (.write w a v) :: rest) : ¬ s.Completes := by
  simp [State.Completes, hin]

theorem State.Completes.not_clearsFlag (bit : Nat) (h : s.Completes) : ¬ s.ClearsFlag bit := by
  obtain ⟨h | ⟨rest, h⟩, -⟩ := h <;> simp [State.ClearsFlag, h]

/-- STATUS is not busy-locked, so no write that clears a flag is dropped (rules R214, R280). -/
theorem State.DropsWrite.not_clearsFlag (bit : Nat) (h : s.DropsWrite) : ¬ s.ClearsFlag bit := by
  obtain ⟨-, w, a, v, rest, hin, hg⟩ := h
  rw [clearsFlag_write_iff hin]
  rintro ⟨hstatus, -⟩
  rcases hg with ⟨r, hr, hlocked⟩ | ⟨off, hoff⟩
  · cases hstatus.symm.trans hr
    cases hlocked
  · cases hstatus.symm.trans hoff

end

/-- What one step does to BUSY (rule R37). -/
theorem step_busy {s t : State} (h : step s = .next t) :
    t.busy = s.busy
      ∨ (t.busy = false ∧ ∃ rest, s.inputs = .reset :: rest)
      ∨ (t.busy = false ∧ t.done = true ∧ s.Completes)
      ∨ (t.busy = true ∧ s.check = .accept
        ∧ ∃ rest, s.inputs = .host (.write .b4 Reg.ctrl.addr (encode .dither)) :: rest) := by
  cases step_cases h with
  | reset rest hin ht => exact .inr (.inl ⟨by rw [ht]; rfl, rest, hin⟩)
  | engine rest hin h =>
    rcases engineStep_busy h with hb | ⟨hp, hc, rfl⟩
    · exact .inl hb
    · have hturn : s.inputs = [] ∨ ∃ rest, s.inputs = .engine :: rest := hin.imp And.left (⟨rest, ·⟩)
      exact .inr (.inr (.inl ⟨rfl, rfl, hturn, hp, hc⟩))
  | read w a rest hin ht => simp [ht]
  | writeError w a v rest hin hg ht => simp [ht]
  | drop w a v rest hin hb hg ht => simp [ht]
  | store w a v r rest hin hg hr hb ht => simp [ht]
  | writePm w a v off rest hin hg hb ht => simp [ht]
  | command w a v rest hin hg hb h =>
    obtain ⟨rfl, rfl⟩ := target_reg_iff.1 hg
    rcases issue_cases h with ⟨-, hp, -⟩ | ⟨rfl, hc, rfl⟩
    · exact .inl (by rw [State.busy, hp]; rfl)
    · exact .inr (.inr (.inr ⟨rfl, by simpa using hc, rest, hin⟩))

/-- The engine's turn is no host write, and clears no flag. -/
theorem engineTurn_iff {s : State} {rest : List Input} (hin : s.inputs = [] ∧ rest = [] ∨ s.inputs = .engine :: rest) :
    (s.Completes ↔ s.phase = .mat ∧ s.pixels ≤ s.cursor) ∧ ¬ s.DropsWrite ∧ ∀ bit, ¬ s.ClearsFlag bit := by
  rcases hin with ⟨hin, -⟩ | hin <;> simp [State.Completes, State.DropsWrite, State.ClearsFlag, hin]

/-- What one step does to RANGE (rules R39, R186, R214, R270). -/
theorem step_range {s t : State} (h : step s = .next t) :
    t.range = true ↔ ¬ s.ClearsFlag 8 ∧ (s.range = true ∨ s.Completes ∧ s.saturated = true) := by
  cases step_cases h with
  | reset rest hin ht => simp [ht, State.ClearsFlag, hin]
  | engine rest hin h =>
    obtain ⟨hcompletes, -, hclears⟩ := engineTurn_iff hin
    obtain ⟨-, ⟨hr, hn⟩ | ⟨hp, hc, hr⟩⟩ := engineStep_flags h
    · have hn : ¬ s.Completes := fun hs => hn (hcompletes.1 hs)
      simp [hr, hclears, hn]
    · have hs : s.Completes := hcompletes.2 ⟨hp, hc⟩
      simp [hr, hclears, hs]
  | read w a rest hin ht => simp [ht, State.ClearsFlag, State.Completes, hin]
  | writeError w a v rest hin hg ht => simp [ht, clearsFlag_write_iff hin, hg, not_completes_write hin]
  | drop w a v rest hin hb hg ht =>
    have hd : s.DropsWrite := (dropsWrite_write_iff hin).2 ⟨hb, hg⟩
    simp [ht, hd.not_clearsFlag, not_completes_write hin]
  | store w a v r rest hin hg hr hb ht =>
    by_cases hs : r = .status
    · simp [ht, State.storeReg_range, clearsFlag_write_iff hin, hg, hs, not_completes_write hin, and_comm]
    · simp [ht, State.storeReg_range, clearsFlag_write_iff hin, hg, hs, not_completes_write hin]
  | writePm w a v off rest hin hg hb ht => simp [ht, clearsFlag_write_iff hin, hg, not_completes_write hin]
  | command w a v rest hin hg hb h =>
    have hr : t.range = s.range := (issue_flags h).1
    simp [hr, clearsFlag_write_iff hin, hg, not_completes_write hin]

/-- What one step does to WERR (rules R40, R214, R270, R280, R281). -/
theorem step_werr {s t : State} (h : step s = .next t) :
    t.werr = true ↔ ¬ s.ClearsFlag 9 ∧ (s.werr = true ∨ s.DropsWrite) := by
  cases step_cases h with
  | reset rest hin ht => simp [ht, State.ClearsFlag, hin]
  | engine rest hin h =>
    obtain ⟨-, hdrops, hclears⟩ := engineTurn_iff hin
    simp [(engineStep_flags h).1, hclears, hdrops]
  | read w a rest hin ht => simp [ht, State.ClearsFlag, State.DropsWrite, hin]
  | writeError w a v rest hin hg ht => simp [ht, clearsFlag_write_iff hin, dropsWrite_write_iff hin, hg]
  | drop w a v rest hin hb hg ht =>
    have hd : s.DropsWrite := (dropsWrite_write_iff hin).2 ⟨hb, hg⟩
    simp [ht, hd.not_clearsFlag 9, hd]
  | store w a v r rest hin hg hr hb ht =>
    have hd : ¬ s.DropsWrite := by
      simp only [dropsWrite_write_iff hin, hg]
      rcases hb with hb | hb <;> simp [hb]
    by_cases hs : r = .status
    · simp [ht, State.storeReg_werr, clearsFlag_write_iff hin, hg, hs, hd, and_comm]
    · simp [ht, State.storeReg_werr, clearsFlag_write_iff hin, hg, hs, hd]
  | writePm w a v off rest hin hg hb ht => simp [ht, clearsFlag_write_iff hin, dropsWrite_write_iff hin, hg, hb]
  | command w a v rest hin hg hb h =>
    simp [(issue_flags h).2, clearsFlag_write_iff hin, dropsWrite_write_iff hin, hg, hb]

/-- A flag that goes up at one event and stays up until another is set and cleared at exactly these events. -/
theorem sticky_changes {flag flag' : Bool} {sets clears : Prop}
    (h : flag' = true ↔ ¬ clears ∧ (flag = true ∨ sets)) (hx : sets → ¬ clears) :
    (flag = false → (flag' = true ↔ sets)) ∧ (flag = true → (flag' = false ↔ clears)) := by
  constructor
  · rintro rfl
    simpa [and_iff_right_of_imp hx] using h
  · rintro rfl
    simpa using not_congr h

/-- A dropped write by its address: a 4-byte write to CTRL or to one of the nine busy-locked registers, or an aligned
write inside pixel memory (rules R30, R71, R74, R75). -/
theorem dropsWrite_iff (s : State) : s.DropsWrite ↔
    s.busy = true ∧ ∃ w addr v rest, s.inputs = .host (.write w addr v) :: rest
      ∧ ((w = .b4 ∧ ∃ r : Reg,
            r ∈ [Reg.ctrl, .bits, .width, .height, .srcLen, .srcBase, .dstBase, .opa, .qinLo, .qinHi]
              ∧ addr = r.addr)
          ∨ (0x01000000 ≤ addr.toNat ∧ addr.toNat % w.bytes = 0
              ∧ addr.toNat + w.bytes ≤ 0x01000000 + s.cfg.pmBytes)) := by
  have hlocked (r : Reg) : r.busyLocked = true ↔
      r ∈ [Reg.ctrl, .bits, .width, .height, .srcLen, .srcBase, .dstBase, .opa, .qinLo, .qinHi] := by
    cases r <;> decide
  have hreg (w : Width) (a : Word) : (∃ r, target s.cfg w a = .reg r ∧ r.busyLocked = true) ↔
      w = .b4 ∧ ∃ r : Reg,
        r ∈ [Reg.ctrl, .bits, .width, .height, .srcLen, .srcBase, .dstBase, .opa, .qinLo, .qinHi] ∧ a = r.addr := by
    simp only [target_reg_iff, hlocked]
    grind
  simp only [State.DropsWrite, hreg, target_pm_iff]

/-! ### Words by their fields -/

theorem toNat_append_eq {m n : Nat} (x : BitVec m) (y : BitVec n) : (x ++ y).toNat = x.toNat * 2 ^ n + y.toNat := by
  rw [BitVec.toNat_append, ← Nat.shiftLeft_add_eq_or_of_lt y.isLt, Nat.shiftLeft_eq]

/-- STATUS as a sum of its fields, ERR by its code (rules R36, R230). -/
theorem State.toNat_statusWord (s : State) : s.statusWord.toNat =
    s.busy.toNat + 2 * s.done.toNat + 16 * s.err.code.toNat + 256 * s.range.toNat + 512 * s.werr.toNat := by
  simp only [statusWord, toNat_append_eq, BitVec.ofNat_eq_ofNat, BitVec.toNat_ofNat, BitVec.toNat_ofBool]
  omega

/-- Words that agree under a mask agree in each bit of the mask. -/
theorem getLsbD_eq_of_and_eq {n : Nat} {v v' m : BitVec n} (h : v &&& m = v' &&& m) (i : Nat)
    (hi : m.getLsbD i = true) : v.getLsbD i = v'.getLsbD i := by
  have hbit := congrArg (·.getLsbD i) h
  simpa only [BitVec.getLsbD_and, hi, Bool.and_true] using hbit

end Sys2Proof.Machine

section
open Sys2Proof Sys2Proof.Machine

/-- Settles O48: the case of each turn keeps the invariant; an engine step moves the pass to its next position. -/
theorem stepKeepsInvariant : Obligations.StepKeepsInvariant := fun _ _ hi h => hi.step h

/-- Settles O41: the diffusion reaches later entries only, and the scanner makes one of its three moves. -/
theorem scanStepFinalizesPixel : Obligations.ScanStepFinalizesPixel := by
  intro s hi hp A x y i
  obtain ⟨ha, hx, hy, heb, -⟩ := (State.passInv_scan hp).1 hi.pass
  obtain ⟨hW, hH⟩ := hi.size_le ha
  have hlen : i < s.eb.length := heb ▸ index_lt hx hy
  have hold : s.eb[i]? = some s.eb[i] := List.getElem?_eq_getElem hlen
  have hbefore (e : NumWord) (j : Nat) (hj : j ≤ i) : (diffuse A s.W s.H x y e s.eb)[j]? = s.eb[j]? :=
    getElem?_diffuse_of_le A hx e s.eb hj
  have hstep := engineStep_scan hp ((scanPixel_eq_some A).2 ⟨s.eb[i], hold, rfl, rfl⟩)
  rcases nextPos_cases hx hy with ⟨h1, hn⟩ | ⟨h1, h2, hn⟩ | ⟨h1, h2, hn⟩ <;> simp only [hn] at hstep
  · refine ⟨_, _, hold, hstep, rfl, rfl, hbefore _, rfl, fun _ => ⟨hp, ?_, ?_⟩, ?_, ?_⟩
    · exact toNat_coord (by omega)
    · exact toNat_coord (by omega)
    · omega
    · omega
  · refine ⟨_, _, hold, hstep, rfl, rfl, hbefore _, rfl, ?_, fun _ _ => ⟨hp, rfl, ?_⟩, ?_⟩
    · omega
    · exact toNat_coord (by omega)
    · omega
  · refine ⟨_, _, hold, hstep, rfl, rfl, hbefore _, rfl, ?_, ?_, fun _ _ => ⟨rfl, rfl⟩⟩
    · omega
    · omega

/-- Settles O50. -/
theorem busyChangesOnlyByPass : Obligations.BusyChangesOnlyByPass := by
  refine ⟨fun s hs => ?_, fun s t h => ?_⟩
  · have hp : s.phase = .idle := s.busy_false_iff.1 hs
    exact ⟨fun hin => (step_silent hin).trans (engineStep_idle hp),
      fun rest hin => (step_engine hin).trans (engineStep_idle hp)⟩
  · rcases step_busy h with hb | ⟨hb, hr⟩ | ⟨hb, hd, hturn, hp, hc⟩ | ⟨hb, hacc⟩
    · exact ⟨fun h0 h1 => by simp [hb, h0] at h1, fun h1 h0 => by simp [← hb, h0] at h1⟩
    · exact ⟨by simp [hb], fun _ _ => .inl hr⟩
    · exact ⟨by simp [hb], fun _ _ => .inr ⟨hp, hc, hd, hturn⟩⟩
    · exact ⟨fun _ _ => hacc, by simp [hb]⟩

/-- Settles O51: each flag is sticky, and no event that sets it is one that clears it. -/
theorem stickyFlagsChange : Obligations.StickyFlagsChange := by
  intro s t h
  obtain ⟨hsetRange, hclearRange⟩ := sticky_changes (step_range h) (fun hc => hc.1.not_clearsFlag 8)
  obtain ⟨hsetWerr, hclearWerr⟩ := sticky_changes (step_werr h) (State.DropsWrite.not_clearsFlag 9)
  refine ⟨fun hs => ?_, fun hs => (hsetWerr hs).trans (dropsWrite_iff s), hclearRange, hclearWerr⟩
  simpa only [State.Completes, and_assoc] using hsetRange hs

/-- Settles O3. -/
theorem configRegistersReportParameters : Obligations.ConfigRegistersReportParameters := by
  refine ⟨fun _ _ => step_cfg, fun s hlegal => ?_⟩
  obtain ⟨hfrac, hW, hH, -, -, hpm⟩ := Config.legal_iff.1 hlegal
  refine ⟨rfl, ?_, ?_, ?_⟩
  · show (cfg0Word s.cfg).toNat = _
    unfold cfg0Word
    cases hf : s.cfg.numFmt with
    | fix =>
      have := hfrac hf
      simp only [toNat_append_eq, BitVec.ofNat_eq_ofNat, BitVec.toNat_ofNat]
      omega
    | fp64 => rfl
  · show (cfg1Word s.cfg).toNat = _
    simp only [cfg1Word, toNat_append_eq, BitVec.toNat_ofNat]
    omega
  · show (cfg2Word s.cfg).toNat = _
    simp only [cfg2Word, BitVec.toNat_ofNat]
    omega

/-- Settles O4. -/
theorem statusWordFields : Obligations.StatusWordFields := by
  intro s
  have hbit (b : Bool) (k : Nat) : (if b then k else 0) = k * b.toNat := by cases b <;> simp
  refine s.toNat_statusWord.trans ?_
  cases s.err <;> simp only [hbit, Nat.one_mul] <;> rfl

/-- Settles O5. -/
theorem registerReadAtItsOffsetIsExact : Obligations.RegisterReadAtItsOffsetIsExact :=
  ⟨fun r => by cases r <;> rfl, fun _ _ _ hin => ⟨step_readReg hin, rfl⟩⟩

/-- Settles O7. -/
theorem readOnlyAndReservedWritesChangeNothing : Obligations.ReadOnlyAndReservedWritesChangeNothing := by
  refine ⟨fun s r v rest hr hin => ?_, fun s v v' h => ?_, fun s v v' h => ?_⟩
  · have hro : r.busyLocked = false ∧ r ≠ .ctrl ∧ ∀ u : State, u.storeReg v r = u := by
      simp only [List.mem_cons, List.not_mem_nil, or_false] at hr
      rcases hr with rfl | rfl | rfl | rfl | rfl | rfl | rfl <;> exact ⟨rfl, by decide, fun _ => rfl⟩
    obtain ⟨hlocked, hctrl, hstore⟩ := hro
    rw [step_writeReg hin (.inr hlocked) hctrl, hstore]
    rfl
  · have hbit := getLsbD_eq_of_and_eq h
    rw [State.writeStatus, State.writeStatus, hbit 1 (by decide), hbit 8 (by decide), hbit 9 (by decide)]
  · rw [State.writeIrqen, State.writeIrqen, getLsbD_eq_of_and_eq h 0 (by decide)]

end

/-! SUPPORT. Host accesses to pixel memory and the words of pixels and NUMWORDs, byte by byte (rules R71 to R79, R107),
and the memory that phase 3 leaves (rules R81, R82, R184). -/

namespace Sys2Proof.Machine

/-- The registers lie at the aligned offsets below 0x4C (rule R30). -/
theorem Reg.addr_bounds (r : Reg) : r.addr.toNat < 0x4C ∧ r.addr.toNat % 4 = 0 := by
  cases r <;> decide

/-- A malformed access reaches neither a register nor pixel memory (rules R71, R74, R75, R76). -/
theorem target_busError {c : Config} {w : Width} {a : Word}
    (h : (a.toNat < 0x100 ∧ (w.bytes ≠ 4 ∨ a.toNat % 4 ≠ 0 ∨ 0x4C ≤ a.toNat))
      ∨ (0x100 ≤ a.toNat ∧ a.toNat < 0x01000000)
      ∨ (0x01000000 ≤ a.toNat ∧ (a.toNat % w.bytes ≠ 0 ∨ 0x01000000 + c.pmBytes < a.toNat + w.bytes))) :
    target c w a = .busError := by
  cases ht : target c w a with
  | busError => rfl
  | reg r =>
    obtain ⟨rfl, rfl⟩ := target_reg_iff.1 ht
    obtain ⟨hlt, halign⟩ := r.addr_bounds
    rcases h with ⟨-, h | h | h⟩ | h | h
    · exact absurd rfl h
    · exact absurd halign h
    · omega
    · omega
    · omega
  | pm off =>
    obtain ⟨hbase, halign, hend⟩ := target_pm_iff.1 ⟨off, ht⟩
    rcases h with h | h | ⟨-, h | h⟩
    · omega
    · omega
    · exact absurd halign h
    · omega

/-! ### Bytes of a word -/

theorem ofNat_div_eq_extractLsb' {n : Nat} (v : BitVec n) (k : Nat) :
    BitVec.ofNat 8 (v.toNat / 256 ^ k) = v.extractLsb' (8 * k) 8 := by
  rw [BitVec.extractLsb', Nat.shiftRight_eq_div_pow, Nat.pow_mul]

/-- Byte k of a read is the byte at offset a + k (rule R14). -/
theorem Memory.ofNat_read_div (m : Memory) {a n k : Nat} (hk : k < n) :
    BitVec.ofNat 8 (m.read a n / 256 ^ k) = m.byte (a + k) := by
  induction k generalizing a n with
  | zero =>
    obtain ⟨n, rfl⟩ := Nat.exists_eq_add_one_of_ne_zero hk.ne'
    apply BitVec.eq_of_toNat_eq
    rw [read, Nat.pow_zero, Nat.div_one, BitVec.toNat_ofNat, Nat.add_mul_mod_self_left,
      Nat.mod_eq_of_lt (m.byte a).isLt, Nat.add_zero]
  | succ k ih =>
    obtain ⟨n, rfl⟩ := Nat.exists_eq_add_one_of_ne_zero (Nat.ne_zero_of_lt hk)
    have hdrop : m.read a (n + 1) / 256 = m.read (a + 1) n := by
      have := (m.byte a).isLt
      rw [read]
      omega
    rw [Nat.pow_succ', ← Nat.div_div_eq_div_mul, hdrop, ih (by omega), Nat.add_assoc, Nat.add_comm 1 k]

/-- A read of at most a word is a word whose byte k is the byte at offset a + k, with zeros above (rules R14, R79). -/
theorem Memory.toNat_ofNat_read (m : Memory) (w : Width) (a : Nat) :
    (BitVec.ofNat 32 (m.read a w.bytes)).toNat = m.read a w.bytes := by
  have hlt := m.read_lt a w.bytes
  have hw : 256 ^ w.bytes ≤ 2 ^ 32 := by cases w <;> decide
  rw [BitVec.toNat_ofNat, Nat.mod_eq_of_lt (by omega)]

/-! ### Packing -/

theorem toWord_ofWord (w : Word) : (Pixel.ofWord w).toWord = w := by
  apply BitVec.eq_of_toNat_eq
  simp only [Memory.toNat_toWord, Pixel.ofWord, BitVec.extractLsb'_toNat, Nat.shiftRight_eq_div_pow]
  omega

theorem numWord_halves (w : NumWord) : numWord (numHi w) (numLo w) = w := by
  apply BitVec.eq_of_toNat_eq
  simp only [numWord, numHi, numLo, toNat_append_eq, BitVec.extractLsb'_toNat, Nat.shiftRight_eq_div_pow]
  omega

theorem halves_numWord (hi lo : Word) : numHi (numWord hi lo) = hi ∧ numLo (numWord hi lo) = lo := by
  simp only [← BitVec.toNat_inj, numHi, numLo, numWord, toNat_append_eq, BitVec.extractLsb'_toNat,
    Nat.shiftRight_eq_div_pow]
  omega

/-! ### The output region -/

namespace Memory

/-- Phase 3 changes no byte outside the pixels it writes (rule R184). -/
theorem byte_putLevels (levels : List Int) (m : Memory) {dst a : Nat} (ha : a < dst ∨ dst + 4 * levels.length ≤ a) :
    (m.putLevels dst levels).byte a = m.byte a := by
  induction levels generalizing m dst with
  | nil => rfl
  | cons q qs ih =>
    rw [List.length_cons] at ha
    rw [putLevels, ih _ (by omega), byte_putPixel, if_neg (by omega), if_neg (by omega), if_neg (by omega),
      if_neg (by omega)]

theorem pixel_putLevels_of_le (levels : List Int) (m : Memory) {dst a : Nat} (ha : a + 4 ≤ dst) :
    (m.putLevels dst levels).pixel a = m.pixel a := by
  rw [pixel, pixel, read_congr _ m _ _ (fun b _ hb => byte_putLevels levels m (.inl (by omega)))]

/-- Phase 3 writes the pixel of each level, and no later level overwrites it (rule R184). -/
theorem pixel_putLevels (levels : List Int) (m : Memory) {dst i : Nat} {q : Int} (hq : levels[i]? = some q) :
    (m.putLevels dst levels).pixel (dst + 4 * i) = materialize (BitVec.ofInt 16 q) := by
  induction levels generalizing m dst i with
  | nil => cases hq
  | cons p ps ih =>
    cases i with
    | zero =>
      cases hq
      exact (pixel_putLevels_of_le ps _ le_rfl).trans (pixel_putPixel_same _ _ _)
    | succ i =>
      rw [putLevels, show dst + 4 * (i + 1) = dst + 4 + 4 * i by omega]
      exact ih _ hq

end Memory

end Sys2Proof.Machine

/-! SUPPORT. A pass with host accesses between its steps (rules R83, R84, R241, R283): what a pass reads is kept by
every access, one engine step is a function of it, and each engine step brings the pass one step nearer to its end. -/

namespace Sys2Proof.Machine

section
variable {s t u : State}

@[simp] theorem State.storeReg_inputs (s : State) (v : Word) (r : Reg) : (s.storeReg v r).inputs = s.inputs := by
  cases r <;> rfl

/-- While BUSY = 1 a host access succeeds and touches nothing that the pass reads (rules R280, R281, R283). -/
theorem step_host_busy {a : Access} {rest : List Input} (hb : s.busy = true) (hin : s.inputs = .host a :: rest) :
    ∃ t, step s = .next t ∧ t.passView = s.passView ∧ t.inputs = rest := by
  cases a with
  | read w a =>
    obtain ⟨r, d, h⟩ := hostRead_frame w a (s.withInputs rest)
    exact ⟨_, (step_read hin).trans (congrArg _ h), rfl, rfl⟩
  | write w a v =>
    cases hg : target s.cfg w a with
    | busError => exact ⟨_, step_busError hg (.inr hin), rfl, rfl⟩
    | pm off => exact ⟨_, step_writePm_busy hg hb hin, rfl, rfl⟩
    | reg r =>
      obtain ⟨rfl, rfl⟩ := target_reg_iff.1 hg
      cases hl : r.busyLocked with
      | true => exact ⟨_, step_writeReg_busy hin hb hl, rfl, rfl⟩
      | false =>
        exact ⟨_, step_writeReg hin (.inr hl) (by rintro rfl; cases hl), (State.storeReg_passView _ v r hl).1,
          State.storeReg_inputs _ v r⟩

/-- The machine of `u` with the pass of `s`: its parameters, pixel memory and engine. -/
def State.withPass (u s : State) : State :=
  { u with
    cfg := s.cfg, bits := s.bits, width := s.width, height := s.height, srcBase := s.srcBase, dstBase := s.dstBase,
    pm := s.pm, phase := s.phase, cursor := s.cursor, scanX := s.scanX, scanY := s.scanY, saturated := s.saturated,
    eb := s.eb, qb := s.qb }

theorem State.withPass_eq_self (hv : u.passView = s.passView) : u.withPass s = u := by
  simp only [passView, Prod.mk.injEq] at hv
  simp only [withPass, ← hv]

/-- From a state that meets the invariant the engine takes a step, and it takes the same step of the pass from every
state with the same pass (rules R176 to R186, R232). -/
theorem engineStep_withPass (hi : s.Inv) (u : State) :
    ∃ t u' : State, engineStep s = .next t ∧ engineStep (u.withPass s) = .next (u'.withPass t)
      ∧ u'.inputs = u.inputs := by
  cases hp : s.phase with
  | idle => exact ⟨s, u, engineStep_idle hp, engineStep_idle hp, rfl⟩
  | init =>
    obtain ⟨ha, hc, -⟩ := (State.passInv_init hp).1 hi.pass
    have hf := accept_src ha hc
    refine ⟨_, u, engineStep_init hp hf, (engineStep_init (s := u.withPass s) hp hf).trans ?_, rfl⟩
    change Host.Outcome.next (if s.cursor + 1 < s.pixels then _ else _) = _
    split <;> rfl
  | scan =>
    obtain ⟨-, hx, hy, heb, -⟩ := (State.passInv_scan hp).1 hi.pass
    obtain ⟨new, eb, hs, -⟩ := scanPixel_some (arithOf s.cfg) s.depth ((index_lt hx hy).trans_eq heb.symm)
    refine ⟨_, u, engineStep_scan hp hs, (engineStep_scan (s := u.withPass s) hp hs).trans ?_, rfl⟩
    change Host.Outcome.next (match nextPos s.W s.H s.scanX.toNat s.scanY.toNat with | some (x, y) => _ | none => _) = _
    cases nextPos s.W s.H s.scanX.toNat s.scanY.toNat <;> rfl
  | mat =>
    obtain ⟨ha, hc, hqb⟩ := (State.passInv_mat hp).1 hi.pass
    by_cases hlt : s.cursor < s.pixels
    · have hq : s.qb[s.cursor]? = some _ := List.getElem?_eq_getElem (hqb ▸ hlt)
      have hf := accept_dst ha hlt
      exact ⟨_, u, engineStep_mat hp hlt hq hf, engineStep_mat (s := u.withPass s) hp hlt hq hf, rfl⟩
    · have hge := Nat.not_lt.1 hlt
      have hu := engineStep_done (s := u.withPass s) hp hge
      exact ⟨_, (u.withPass s).completePass, engineStep_done hp hge, hu, rfl⟩

/-! ### The engine steps that a pass still takes -/

/-- How many engine steps the pass in progress still takes, its completion step included (rules R186, R197; log 8). -/
def State.stepsLeft (s : State) : Nat :=
  match s.phase with
  | .idle => 0
  | .init => passSteps s.pixels - s.cursor
  | .scan => 2 * s.pixels + 1 - (s.scanY.toNat * s.W + s.scanX.toNat)
  | .mat => s.pixels + 1 - s.cursor

theorem State.stepsLeft_of_passView (hv : u.passView = s.passView) : u.stepsLeft = s.stepsLeft := by
  rw [← State.withPass_eq_self hv]
  rfl

theorem State.stepsLeft_idle (hp : s.phase = .idle) : s.stepsLeft = 0 := by
  rw [stepsLeft, hp]

theorem State.stepsLeft_init (hp : s.phase = .init) : s.stepsLeft = passSteps s.pixels - s.cursor := by
  rw [stepsLeft, hp]

theorem State.stepsLeft_scan (hp : s.phase = .scan) :
    s.stepsLeft = 2 * s.pixels + 1 - (s.scanY.toNat * s.W + s.scanX.toNat) := by
  rw [stepsLeft, hp]

theorem State.stepsLeft_mat (hp : s.phase = .mat) : s.stepsLeft = s.pixels + 1 - s.cursor := by
  rw [stepsLeft, hp]

theorem State.busy_of_stepsLeft (h : s.stepsLeft ≠ 0) : s.busy = true :=
  s.busy_iff.2 (fun hp => h (State.stepsLeft_idle hp))

/-- Each engine step of a pass brings it one step nearer to its end (rules R177, R178, R184, R186). -/
theorem stepsLeft_engineStep (hi : s.Inv) (hb : s.busy = true) (h : engineStep s = .next t) :
    s.stepsLeft = t.stepsLeft + 1 := by
  cases engineStep_cases h with
  | idle hp ht => exact absurd hp (s.busy_iff.1 hb)
  | fill w hp hc ht =>
    rw [State.stepsLeft_init hp, State.stepsLeft_init (by simpa [ht] using hp)]
    simp [ht, passSteps]
    omega
  | fillLast w hp hc ht =>
    obtain ⟨-, hlt, -⟩ := (State.passInv_init hp).1 hi.pass
    rw [State.stepsLeft_init hp, State.stepsLeft_scan (by simp [ht])]
    simp [ht, passSteps]
    omega
  | scan new eb x y hp hs hn ht =>
    obtain ⟨-, hx, hy, -, -⟩ := (State.passInv_scan hp).1 hi.pass
    have hlt : s.scanY.toNat * s.W + s.scanX.toNat < s.pixels := index_lt hx hy
    have hnext := (hi.nextPos_toNat hp hn).2.2
    rw [State.stepsLeft_scan hp, State.stepsLeft_scan (by simpa [ht] using hp)]
    simp [ht, -BitVec.toNat_ofNat]
    omega
  | scanLast new eb hp hs hn ht =>
    obtain ⟨-, hx, hy, -, -⟩ := (State.passInv_scan hp).1 hi.pass
    have hlast : _ = s.pixels := last_of_nextPos_none hx hy hn
    rw [State.stepsLeft_scan hp, State.stepsLeft_mat (by simp [ht])]
    simp [ht]
    omega
  | write q hp hc hf ht =>
    rw [State.stepsLeft_mat hp, State.stepsLeft_mat (by simpa [ht] using hp)]
    simp [ht]
    omega
  | complete hp hc ht =>
    obtain ⟨-, hle, -⟩ := (State.passInv_mat hp).1 hi.pass
    rw [State.stepsLeft_mat hp, State.stepsLeft_idle (by simp [ht])]
    omega

/-! ### The whole pass with the host silent -/

/-- The Error Buffer that phase 1 fills (rule R177). -/
theorem State.map_luma_inputImage (s : State) : s.inputImage.map (arithOf s.cfg).luma =
    (List.range' 0 s.pixels).map (fun i => (arithOf s.cfg).luma (s.pm.pixel (s.srcPixel i))) := by
  rw [inputImage, Memory.image, List.map_map, List.range_eq_range']
  rfl

/-- With the host silent the engine's steps are the three loops, one after the other (rules R176 to R186). -/
theorem run_pass (hi : s.Inv) (hp : s.phase = .init) (hc : s.cursor = 0) (hsat : s.saturated = false)
    (hin : s.inputs = []) :
    ∃ levels, s.passLevels = some levels ∧ levels.length = s.pixels
      ∧ Host.Core.run core (passSteps s.pixels) s = .next (s.afterPass levels) := by
  obtain ⟨ha, hpos, heb, hqb⟩ := (State.passInv_init hp).1 hi.pass
  obtain ⟨hW, hH⟩ := hi.size_le ha
  rw [hc] at hpos heb
  rw [List.length_eq_zero_iff] at heb
  have hsize : 0 < s.W ∧ 0 < s.H := CanonicallyOrderedAdd.mul_pos.1 hpos
  obtain ⟨m, hm⟩ : ∃ m, s.pixels = m + 1 := Nat.exists_eq_add_one_of_ne_zero hpos.ne'
  -- phase 1
  have hinit := run_init m s hp ha hin (by omega)
  rw [heb, List.nil_append, hc, ← hm, ← s.map_luma_inputImage] at hinit
  -- phase 2
  have hlen : (s.inputImage.map (arithOf s.cfg).luma).length = s.W * s.H := by
    simp [State.inputImage, Memory.image, State.pixels]
  obtain ⟨levels, hl, hll⟩ := scanLoop_some (arithOf s.cfg) s.W s.H s.depth s.pixels 0 _ hlen (Nat.zero_add _).le
  obtain ⟨eb, x, y, hscan⟩ := run_scan m
    { s with phase := .scan, scanX := 0, scanY := 0, cursor := 0 + m, eb := s.inputImage.map (arithOf s.cfg).luma }
    levels rfl hsize.1 hsize.2 hW hH hin hlen (by show 0 * s.W + 0 + (m + 1) = s.pixels; omega)
    (by show scanLoop _ s.W s.H s.depth (m + 1) (0 * s.W + 0) _ = _; rw [Nat.zero_mul, ← hm, hl])
  rw [← hm] at hscan
  -- phase 3 and the completion step
  refine ⟨levels, hl, hll, ?_⟩
  rw [passSteps, show 3 * s.pixels + 1 = s.pixels + (s.pixels + (s.pixels + 1)) by omega, run_add hinit, run_add hscan,
    ← hll]
  refine Eq.trans (run_mat levels _ [] rfl ha hin (congrArg (· ++ _) hqb) rfl
    (by show 0 + levels.length = s.pixels; omega)) ?_
  rw [hsat]
  rfl

/-! ### The pass with host accesses between its steps -/

theorem engineStep_inputs (h : engineStep s = .next t) : t.inputs = s.inputs := by
  cases engineStep_cases h <;> subst_vars <;> rfl

/-- The engine's turn in two runs with the same pass at their start, the host of `u` silent. -/
theorem step_engine_pair {rest : List Input} (hi : s.Inv) (hv : u.passView = s.passView) (hb : s.busy = true)
    (hu : u.inputs = []) :
    ∃ t v, engineStep (s.withInputs rest) = .next t ∧ step u = .next v ∧ v.passView = t.passView ∧ v.inputs = []
      ∧ t.inputs = rest ∧ s.stepsLeft = t.stepsLeft + 1 := by
  have hi' : (s.withInputs rest).Inv := hi.withInputs rest
  obtain ⟨t, u', hs, hus, hui⟩ := engineStep_withPass hi' u
  have hsame : u.withPass (s.withInputs rest) = u := State.withPass_eq_self hv
  rw [hsame] at hus
  have hleft : (s.withInputs rest).stepsLeft = t.stepsLeft + 1 := stepsLeft_engineStep hi' hb hs
  exact ⟨t, u'.withPass t, hs, (step_silent hu).trans hus, rfl, hui.trans hu, engineStep_inputs hs, hleft⟩

/-- Runs with the same pass at their start: `s` takes the turns, `u` takes their engine steps with the host silent.
While engine steps remain, the pass stays the same (rules R83, R84, R241, R283). -/
theorem run_interleaved (turns rest : List Input) (s u : State) (hi : s.Inv) (hv : u.passView = s.passView)
    (hu : u.inputs = []) (hin : s.inputs = turns ++ rest) (hr : Input.reset ∉ turns)
    (hn : (turns.filter (· == .engine)).length < s.stepsLeft) :
    ∃ t v : State, Host.Core.run core turns.length s = .next t
      ∧ Host.Core.run core (turns.filter (· == .engine)).length u = .next v
      ∧ t.Inv ∧ v.passView = t.passView ∧ v.inputs = [] ∧ t.inputs = rest
      ∧ s.stepsLeft = t.stepsLeft + (turns.filter (· == .engine)).length := by
  induction turns generalizing s u with
  | nil => exact ⟨s, u, rfl, rfl, hi, hv, hu, hin, rfl⟩
  | cons turn turns ih =>
    have hr' : Input.reset ∉ turns := fun h => hr (List.mem_cons_of_mem _ h)
    have hb : s.busy = true := State.busy_of_stepsLeft (by omega)
    cases turn with
    | reset => exact absurd List.mem_cons_self hr
    | host a =>
      obtain ⟨t, hst, htv, htin⟩ := step_host_busy hb hin
      rw [← State.stepsLeft_of_passView htv] at hn ⊢
      obtain ⟨t', v', hts, hvs, hend⟩ := ih t u (hi.step hst) (hv.trans htv.symm) hu htin hr' hn
      exact ⟨t', v', (run_succ hst).trans hts, hvs, hend⟩
    | engine =>
      have hcount : ((Input.engine :: turns).filter (· == .engine)).length
          = (turns.filter (· == .engine)).length + 1 := rfl
      rw [hcount] at hn ⊢
      obtain ⟨t, v, hst, huv, hvt, hvin, htin, hl⟩ := step_engine_pair hi hv hb hu
      have hst : step s = .next t := (step_engine hin).trans hst
      obtain ⟨t', v', hts, hvs, hi', hv', hvin', htin', hl'⟩ := ih t v (hi.step hst) hvt hvin htin hr' (by omega)
      exact ⟨t', v', (run_succ hst).trans hts, (run_succ huv).trans hvs, hi', hv', hvin', htin', by omega⟩

end

end Sys2Proof.Machine

section
open Sys2Proof Sys2Proof.Machine

/-- Settles O54: the interleaved run and the run with the host silent go through the same pass, up to the completion
step. -/
theorem interleavedPassGivesSameOutput : Obligations.InterleavedPassGivesSameOutput := by
  intro s turns rest hi hp hc hsat hin hr hn
  obtain ⟨levels, hl, -, hsilent⟩ := run_pass (hi.withInputs []) hp hc hsat rfl
  have hleft : s.stepsLeft = 3 * s.pixels + 1 := by rw [State.stepsLeft_init hp, hc]; rfl
  obtain ⟨t, v, hst, hsv, hti, hvt, hvin, htin, hlt⟩ :=
    run_interleaved turns (.engine :: rest) s (s.withInputs []) hi rfl rfl hin hr (by omega)
  have hb : t.busy = true := State.busy_of_stepsLeft (by omega)
  obtain ⟨t', v', ht', hv', hvt', -, htin', -⟩ := step_engine_pair hti hvt hb hvin
  -- the silent run ends at its completion step, and so does the interleaved one
  have hend : v' = (s.withInputs []).afterPass levels := by
    rw [passSteps, State.withInputs_pixels, ← hn, run_add hsv, run_succ hv'] at hsilent
    injection hsilent
  have hview : t'.passView = ((s.withInputs []).afterPass levels).passView := hend ▸ hvt'.symm
  have hpm : t'.pm = (s.afterPass levels).pm := congrArg (fun w => w.2.2.1) hview
  have hidle : t'.busy = false := t'.busy_false_iff.2 (congrArg (fun w => w.2.2.2.1.1) hview)
  have hdone : t'.done = true ∧ t'.err = .none := by
    rcases engineStep_busy ht' with h | ⟨-, -, rfl⟩
    · simp [hidle, hb] at h
    · exact ⟨rfl, rfl⟩
  exact ⟨levels, t', hl, (run_add hst).trans (run_succ ((step_engine htin).trans ht')), hpm, hidle, hdone.1, hdone.2,
    htin'⟩

/-- Settles O11. -/
theorem busErrorChangesNothing : Obligations.BusErrorChangesNothing := by
  intro s w addr v rest acc hacc hin hbad
  refine step_busError (v := v) (rest := rest) (target_busError hbad) ?_
  rcases hacc with rfl | rfl
  · exact .inl hin
  · exact .inr hin

/-- Settles O12. -/
theorem pixelMemoryWriteIsLittleEndian : Obligations.PixelMemoryWriteIsLittleEndian := by
  intro s w off v rest hlegal hb halign hfit hin
  obtain ⟨-, -, -, -, -, hsize⟩ := Config.legal_iff.1 hlegal
  refine ⟨_, step_writePm (target_pm s.cfg w off hsize halign hfit) hb hin, fun k hk => ?_, fun a ha => ?_⟩
  · rw [Memory.byte_write, if_pos (by omega), Nat.add_sub_cancel_left, ofNat_div_eq_extractLsb']
  · rw [Memory.byte_write, if_neg (by omega)]

/-- Settles O13. -/
theorem pixelMemoryReadIsLittleEndian : Obligations.PixelMemoryReadIsLittleEndian := by
  intro s w off rest hlegal hb halign hfit hin
  obtain ⟨-, -, -, -, -, hsize⟩ := Config.legal_iff.1 hlegal
  refine ⟨_, step_readPm (target_pm s.cfg w off hsize halign hfit) hb hin, fun k hk => ?_, ?_⟩
  · rw [← ofNat_div_eq_extractLsb', Memory.toNat_ofNat_read, Memory.ofNat_read_div _ hk]
  · rw [Memory.toNat_ofNat_read]
    exact Memory.read_lt _ _ _

/-- Settles O56: the completion step leaves pixel memory as phase 3 wrote it. -/
theorem passWritesOutputRegionOnly : Obligations.PassWritesOutputRegionOnly := by
  refine fun s levels hlen => ⟨fun a ha => Memory.byte_putLevels levels s.pm ?_,
    fun i q hq => Memory.pixel_putLevels levels s.pm hq⟩
  simp only [State.inOutput, Bool.and_eq_false_iff, decide_eq_false_iff_not] at ha
  omega

/-- Settles O36. -/
theorem pixelAndNumwordPacking : Obligations.PixelAndNumwordPacking :=
  ⟨Memory.ofWord_toWord, toWord_ofWord, numWord_halves, halves_numWord⟩

end

/-! SUPPORT. The decoder and the encoder as inverses, and the illegal words by their fields (rules R101 to R104). -/

namespace Sys2Proof

theorem decode_encode (i : Instr) : decode (encode i) = .ok i := by
  cases i <;> rfl

theorem decode_eq_ok_iff {w : Word} {i : Instr} : decode w = .ok i ↔ w = encode i := by
  refine ⟨Machine.eq_encode_of_decode, ?_⟩
  rintro rfl
  exact decode_encode i

theorem encode_fields (i : Instr) : rsvField (encode i) = 0 ∧ (opField (encode i)).toNat < 4 := by
  cases i with
  | nop => exact Laws.EncodedFields.nop
  | luma => exact Laws.EncodedFields.luma
  | quant => exact Laws.EncodedFields.quant
  | dither => exact Laws.EncodedFields.dither

/-- A word with RSV = 0 and OP below 0x04 is a command's word (rules R101, R102). -/
theorem exists_eq_encode {w : Word} (hrsv : rsvField w = 0) (hop : (opField w).toNat < 4) : ∃ i, w = encode i := by
  have hw : w.toNat = (opField w).toNat := by simp [toNat_fields, hrsv]
  have hcases : w.toNat = 0 ∨ w.toNat = 1 ∨ w.toNat = 2 ∨ w.toNat = 3 := by omega
  rcases hcases with h | h | h | h
  · exact ⟨.nop, BitVec.eq_of_toNat_eq h⟩
  · exact ⟨.luma, BitVec.eq_of_toNat_eq h⟩
  · exact ⟨.quant, BitVec.eq_of_toNat_eq h⟩
  · exact ⟨.dither, BitVec.eq_of_toNat_eq h⟩

/-- A word is illegal exactly by its fields (rule R103). -/
theorem decode_eq_error_iff {w : Word} :
    (∃ e, decode w = .error e) ↔ 4 ≤ (opField w).toNat ∨ rsvField w ≠ 0 := by
  constructor
  · rintro ⟨e, he⟩
    by_contra! hlegal
    obtain ⟨hop, hrsv⟩ := hlegal
    obtain ⟨i, rfl⟩ := exists_eq_encode hrsv hop
    simp [decode_encode] at he
  · intro hbad
    cases hd : decode w with
    | error e => exact ⟨e, rfl⟩
    | ok i =>
      obtain ⟨hrsv, hop⟩ := encode_fields i
      rw [decode_eq_ok_iff.1 hd] at hbad
      rcases hbad with hbad | hbad
      · omega
      · exact absurd hrsv hbad

end Sys2Proof

section
open Sys2Proof Sys2Proof.Machine

/-- Settles O22: each of the five shapes a command's next state has is made of updates that write DONE and ERR, and
beside them LRES for LUMA, QRES for QUANT, the pass's start for DITHER. -/
theorem commandFrames : Obligations.CommandFrames := by
  intro i s t h
  rcases exec_cases i s with ⟨e, he⟩ | he | ⟨rfl, he⟩ | ⟨rfl, he⟩ | ⟨rfl, -, he⟩
  all_goals
    obtain rfl := Host.Outcome.next.inj (he.symm.trans h)
    simp

/-- Settles O15. -/
theorem commandWordsDecode : Obligations.CommandWordsDecode :=
  ⟨decode_encode .nop, decode_encode .luma, decode_encode .quant, decode_encode .dither, rfl, rfl⟩

/-- Settles O16: `encode` is the decoder's inverse, and the words of no command are those with a bad field. -/
theorem decodeInvertsEncode : Obligations.DecodeInvertsEncode :=
  ⟨fun _ _ => decode_eq_ok_iff, fun _ => decode_eq_error_iff⟩

end

/-! SUPPORT. The FIX luma as one rounding (rules R130, R133), and the order of the non-negative binary64 patterns, which
every operation keeps, so that the white pixel bounds the FP64 luma and each value of its chain (rules R13, R133,
R134). -/

namespace Sys2Proof.Machine

/-! ### The FIX luma -/

/-- The weights sum to 1000, so no pixel's sum is above that of the white opaque pixel (rule R131). -/
theorem lumaSum_le (p : Pixel) : lumaSum p ≤ 255 * 255000 := by
  have hweighted : 299 * p.r.toNat + 587 * p.g.toNat + 114 * p.b.toNat ≤ 255 * 1000 := by omega
  exact (Nat.mul_le_mul hweighted (by omega : p.a.toNat ≤ 255)).trans (by decide)

theorem lumaSum_grey {p : Pixel} (ha : p.a = 255) (hrg : p.r = p.g) (hgb : p.g = p.b) :
    lumaSum p = p.r.toNat * 255000 := by
  have ha' : p.a.toNat = 255 := by rw [ha]; rfl
  rw [lumaSum, ha', ← hgb, ← hrg]
  omega

/-- The FIX luma is within half a unit of the exact one (rule R134). -/
theorem lumaFix_near (f : Nat) (p : Pixel) :
    510000 * lumaFix f p ≤ 2 * (lumaSum p * 2 ^ f) + 255000
      ∧ 2 * (lumaSum p * 2 ^ f) + 255000 < 510000 * lumaFix f p + 510000 := by
  rw [lumaFix, Nat.mul_assoc]
  omega

theorem arithOf_luma_fix {c : Config} (h : c.numFmt = .fix) (p : Pixel) :
    (arithOf c).luma p = BitVec.ofNat 64 (lumaFix c.fracBits p) := by
  rw [arithOf_fix h]
  rfl

theorem arithOf_luma_fp64 {c : Config} (h : c.numFmt = .fp64) (p : Pixel) : (arithOf c).luma p = lumaF64 p := by
  rw [arithOf_fp64 h]
  rfl

/-- LUMA writes the two halves of the luma to LRES and ends with success (rules R107, R137). -/
theorem exec_luma_of_eq {s : State} {v : NumWord} (hv : (arithOf s.cfg).luma s.opaPixel = v) :
    exec .luma s = .next { s with
      lresLo := v.extractLsb' 0 32, lresHi := v.extractLsb' 32 32, done := true, err := .none } := by
  subst hv
  exact exec_luma s

end Sys2Proof.Machine

namespace Sys2Proof.Machine.F64

/-! ### The order of the non-negative numeric patterns -/

/-- `m` is a numeric pattern with sign 0 and `w` is a pattern at most it; such patterns are ordered as their values. -/
structure UpTo (w m : NumWord) : Prop where
  le : w.toNat ≤ m.toNat
  finite : m.toNat < 0x7FF * 2 ^ 52

theorem toNat_fl (n d : Nat) : (fl false n d).toNat = roundMag n d := by
  have := roundMag_le n d
  rw [fl, pack_toNat _ _ (by omega)]
  simp

theorem channelF64_eq (x : Byte) : channelF64 x = fl false (x.toNat * one) 1 := by
  rw [channelF64, ofInt, decide_eq_false (by omega), Int.natAbs_natCast]

/-- `fl` of a magnitude is at most `fl` of a larger one (rule R13). -/
theorem upTo_fl {n d n' d' : Nat} {v : NumWord} (hd : 0 < d) (hd' : 0 < d') (h : n * d' ≤ n' * d)
    (hv : fl false n' d' = v) (hfin : v.toNat < 0x7FF * 2 ^ 52) : UpTo (fl false n d) v := by
  subst hv
  refine ⟨?_, hfin⟩
  rw [toNat_fl, toNat_fl]
  exact roundMag_mono hd hd' h

theorem channelF64_upTo {x y : Byte} {v : NumWord} (h : x ≤ y) (hv : channelF64 y = v)
    (hfin : v.toNat < 0x7FF * 2 ^ 52) : UpTo (channelF64 x) v := by
  rw [channelF64_eq] at hv ⊢
  exact upTo_fl one_pos one_pos (Nat.mul_le_mul_right 1 (Nat.mul_le_mul_right one h)) hv hfin

namespace UpTo

variable {a b m k v : NumWord}

theorem refl (h : m.toNat < 0x7FF * 2 ^ 52) : UpTo m m := ⟨le_rfl, h⟩

theorem bound (h : UpTo a m) : UpTo m m := refl h.finite

theorem isNumeric (h : UpTo a m) : isNumeric a = true := by
  have := h.le
  have := h.finite
  rw [isNumeric_iff]
  omega

theorem neg (h : UpTo a m) : neg a = false := by
  have := h.le
  have := h.finite
  rw [F64.neg, BitVec.msb_eq_decide, decide_eq_false_iff_not]
  omega

theorem mag_le (h : UpTo a m) : mag a ≤ mag m := by
  have := h.le
  have := h.finite
  rw [mag_eq, mag_eq]
  exact magBits_mono (by omega)

theorem scaled (h : UpTo a m) : scaled a = mag a := by
  rw [F64.scaled, h.neg]
  simp

theorem fp64Value_nonneg (h : UpTo a m) : 0 ≤ fp64Value a := by
  rw [fp64Value, h.scaled]
  positivity

theorem fp64Value_le (h : UpTo a m) : fp64Value a ≤ fp64Value m := by
  rw [fp64Value, fp64Value, h.scaled, h.bound.scaled, div_le_div_iff_of_pos_right one_cast_pos]
  exact_mod_cast h.mag_le

theorem eq_zero (h : UpTo a 0) : a = 0 := BitVec.eq_of_toNat_eq (Nat.le_zero.1 h.le)

/-! ### The operations on non-negative numeric patterns: one `fl` of a magnitude, larger for larger operands -/

theorem add_eq (ha : UpTo a m) (hb : UpTo b k) : F64.add a b = fl false (mag a + mag b) 1 := by
  have hsign : ¬ (mag a : Int) + mag b < 0 := by omega
  have habs : ((mag a : Int) + mag b).natAbs = mag a + mag b := by omega
  simp only [F64.add, ha.isNumeric, hb.isNumeric, ha.scaled, hb.scaled, ha.neg, hb.neg, hsign, habs, Bool.and_self,
    if_true, decide_false, ite_self]

theorem mul_eq (ha : UpTo a m) (hb : UpTo b k) : F64.mul a b = fl false (mag a * mag b) one := by
  rw [F64.mul, ha.isNumeric, hb.isNumeric, ha.neg, hb.neg]
  rfl

theorem div_eq (ha : UpTo a m) (hb : UpTo b k) (h0 : mag b ≠ 0) : F64.div a b = fl false (mag a * one) (mag b) := by
  rw [F64.div, ha.isNumeric, hb.isNumeric, ha.neg, hb.neg, bne_iff_ne.2 h0]
  rfl

theorem add (ha : UpTo a m) (hb : UpTo b k) (hv : F64.add m k = v) (hfin : v.toNat < 0x7FF * 2 ^ 52) :
    UpTo (F64.add a b) v := by
  rw [add_eq ha.bound hb.bound] at hv
  rw [add_eq ha hb]
  exact upTo_fl one_pos one_pos (Nat.mul_le_mul_right 1 (Nat.add_le_add ha.mag_le hb.mag_le)) hv hfin

theorem mul (ha : UpTo a m) (hb : UpTo b k) (hv : F64.mul m k = v) (hfin : v.toNat < 0x7FF * 2 ^ 52) :
    UpTo (F64.mul a b) v := by
  rw [mul_eq ha.bound hb.bound] at hv
  rw [mul_eq ha hb]
  exact upTo_fl f64one_pos f64one_pos (Nat.mul_le_mul_right one (Nat.mul_le_mul ha.mag_le hb.mag_le)) hv hfin

/-- A quotient by a fixed divisor. -/
theorem div (ha : UpTo a m) (hb : UpTo b k) (h0 : mag b ≠ 0) (hv : F64.div m b = v)
    (hfin : v.toNat < 0x7FF * 2 ^ 52) : UpTo (F64.div a b) v := by
  have hpos := Nat.pos_of_ne_zero h0
  rw [div_eq ha.bound hb h0] at hv
  rw [div_eq ha hb h0]
  exact upTo_fl hpos hpos (Nat.mul_le_mul_right _ (Nat.mul_le_mul_right one ha.mag_le)) hv hfin

end UpTo

end Sys2Proof.Machine.F64

namespace Sys2Proof.Machine

/-! ### The chain of the FP64 luma, bounded by the white pixel's -/

/-- A channel is at most 255.0. -/
theorem channelF64_le (x : Byte) : F64.UpTo (channelF64 x) 0x406FE00000000000 :=
  F64.channelF64_upTo (y := 255) (by bv_omega) (by decide +kernel) (by decide)

section
variable (p : Pixel)

/-- The red term is at most 299·255/1000, rounded. -/
theorem redTermF64_le : F64.UpTo (F64.mul k299 (channelF64 p.r)) 0x40530FAE147AE147 :=
  (F64.UpTo.refl (by decide)).mul (channelF64_le p.r) (by decide +kernel) (by decide)

/-- The green term is at most 587·255/1000, rounded. -/
theorem greenTermF64_le : F64.UpTo (F64.mul k587 (channelF64 p.g)) 0x4062B5EB851EB852 :=
  (F64.UpTo.refl (by decide)).mul (channelF64_le p.g) (by decide +kernel) (by decide)

/-- The blue term is at most 114·255/1000, rounded. -/
theorem blueTermF64_le : F64.UpTo (F64.mul k114 (channelF64 p.b)) 0x403D11EB851EB852 :=
  (F64.UpTo.refl (by decide)).mul (channelF64_le p.b) (by decide +kernel) (by decide)

theorem redGreenF64_le :
    F64.UpTo (F64.add (F64.mul k299 (channelF64 p.r)) (F64.mul k587 (channelF64 p.g))) 0x406C3DC28F5C28F6 :=
  (redTermF64_le p).add (greenTermF64_le p) (by decide +kernel) (by decide)

/-- The rounded weights still sum to at most 1: the weighted sum is at most 255.0. -/
theorem weightedSumF64_le :
    F64.UpTo (F64.add (F64.add (F64.mul k299 (channelF64 p.r)) (F64.mul k587 (channelF64 p.g)))
      (F64.mul k114 (channelF64 p.b))) 0x406FE00000000000 :=
  (redGreenF64_le p).add (blueTermF64_le p) (by decide +kernel) (by decide)

/-- The numerator is at most 65025.0. -/
theorem numeratorF64_le :
    F64.UpTo (F64.mul (F64.add (F64.add (F64.mul k299 (channelF64 p.r)) (F64.mul k587 (channelF64 p.g)))
      (F64.mul k114 (channelF64 p.b))) (channelF64 p.a)) 0x40EFC02000000000 :=
  (weightedSumF64_le p).mul (channelF64_le p.a) (by decide +kernel) (by decide)

/-- The FP64 luma is at most 255.0 (rule R134). -/
theorem lumaF64_le : F64.UpTo (lumaF64 p) 0x406FE00000000000 :=
  (numeratorF64_le p).div (F64.UpTo.refl (by decide +kernel)) (by decide +kernel) (by decide +kernel) (by decide)

/-- A transparent pixel's alpha is +0, and so are its numerator and its luma (rule R134). -/
theorem lumaF64_transparent (ha : p.a = 0) : lumaF64 p = 0 := by
  have halpha : F64.UpTo (channelF64 p.a) 0 :=
    F64.channelF64_upTo (y := 0) (ha ▸ BitVec.le_refl _) (by decide +kernel) (by decide)
  have hnumerator := (weightedSumF64_le p).mul halpha (v := 0) (by decide +kernel) (by decide)
  exact (hnumerator.div (F64.UpTo.refl (by decide +kernel)) (by decide +kernel) (by decide +kernel) (by decide)).eq_zero

end

end Sys2Proof.Machine

section
open Sys2Proof Sys2Proof.Machine

/-- Settles O24: the formula is one rounding of the exact luma, whose sum is at most that of the white pixel. -/
theorem lumaFixIsNearest : Obligations.LumaFixIsNearest := by
  intro f p
  obtain ⟨hle, hlt⟩ := lumaFix_near f p
  refine ⟨?_, ?_, fun hzero => ?_, fun ha hrg hgb => ?_⟩
  · have hleQ : (510000 * lumaFix f p : ℚ) ≤ 2 * (lumaSum p * 2 ^ f) + 255000 := by exact_mod_cast hle
    have hltQ : (2 * (lumaSum p * 2 ^ f) + 255000 : ℚ) < 510000 * lumaFix f p + 510000 := by exact_mod_cast hlt
    have hreal : lumaReal p * 2 ^ f = lumaSum p * 2 ^ f / 255000 := div_mul_eq_mul_div ..
    rw [hreal, abs_le]
    constructor <;> linarith
  · have hsum := Nat.mul_le_mul_right (2 ^ f) (lumaSum_le p)
    omega
  · rw [hzero, Nat.zero_mul] at hle
    omega
  · rw [lumaSum_grey ha hrg hgb, Nat.mul_right_comm] at hle hlt
    omega

/-- Settles O26: every value of the chain is bounded by the white pixel's, which is numeric at each step. -/
theorem lumaF64InRange : Obligations.LumaF64InRange := by
  refine ⟨fun p => ?_, by decide +kernel⟩
  have hluma := lumaF64_le p
  have htop : fp64Value 0x406FE00000000000 = 255 := by decide +kernel
  refine ⟨hluma.isNumeric, hluma.fp64Value_nonneg, htop ▸ hluma.fp64Value_le, lumaF64_transparent p, ?_⟩
  rintro x y z rfl rfl rfl
  exact ⟨(redTermF64_le p).isNumeric, (greenTermF64_le p).isNumeric, (blueTermF64_le p).isNumeric,
    (redGreenF64_le p).isNumeric, (weightedSumF64_le p).isNumeric, (numeratorF64_le p).isNumeric⟩

/-- Settles O40: phase 1 and LUMA apply one function to one word, and LRES holds its two halves. -/
theorem phaseOneEntryIsLuma : Obligations.PhaseOneEntryIsLuma := by
  intro s hp hf
  have hentry (w : NumWord) : s.eb ++ [w] = s.eb ++ [numWord (numHi w) (numLo w)] := by rw [numWord_halves]
  have hstep := engineStep_init hp hf
  by_cases hc : s.cursor + 1 < s.pixels
  · rw [if_pos hc] at hstep
    exact ⟨_, _, hstep, exec_luma _, hentry _, rfl, fun _ => ⟨hp, rfl⟩, fun hlast => absurd hc (by omega)⟩
  · rw [if_neg hc] at hstep
    exact ⟨_, _, hstep, exec_luma _, hentry _, rfl, fun h => absurd h hc, fun _ => ⟨rfl, rfl, rfl⟩⟩

/-- Settles O19. -/
theorem lumaWritesLumaOfOpa : Obligations.LumaWritesLumaOfOpa := by
  rintro s r g b a rfl rfl rfl rfl
  exact ⟨fun hfmt _ hv => exec_luma_of_eq ((arithOf_luma_fix hfmt _).trans hv.symm),
    fun hfmt _ hv => exec_luma_of_eq ((arithOf_luma_fp64 hfmt _).trans hv.symm)⟩

/-- Refutes O25: at F = 8 the pixel (1, 0, 0, 1) has the sum 299, and 2·299·2^8 + 255000 is below 510000. -/
theorem not_lumaFixZeroOnlyForZeroSum : ¬ Obligations.LumaFixZeroOnlyForZeroSum := by
  intro h
  have hzero : lumaFix 8 { r := 1, g := 0, b := 0, a := 1 } = 0 := by decide
  have hsum : lumaSum { r := 1, g := 0, b := 0, a := 1 } = 299 := by decide
  exact absurd (hsum.symm.trans ((h 8 _ (by decide) (by decide)).1 hzero)) (by decide)

end

/-! SUPPORT. The quantizer over whole numbers and over the rationals (rules R150 to R153, R155): the second rounding
never ties, levels rise with their indices, and the FIX quantizer is the exact one. -/

namespace Sys2Proof.Machine

/-! ### The levels of the indices -/

/-- Every level of rule R150 is one of `levelOf`, which the quantizers of all three modes share. -/
theorem rhuDiv_eq_levelOf (idx : Int) (bits : Nat) : rhuDiv (idx * 255) (steps bits) = levelOf idx bits := by
  rw [rhuDiv, levelOf]
  congr 2
  ring

theorem levelSet_eq_map_levelOf (bits : Nat) :
    levelSet bits = (List.range (steps bits + 1)).map (fun k : Nat => levelOf k bits) := by
  rw [levelSet]
  exact List.map_congr_left fun k _ => rhuDiv_eq_levelOf k bits

/-- The second rounding never meets a tie (rule R152): `510·idx + L` is odd and its divisor `2L` is even. -/
theorem levelOf_near_strict (idx : Int) {bits : Nat} (h : 1 ≤ bits) :
    2 * steps bits * levelOf idx bits + 1 ≤ 510 * idx + steps bits
      ∧ 510 * idx + steps bits + 1 ≤ 2 * steps bits * levelOf idx bits + 2 * steps bits := by
  obtain ⟨hle, hlt⟩ := levelOf_near idx h
  have hodd := steps_odd h
  rw [mul_assoc] at hle hlt ⊢
  omega

/-- A level is the only whole number this near to its index's value. -/
theorem levelOf_eq_of_near {idx level : Int} {bits : Nat} (h : 1 ≤ bits)
    (hle : 2 * steps bits * level ≤ 510 * idx + steps bits)
    (hlt : 510 * idx + steps bits < 2 * steps bits * level + 2 * steps bits) : levelOf idx bits = level := by
  have hpos := steps_pos h
  rw [levelOf, Int.ediv_eq_iff_of_pos (by omega)]
  push_cast
  constructor <;> linarith

theorem levelOf_zero {bits : Nat} (h : 1 ≤ bits) : levelOf 0 bits = 0 :=
  levelOf_eq_of_near h (by simp) (by have := steps_pos h; omega)

theorem levelOf_steps {bits : Nat} (h : 1 ≤ bits) : levelOf (steps bits) bits = 255 :=
  levelOf_eq_of_near h (by omega) (by have := steps_pos h; omega)

/-- Up to depth 8 the spacing 255/L is at least 1, so levels rise strictly with their indices (rule R151). -/
theorem levelOf_strictMono {bits : Nat} (h : 1 ≤ bits) (h8 : bits ≤ 8) : StrictMono (levelOf · bits) := by
  intro i j hij
  obtain ⟨hi, -⟩ := levelOf_near i h
  obtain ⟨-, hj⟩ := levelOf_near j h
  have hL := steps_le h8
  have hpos : (0 : Int) < 2 * steps bits := by have := steps_pos h; omega
  exact lt_of_mul_lt_mul_left (by linarith : 2 * steps bits * levelOf i bits < 2 * steps bits * levelOf j bits) hpos.le

/-! ### The two roundings over the rationals -/

theorem rhuReal_eq_iff {x : ℚ} {k : ℤ} : rhuReal x = k ↔ (k : ℚ) - 1 / 2 ≤ x ∧ x < k + 1 / 2 := by
  rw [rhuReal, Int.floor_eq_iff]
  constructor <;> rintro ⟨hle, hlt⟩ <;> constructor <;> linarith

theorem rhuReal_mono {x y : ℚ} (h : x ≤ y) : rhuReal x ≤ rhuReal y :=
  Int.floor_mono (by linarith)

theorem rhuReal_intCast (k : ℤ) : rhuReal k = k :=
  rhuReal_eq_iff.2 ⟨by linarith, by linarith⟩

theorem quantReal_eq_levelOf {bits : Nat} (v : ℚ) (h : 1 ≤ bits) :
    quantReal v bits = levelOf (indexReal v bits) bits := by
  rw [quantReal, ← rhuDiv_eq_levelOf, ← rhuReal_div _ (steps_pos h)]
  push_cast
  rfl

/-- The FIX index is the exact index of the value that the word stands for (rule R155). -/
theorem indexFix_eq_indexReal (f : Nat) (v : Int) (bits : Nat) : indexFix f v bits = indexReal (fixValue f v) bits := by
  obtain ⟨hle, hlt⟩ := indexFix_near f v bits
  have hf : (0 : ℚ) < 2 ^ f := by positivity
  have hleQ : (510 * 2 ^ f * indexFix f v bits : ℚ) ≤ 2 * v * steps bits + 255 * 2 ^ f := by exact_mod_cast hle
  have hltQ : (2 * v * steps bits + 255 * 2 ^ f : ℚ) < 510 * 2 ^ f * indexFix f v bits + 510 * 2 ^ f := by
    exact_mod_cast hlt
  refine (rhuReal_eq_iff.2 ?_).symm
  have hx : fixValue f v * steps bits / 255 = 2 * v * steps bits / (510 * 2 ^ f) := by
    rw [fixValue]
    field_simp
    ring
  rw [hx, le_div_iff₀ (by positivity), div_lt_iff₀ (by positivity)]
  constructor <;> linarith

/-- A value in [0, 255] has an index in [0, L] (rule R153). -/
theorem indexReal_mem {v : ℚ} (bits : Nat) (h0 : 0 ≤ v) (h255 : v ≤ 255) :
    0 ≤ indexReal v bits ∧ indexReal v bits ≤ steps bits := by
  have hL : (0 : ℚ) ≤ steps bits := Nat.cast_nonneg _
  constructor
  · have hle : ((0 : ℤ) : ℚ) ≤ v * steps bits / 255 := by rw [Int.cast_zero]; positivity
    exact (rhuReal_intCast 0).symm.le.trans (rhuReal_mono hle)
  · have hle : v * steps bits / 255 ≤ ((steps bits : ℤ) : ℚ) := by
      rw [div_le_iff₀ (by norm_num), Int.cast_natCast, mul_comm]
      exact mul_le_mul_of_nonneg_left h255 hL
    exact (rhuReal_mono hle).trans (rhuReal_intCast _).le

/-- A tie of the first rounding rounds up (rule R152). -/
theorem indexReal_of_tie {v : ℚ} {bits : Nat} {k : ℤ} (h : v * steps bits / 255 = k + 1 / 2) :
    indexReal v bits = k + 1 := by
  refine rhuReal_eq_iff.2 ?_
  rw [h]
  push_cast
  constructor <;> linarith

end Sys2Proof.Machine

section
open Sys2Proof Sys2Proof.Machine

/-- Settles O27: the FIX index is the exact one, and the second rounding is the same. -/
theorem quantFixIsQuantReal : Obligations.QuantFixIsQuantReal := by
  intro f v bits h
  rw [quantFix, indexFix_eq_indexReal, quantReal_eq_levelOf _ h]

/-- Settles O28: levels rise strictly from 0 to 255 with the indices 0 … L, and a value in [0, 255] has such an
index. -/
theorem inRangeValueGivesLevel : Obligations.InRangeValueGivesLevel := by
  refine ⟨fun bits h h8 => ?_, fun v bits h h0 h255 => ?_⟩
  · rw [levelSet_eq_map_levelOf]
    refine ⟨?_, ?_, ?_, ?_⟩
    · have := Nat.two_pow_pos bits
      rw [List.length_map, List.length_range, steps]
      omega
    · exact List.pairwise_map.2 (List.pairwise_lt_range.imp fun hij =>
        levelOf_strictMono h h8 (Int.ofNat_lt.2 hij))
    · rw [List.range_succ_eq_map, List.map_cons, List.head?_cons, Nat.cast_zero, levelOf_zero h]
    · rw [List.range_succ, List.map_append, List.map_singleton, List.getLast?_concat, levelOf_steps h]
  · obtain ⟨hpos, hle⟩ := indexReal_mem bits h0 h255
    refine ⟨hpos, hle, ?_⟩
    rw [quantReal_eq_levelOf v h, levelSet_eq_map_levelOf]
    exact List.mem_map.2 ⟨(indexReal v bits).toNat, List.mem_range.2 (by omega), by rw [Int.toNat_of_nonneg hpos]⟩

/-- Settles O29: a tie of the second rounding would make an even number equal to an odd one. -/
theorem quantizerTies : Obligations.QuantizerTies := by
  have hindex : indexReal (255 / 2) 1 = 0 + 1 := indexReal_of_tie (by norm_num [steps])
  refine ⟨fun bits idx k h htie => ?_, fun bits v k htie => indexReal_of_tie htie, hindex, ?_⟩
  · have hodd := steps_odd h
    have hL : (steps bits : ℚ) ≠ 0 := Nat.cast_ne_zero.2 (steps_pos h).ne'
    rw [div_eq_iff hL] at htie
    have hint : 510 * idx = 2 * (k * steps bits) + steps bits := by
      have : (510 * idx : ℚ) = 2 * (k * steps bits) + steps bits := by linarith
      exact_mod_cast this
    omega
  · rw [quantReal_eq_levelOf _ le_rfl, hindex]
    exact levelOf_steps le_rfl

end

/-! SUPPORT. How far a binary64 operation is from its exact result (rule R13), and the FP64 quantizer: its levels are
the exact ones, since no level is near a tie, and its index is that of a value nearby (rule R155). -/

namespace Sys2Proof.Machine.F64

/-! ### The accuracy of `fl` -/

/-- A place of the significand is at most 2^−52 of the magnitude, or the least magnitude. -/
theorem two_pow_dropped_le (n d : Nat) (hd : 0 < d) : (2 : ℚ) ^ dropped n d ≤ 1 + n / d / 2 ^ 52 := by
  have hX : (0 : ℚ) ≤ n / d / 2 ^ 52 := by positivity
  rcases (dropped_bounds n d hd).2 with h0 | hle
  · rw [h0, pow_zero]
    linarith
  · have hleQ : (2 ^ 52 * (d * 2 ^ dropped n d) : ℚ) ≤ n := by exact_mod_cast hle
    have hplace : (2 : ℚ) ^ dropped n d ≤ n / d / 2 ^ 52 := by
      rw [div_div, le_div_iff₀ (by positivity)]
      linarith
    linarith

theorem two_pow_le_one_cast : (2 : ℚ) ^ 52 ≤ one := by
  unfold one
  rw [Nat.cast_pow, Nat.cast_ofNat]
  exact pow_le_pow_right₀ one_le_two (by norm_num)

/-- `fl` is within 2^−53 of the value, relative to it or to 1. -/
theorem fl_near (s : Bool) (n d : Nat) (hd : 0 < d) {x : ℚ} (hx : x = signFactor s * (n / d) / one)
    (hmax : |x| ≤ fp64Max) : |fp64Value (fl s n d) - x| ≤ (|x| + 1) / 2 ^ 53 := by
  have hone := one_cast_pos
  have hbig := two_pow_le_one_cast
  have habs : |x| = n / d / one := by
    rw [hx, abs_div, abs_mul, abs_signFactor, one_mul, abs_of_pos hone,
      abs_of_nonneg (div_nonneg (Nat.cast_nonneg n) (Nat.cast_nonneg d))]
  rw [habs] at hmax
  have hr := roundMag_lt n d hd hmax
  have hnear := (magBits_roundMag_near n d hd hr).1.trans (two_pow_dropped_le n d hd)
  have hbound : ((n : ℚ) / d / one + 1) / 2 ^ 53 * one = (n / d / 2 ^ 52 + one / 2 ^ 52) / 2 := by
    field_simp
  rw [habs, hx, abs_fp64Value_sub_same (neg_fl s hr), fl, mag_pack _ _ (by omega), div_le_iff₀ hone, hbound]
  linarith

/-- A rational as a sign and a magnitude in units of 2^−1074. -/
theorem eq_signFactor_mul (x : ℚ) :
    x = signFactor (decide (x.num < 0)) * ((x.num.natAbs * one : Nat) / x.den) / one := by
  rw [mul_div_assoc, div_right_comm, Nat.cast_mul, mul_div_cancel_right₀ _ one_cast_pos.ne', ← mul_div_assoc,
    signFactor_mul_natAbs fun _ => rfl, Rat.num_div_den]

/-- No numeric value is nearer than `fl x`, and one is within 2^−53 of x, relative to x or to 1. -/
theorem isFl_near {x : ℚ} {r : NumWord} (h : IsFl x r) (hmax : |x| ≤ fp64Max) :
    |fp64Value r - x| ≤ (|x| + 1) / 2 ^ 53 := by
  have hx := eq_signFactor_mul x
  exact (h.2 _ (isFl_fl _ _ _ x.den_pos hx hmax).1).1.trans (fl_near _ _ _ x.den_pos hx hmax)

/-! ### The accuracy of the operations

No value of a command exceeds 2^24 (rules R158, R163), and up to there every operation is within 2^−28. -/

theorem two_pow_le_fp64Max : (2 : ℚ) ^ 24 ≤ fp64Max := by decide +kernel

theorem numeric_near {x : ℚ} {r : NumWord} (hfl : |x| ≤ fp64Max → IsFl x r) (hx : |x| ≤ 2 ^ 24) :
    isNumeric r = true ∧ |fp64Value r - x| ≤ 1 / 2 ^ 28 := by
  have hmax := hx.trans two_pow_le_fp64Max
  exact ⟨(hfl hmax).1, (isFl_near (hfl hmax) hmax).trans (by linarith)⟩

section
variable {a b : NumWord} (ha : isNumeric a = true) (hb : isNumeric b = true)
include ha hb

theorem add_near (h : |fp64Value a + fp64Value b| ≤ 2 ^ 24) :
    isNumeric (add a b) = true ∧ |fp64Value (add a b) - (fp64Value a + fp64Value b)| ≤ 1 / 2 ^ 28 :=
  numeric_near (isFl_add ha hb) h

theorem sub_near (h : |fp64Value a - fp64Value b| ≤ 2 ^ 24) :
    isNumeric (sub a b) = true ∧ |fp64Value (sub a b) - (fp64Value a - fp64Value b)| ≤ 1 / 2 ^ 28 :=
  numeric_near (isFl_sub ha hb) h

theorem mul_near (h : |fp64Value a * fp64Value b| ≤ 2 ^ 24) :
    isNumeric (mul a b) = true ∧ |fp64Value (mul a b) - fp64Value a * fp64Value b| ≤ 1 / 2 ^ 28 :=
  numeric_near (isFl_mul ha hb) h

theorem div_near (h0 : fp64Value b ≠ 0) (h : |fp64Value a / fp64Value b| ≤ 2 ^ 24) :
    isNumeric (div a b) = true ∧ |fp64Value (div a b) - fp64Value a / fp64Value b| ≤ 1 / 2 ^ 28 :=
  numeric_near (isFl_div ha hb h0) h

end

theorem rhu_near {w : NumWord} (hw : isNumeric w = true) : |rhu w - fp64Value w| ≤ 1 / 2 := by
  rw [rhu_eq_floor w hw, abs_le]
  constructor
  · linarith [Int.lt_floor_add_one (fp64Value w + 1 / 2)]
  · linarith [Int.floor_le (fp64Value w + 1 / 2)]

end Sys2Proof.Machine.F64

namespace Sys2Proof.Machine

theorem abs_mul_le_of_le {x y X Y : ℚ} (hx : |x| ≤ X) (hy : |y| ≤ Y) : |x * y| ≤ X * Y := by
  rw [abs_mul]
  exact mul_le_mul hx hy (abs_nonneg y) ((abs_nonneg x).trans hx)

variable {bits : Nat} (h : 1 ≤ bits) (h8 : bits ≤ 8)
include h h8

theorem steps_cast_bounds : (1 : ℚ) ≤ steps bits ∧ |(steps bits : ℚ)| ≤ 255 := by
  rw [Nat.abs_cast]
  exact ⟨Nat.one_le_cast.2 (steps_pos h), by exact_mod_cast steps_le h8⟩

end Sys2Proof.Machine

namespace Sys2Proof.Machine.F64

/-! ### The FP64 quantizer -/

variable {bits : Nat} (h : 1 ≤ bits) (h8 : bits ≤ 8)
include h h8

/-- The scale is 255/L within 2^−28 (rule R155). -/
theorem scaleF64_near :
    isNumeric (scaleF64 bits) = true ∧ |fp64Value (scaleF64 bits) - 255 / steps bits| ≤ 1 / 2 ^ 28 := by
  obtain ⟨hL, -⟩ := steps_cast_bounds h h8
  obtain ⟨h255, hv255⟩ := ofInt_exact 255 (by norm_num)
  obtain ⟨hnum, hval⟩ := ofInt_exact (steps bits) (by have := steps_le h8; rw [Nat.abs_cast]; omega)
  rw [Int.cast_natCast] at hval
  have hquot : |(255 : ℚ) / steps bits| ≤ 2 ^ 24 := by
    rw [abs_of_nonneg (by positivity), div_le_iff₀ (by positivity)]
    linarith
  have hnear := div_near h255 hnum (by rw [hval]; positivity) (by rwa [hv255, hval])
  rwa [hv255, hval] at hnear

/-- The scale lies between 1 and 255, but for its rounding. -/
theorem scaleF64_bounds : 1 / 2 ≤ fp64Value (scaleF64 bits) ∧ |fp64Value (scaleF64 bits)| ≤ 2 ^ 8 := by
  obtain ⟨hL, hL8⟩ := steps_cast_bounds h h8
  have hge : (1 : ℚ) ≤ 255 / steps bits := by
    rw [le_div_iff₀ (by positivity), one_mul]
    exact (le_abs_self _).trans hL8
  have hle : (255 : ℚ) / steps bits ≤ 255 := div_le_self (by norm_num) hL
  have hnear := (scaleF64_near h h8).2
  rw [abs_le] at hnear ⊢
  refine ⟨?_, ?_, ?_⟩ <;> linarith

/-- An index times the scale is within 2^−11 of idx·255/L. -/
theorem mul_scaleF64_near {idx : Int} (hidx : |idx| ≤ 2 ^ 16) :
    isNumeric (mul (ofInt idx) (scaleF64 bits)) = true
      ∧ |fp64Value (mul (ofInt idx) (scaleF64 bits)) - idx * (255 / steps bits)| ≤ 1 / 2 ^ 11 := by
  obtain ⟨hscale, hs⟩ := scaleF64_near h h8
  obtain ⟨hnum, hval⟩ := ofInt_exact idx (hidx.trans (by norm_num))
  have hidxQ : |(idx : ℚ)| ≤ 2 ^ 16 := by exact_mod_cast hidx
  have hprod := abs_mul_le_of_le hidxQ (scaleF64_bounds h h8).2
  obtain ⟨hmul, hround⟩ := mul_near hnum hscale (by rw [hval]; linarith)
  have hdrift := abs_mul_le_of_le hidxQ hs
  rw [hval] at hround
  rw [mul_sub] at hdrift
  exact ⟨hmul, (abs_sub_le _ _ _).trans ((add_le_add hround hdrift).trans (by norm_num))⟩

/-- The FP64 level of an index is the exact one (rule R155): idx·255/L is at least 1/(2L) away from a tie. -/
theorem rhu_mul_scaleF64 {idx : Int} (hidx : |idx| ≤ 2 ^ 16) :
    rhu (mul (ofInt idx) (scaleF64 bits)) = levelOf idx bits := by
  obtain ⟨hnum, hnear⟩ := mul_scaleF64_near h h8 hidx
  obtain ⟨hlow, hhigh⟩ := levelOf_near_strict idx h
  obtain ⟨hL, hL8⟩ := steps_cast_bounds h h8
  have hlowQ : (2 * steps bits * levelOf idx bits + 1 : ℚ) ≤ 510 * idx + steps bits := by exact_mod_cast hlow
  have hhighQ : (510 * idx + steps bits + 1 : ℚ) ≤ 2 * steps bits * levelOf idx bits + 2 * steps bits := by
    exact_mod_cast hhigh
  have hvalue : (steps bits : ℚ) * (idx * (255 / steps bits)) = 255 * idx := by field_simp
  have hscaled := abs_mul_le_of_le hL8 hnear
  rw [mul_sub, hvalue, abs_le] at hscaled
  obtain ⟨habove, hbelow⟩ := hscaled
  rw [rhu_eq_floor _ hnum, Int.floor_eq_iff]
  constructor
  · exact le_of_mul_le_mul_left (by linarith) (by positivity : (0 : ℚ) < steps bits)
  · exact lt_of_mul_lt_mul_left (by linarith) (by positivity : (0 : ℚ) ≤ steps bits)

/-- The FP64 index is within half a step, and a little more, of v·L/255 (rule R155). -/
theorem indexF64_near {v : NumWord} (hv : isNumeric v = true) (hv15 : |fp64Value v| ≤ 2 ^ 15) :
    isNumeric (div v (scaleF64 bits)) = true
      ∧ |510 * (indexF64 v bits : ℚ) - 2 * fp64Value v * steps bits| ≤ 511 / 2 := by
  obtain ⟨hL, hL8⟩ := steps_cast_bounds h h8
  obtain ⟨hscale, hs⟩ := scaleF64_near h h8
  have hspos : 1 / 2 ≤ fp64Value (scaleF64 bits) := (scaleF64_bounds h h8).1
  -- y is the exact quotient by the rounded scale
  obtain ⟨y, hy⟩ : ∃ y, fp64Value v / fp64Value (scaleF64 bits) = y := ⟨_, rfl⟩
  have hyv : y * fp64Value (scaleF64 bits) = fp64Value v := by rw [← hy, div_mul_cancel₀ _ (by linarith)]
  have hy16 : |y| ≤ 2 ^ 16 := by
    rw [← hy, abs_div, abs_of_pos (by linarith : 0 < fp64Value (scaleF64 bits)), div_le_iff₀ (by linarith)]
    linarith
  obtain ⟨hdiv, hround⟩ := div_near hv hscale (by linarith) (by rw [hy]; linarith)
  -- L times the quotient's distance from v·L/255
  have hvalue : (steps bits : ℚ) * (y * (255 / steps bits)) = 255 * y := by field_simp
  have hdrift := abs_mul_le_of_le hL8 (abs_mul_le_of_le hy16 hs)
  have hrhu := rhu_near hdiv
  refine ⟨hdiv, ?_⟩
  rw [hy] at hround
  rw [mul_sub y, hyv, mul_sub, hvalue] at hdrift
  rw [abs_le] at hrhu hround hdrift ⊢
  rw [indexF64]
  constructor <;> linarith

end Sys2Proof.Machine.F64

/-! SUPPORT. The quantizer of the configured mode (rules R155, R158): the accepted operands, and one bound on the index
that holds in both modes. -/

namespace Sys2Proof.Machine

/-! ### The value, the index and the floors by name -/

section
variable {c : Config} (w : NumWord)

@[simp] theorem numericValue_fix (h : c.numFmt = .fix) : numericValue c w = fixValue c.fracBits w.toInt := by
  simp only [numericValue, h]

@[simp] theorem numericValue_fp64 (h : c.numFmt = .fp64) : numericValue c w = fp64Value w := by
  simp only [numericValue, h]

@[simp] theorem isNumericWord_fix (h : c.numFmt = .fix) : isNumericWord c w = true := by
  simp only [isNumericWord, h]

@[simp] theorem isNumericWord_fp64 (h : c.numFmt = .fp64) : isNumericWord c w = F64.isNumeric w := by
  simp only [isNumericWord, h]

@[simp] theorem indexOf_fix (h : c.numFmt = .fix) (bits : Nat) :
    indexOf c w bits = indexFix c.fracBits w.toInt bits := by
  simp only [indexOf, h]

@[simp] theorem indexOf_fp64 (h : c.numFmt = .fp64) (bits : Nat) : indexOf c w bits = indexF64 w bits := by
  simp only [indexOf, h]

end

theorem indexFix_eq_floor (f : Nat) (v : Int) (bits : Nat) :
    indexFix f v bits = ⌊(2 * v * steps bits + 255 * (2 ^ f : Nat) : ℚ) / (510 * (2 ^ f : Nat))⌋ := by
  have h := Rat.floor_intCast_div_natCast (2 * v * steps bits + 255 * 2 ^ f) (510 * 2 ^ f)
  push_cast at h ⊢
  exact h.symm

theorem levelOf_eq_floor (idx : Int) (bits : Nat) :
    levelOf idx bits = ⌊(510 * idx + steps bits : ℚ) / (2 * steps bits)⌋ := by
  have h := Rat.floor_intCast_div_natCast (510 * idx + steps bits) (2 * steps bits)
  push_cast at h
  rw [levelOf, h]
  push_cast
  rfl

/-! ### The accepted operands -/

theorem operandOk_fix {c : Config} (h : c.numFmt = .fix) (w : NumWord) : operandOk c w = true ↔
    -32768 * 2 ^ c.fracBits ≤ w.toInt ∧ w.toInt < 32768 * 2 ^ c.fracBits := by
  simp only [operandOk, h, Bool.and_eq_true, decide_eq_true_eq]

theorem operandOk_fp64 {c : Config} (h : c.numFmt = .fp64) (w : NumWord) : operandOk c w = true ↔
    F64.isNumeric w = true ∧ -32768 ≤ fp64Value w ∧ fp64Value w < 32768 := by
  simp only [operandOk, h, Bool.and_eq_true, decide_eq_true_eq, and_assoc]
  rw [fp64Value, le_div_iff₀ F64.one_cast_pos, div_lt_iff₀ F64.one_cast_pos]
  norm_cast

theorem isNumeric_iff_expField (w : NumWord) : F64.isNumeric w = true ↔ w.extractLsb' 52 11 ≠ 0x7FF := by
  rw [F64.isNumeric, bne_iff_ne, F64.expField, ne_eq, ne_eq, ← BitVec.toNat_inj]
  rfl

/-- An accepted operand stands for a value in [−32768, 32768) (rule R158). -/
theorem operandOk_value {c : Config} {w : NumWord} (h : operandOk c w = true) :
    isNumericWord c w = true ∧ |numericValue c w| ≤ 32768 := by
  cases hfmt : c.numFmt with
  | fix =>
    obtain ⟨hlow, hhigh⟩ := (operandOk_fix hfmt w).1 h
    have hf : (0 : ℚ) < 2 ^ c.fracBits := by positivity
    have hlowQ : (-32768 * 2 ^ c.fracBits : ℚ) ≤ w.toInt := by exact_mod_cast hlow
    have hhighQ : (w.toInt : ℚ) ≤ 32768 * 2 ^ c.fracBits := by exact_mod_cast hhigh.le
    rw [numericValue_fix w hfmt, fixValue, abs_le, le_div_iff₀ hf, div_le_iff₀ hf]
    exact ⟨isNumericWord_fix w hfmt, hlowQ, hhighQ⟩
  | fp64 =>
    obtain ⟨hnum, hlow, hhigh⟩ := (operandOk_fp64 hfmt w).1 h
    rw [isNumericWord_fp64 w hfmt, numericValue_fp64 w hfmt, abs_le]
    exact ⟨hnum, hlow, hhigh.le⟩

/-! ### The index and the level -/

variable {c : Config} {bits : Nat} {w : NumWord}

/-- In both modes the index is within half a step, and a little more, of v·L/255 (rules R155, R158). -/
theorem indexOf_near (h : 1 ≤ bits) (h8 : bits ≤ 8) (hw : isNumericWord c w = true) (hv : |numericValue c w| ≤ 32768) :
    |510 * (indexOf c w bits : ℚ) - 2 * numericValue c w * steps bits| ≤ 511 / 2 := by
  cases hfmt : c.numFmt with
  | fix =>
    rw [indexOf_fix w hfmt, numericValue_fix w hfmt, indexFix_eq_indexReal, abs_le]
    obtain ⟨hle, hlt⟩ := rhuReal_eq_iff.1 (rfl : indexReal (fixValue c.fracBits w.toInt) bits = _)
    constructor <;> linarith
  | fp64 =>
    simp only [isNumericWord_fp64 w hfmt, numericValue_fp64 w hfmt, indexOf_fp64 w hfmt] at hw hv ⊢
    exact (F64.indexF64_near h h8 hw (hv.trans (by norm_num))).2

/-- The index of a value in the accepted range, in whole numbers (rule R158). -/
theorem indexOf_abs_le (h : 1 ≤ bits) (h8 : bits ≤ 8) (hw : isNumericWord c w = true)
    (hv : |numericValue c w| ≤ 32768) : |510 * indexOf c w bits| ≤ 65536 * steps bits + 255 := by
  have hL : (0 : ℚ) ≤ steps bits := Nat.cast_nonneg _
  have hnear := indexOf_near h h8 hw hv
  rw [abs_le] at hv hnear
  have hlow := mul_le_mul_of_nonneg_right hv.1 hL
  have hhigh := mul_le_mul_of_nonneg_right hv.2 hL
  have hlt : |(510 * indexOf c w bits : ℚ)| < 65536 * steps bits + 256 := by
    rw [abs_lt]
    constructor <;> linarith
  have hltZ : |510 * indexOf c w bits| < 65536 * steps bits + 256 := by exact_mod_cast hlt
  omega

/-- In both modes the level is the exact level of the index (rules R155, R158). -/
theorem arithOf_quant (h : 1 ≤ bits) (h8 : bits ≤ 8) (hw : isNumericWord c w = true) (hv : |numericValue c w| ≤ 32768) :
    (arithOf c).quant w bits = levelOf (indexOf c w bits) bits := by
  have hidx := indexOf_abs_le h h8 hw hv
  cases hfmt : c.numFmt with
  | fix =>
    rw [arithOf_fix hfmt, indexOf_fix w hfmt]
    rfl
  | fp64 =>
    have hL := steps_le h8
    rw [indexOf_fp64 w hfmt, abs_le] at hidx
    rw [arithOf_fp64 hfmt, indexOf_fp64 w hfmt]
    exact F64.rhu_mul_scaleF64 h h8 (abs_le.2 (by omega))

/-- The levels of the indices that QUANT's operands have (rule R158). -/
theorem levelOf_abs_le {idx : Int} (h : 1 ≤ bits) (hidx : |510 * idx| ≤ 65536 * steps bits + 255) :
    |levelOf idx bits| ≤ 32895 := by
  obtain ⟨hlow, hhigh⟩ := levelOf_near_strict idx h
  have hpos : (0 : Int) < steps bits := Int.ofNat_lt.2 (steps_pos h)
  rw [abs_le] at hidx
  have habove : 2 * levelOf idx bits < 65792 := lt_of_mul_lt_mul_left (by linarith) hpos.le
  have hbelow : -65792 < 2 * levelOf idx bits := lt_of_mul_lt_mul_left (by linarith) hpos.le
  rw [abs_le]
  omega

/-- QUANT on an accepted operand (rule R156). -/
theorem exec_quant_of_eq {s : State} {level : Int} (hd : 1 ≤ s.bits.toNat ∧ s.bits.toNat ≤ 8)
    (ho : operandOk s.cfg s.qin = true) (hlevel : level = (arithOf s.cfg).quant s.qin s.depth) :
    exec .quant s = .next { s with qres := BitVec.ofInt 32 level, done := true, err := .none } := by
  subst hlevel
  exact exec_quant_ok ((depthOk_iff s).2 hd) ho

end Sys2Proof.Machine

section
open Sys2Proof Sys2Proof.Machine

/-- Settles O20: the operand is accepted, and the floors are the quotients of the model's quantizer. -/
theorem quantWritesLevel : Obligations.QuantWritesLevel := by
  rintro s _ _ h h8 rfl rfl
  refine ⟨fun hfmt hlow hhigh => ?_, fun hfmt hexp hlow hhigh => ?_⟩
  · intro f idx level hf hidx hlevel
    subst hf
    obtain rfl : idx = indexFix s.cfg.fracBits s.qin.toInt s.depth := hidx.trans (indexFix_eq_floor _ _ _).symm
    refine exec_quant_of_eq ⟨h, h8⟩ ((operandOk_fix hfmt _).2 ⟨hlow, hhigh⟩) ?_
    rw [arithOf_fix hfmt]
    exact hlevel.trans (levelOf_eq_floor _ _).symm
  · intro scale idx level hscale hidx hlevel
    rw [hidx, hscale] at hlevel
    refine exec_quant_of_eq ⟨h, h8⟩ ((operandOk_fp64 hfmt _).2 ⟨(isNumeric_iff_expField _).2 hexp, hlow, hhigh⟩) ?_
    rw [arithOf_fp64 hfmt]
    exact hlevel

/-- Settles O21. -/
theorem quantErrorsInOrder : Obligations.QuantErrorsInOrder := by
  rintro s _ rfl
  refine ⟨fun hd => ?_, fun h h8 hfmt ho => ?_, fun h h8 hfmt ho => ?_⟩
  · refine exec_quant_badDepth (Bool.eq_false_iff.2 fun hok => ?_)
    have := (depthOk_iff s).1 hok
    omega
  · refine exec_quant_badOperand ((depthOk_iff s).2 ⟨h, h8⟩) (Bool.eq_false_iff.2 fun hok => ?_)
    obtain ⟨hlow, hhigh⟩ := (operandOk_fix hfmt _).1 hok
    exact ho.elim hlow.not_gt hhigh.not_ge
  · refine exec_quant_badOperand ((depthOk_iff s).2 ⟨h, h8⟩) (Bool.eq_false_iff.2 fun hok => ?_)
    obtain ⟨hnum, hlow, hhigh⟩ := (operandOk_fp64 hfmt _).1 hok
    rcases ho with hexp | hbelow | habove
    · exact (isNumeric_iff_expField _).1 hnum hexp
    · exact hlow.not_gt hbelow
    · exact hhigh.not_ge habove

/-- Settles O30: in both modes the level is that of an index near v·L/255. -/
theorem acceptedOperandLevelFitsQres : Obligations.AcceptedOperandLevelFitsQres := by
  intro c w bits h h8 hok
  obtain ⟨hw, hv⟩ := operandOk_value hok
  have hlevel := levelOf_abs_le h (indexOf_abs_le h h8 hw hv)
  rw [arithOf_quant h h8 hw hv]
  obtain ⟨hlow, hhigh⟩ := abs_le.1 hlevel
  exact ⟨hlow, hhigh, BitVec.toInt_ofInt_eq_self (by decide) (by omega) (by omega)⟩

/-- Settles O31: idx·255/L is never near a tie, so the FP64 levels are the exact ones. -/
theorem quantF64ScaleAndLevels : Obligations.QuantF64ScaleAndLevels := by
  refine ⟨by decide +kernel, fun bits h k => F64.rhu_mul_scaleF64 h (by omega) ?_⟩
  have := steps_le (Nat.le_of_lt_succ bits.isLt)
  rw [abs_le]
  omega

end

/-! SUPPORT. The error, the term and the accumulation of the configured mode against their exact values (rules R133,
R187), for every value within the ±1000 that a pass stays far inside (rule R163). -/

namespace Sys2Proof.Machine

/-! ### FIX -/

section
variable {f : Nat} (hf : f ≤ 32)
include hf

/-- A word stores every value of a pass without wrapping (rule R108). -/
theorem fixValue_ofInt {i : Int} (h : |fixValue f i| ≤ 2 ^ 30) :
    fixValue f (BitVec.ofInt 64 i).toInt = fixValue f i := by
  have hpos : (0 : ℚ) < 2 ^ f := by positivity
  have hpow : (2 : ℚ) ^ f ≤ 2 ^ 32 := pow_le_pow_right₀ one_le_two hf
  rw [fixValue, abs_le, le_div_iff₀ hpos, div_le_iff₀ hpos] at h
  have hlow : (-2 ^ 62 : ℚ) ≤ i := by linarith
  have hhigh : (i : ℚ) ≤ 2 ^ 62 := by linarith
  have hlowZ : (-2 ^ 62 : Int) ≤ i := by exact_mod_cast hlow
  have hhighZ : i ≤ (2 ^ 62 : Int) := by exact_mod_cast hhigh
  rw [BitVec.toInt_ofInt_eq_self (by decide) (by omega) (by omega)]

/-- The FIX error is exact (rule R187). -/
theorem fixValue_err {v : NumWord} {q : Int} (h : |fixValue f v.toInt - q| ≤ 2 ^ 30) :
    fixValue f ((fixArith f).err v q).toInt = fixValue f v.toInt - q := by
  have hval : fixValue f (errFix f v.toInt q) = fixValue f v.toInt - q := by
    rw [errFix, fixValue, fixValue]
    push_cast
    field_simp
  rw [fixArith, fixValue_ofInt hf (by rwa [hval]), hval]

/-- The FIX accumulation is exact (rule R187). -/
theorem fixValue_add {x t : NumWord} (h : |fixValue f x.toInt + fixValue f t.toInt| ≤ 2 ^ 30) :
    fixValue f ((fixArith f).add x t).toInt = fixValue f x.toInt + fixValue f t.toInt := by
  have hval : fixValue f (x.toInt + t.toInt) = fixValue f x.toInt + fixValue f t.toInt := by
    rw [fixValue, fixValue, fixValue]
    push_cast
    ring
  rw [fixArith, fixValue_ofInt hf (by rwa [hval]), hval]

/-- The FIX term is within half a unit of 2^−f (rule R187). -/
theorem fixValue_term_near (hf8 : 8 ≤ f) {e : NumWord} {w : Nat} (h : |fixValue f e.toInt * w| ≤ 2 ^ 30) :
    |fixValue f ((fixArith f).term e w).toInt - fixValue f e.toInt * w / 16| ≤ 1 / 512 := by
  have hpos : (0 : ℚ) < 2 ^ f := by positivity
  have hpow : (2 : ℚ) ^ 8 ≤ 2 ^ f := pow_le_pow_right₀ one_le_two hf8
  obtain ⟨hlow, hhigh⟩ := termFix_near e.toInt w
  have hlowQ : (16 * termFix e.toInt w : ℚ) ≤ e.toInt * w + 8 := by exact_mod_cast hlow
  have hhighQ : (e.toInt * w + 8 : ℚ) < 16 * termFix e.toInt w + 16 := by exact_mod_cast hhigh
  have hnear : |fixValue f (termFix e.toInt w) - fixValue f e.toInt * w / 16| ≤ 1 / 512 := by
    have hval : fixValue f (termFix e.toInt w) - fixValue f e.toInt * w / 16
        = (16 * termFix e.toInt w - e.toInt * w) / (16 * 2 ^ f) := by
      rw [fixValue, fixValue]
      field_simp
    rw [hval, abs_le, le_div_iff₀ (by positivity), div_le_iff₀ (by positivity)]
    constructor <;> linarith
  rwa [fixArith, fixValue_ofInt hf]
  rw [abs_le] at h hnear ⊢
  constructor <;> linarith

theorem fixValue_luma (p : Pixel) :
    0 ≤ fixValue f ((fixArith f).luma p).toInt ∧ fixValue f ((fixArith f).luma p).toInt ≤ 255 := by
  have hpos : (0 : ℚ) < 2 ^ f := by positivity
  have hle : (lumaFix f p : ℚ) ≤ 255 * 2 ^ f := by exact_mod_cast (lumaFixIsNearest f p).2.1
  have hval : fixValue f (lumaFix f p : Nat) ≤ 255 := by
    rw [fixValue, div_le_iff₀ hpos]
    exact_mod_cast hle
  have h0 : 0 ≤ fixValue f (lumaFix f p : Nat) := by
    rw [fixValue]
    positivity
  have hword : (fixArith f).luma p = BitVec.ofInt 64 (lumaFix f p : Nat) := (BitVec.ofInt_natCast 64 _).symm
  rw [hword, fixValue_ofInt hf (by rw [abs_of_nonneg h0]; linarith)]
  exact ⟨h0, hval⟩

end

/-! ### FP64 -/

section
variable {v : NumWord} (hv : F64.isNumeric v = true)
include hv

theorem fp64_err_near {q : Int} (h : |fp64Value v| ≤ 1000) (hq : |q| ≤ 1000) :
    F64.isNumeric (fp64Arith.err v q) = true ∧ |fp64Value (fp64Arith.err v q) - (fp64Value v - q)| ≤ 1 / 512 := by
  obtain ⟨hnum, hval⟩ := F64.ofInt_exact q (hq.trans (by norm_num))
  have hqQ : |(q : ℚ)| ≤ 1000 := by exact_mod_cast hq
  have hsub := F64.sub_near hv hnum (by rw [hval]; exact (abs_sub _ _).trans (by linarith))
  rw [hval] at hsub
  exact ⟨hsub.1, hsub.2.trans (by norm_num)⟩

theorem fp64_term_near {w : Nat} (h : |fp64Value v| ≤ 1000) (hw : w ≤ 16) :
    F64.isNumeric (F64.mul v (F64.ofInt w)) = true ∧ F64.isNumeric (fp64Arith.term v w) = true
      ∧ |fp64Value (fp64Arith.term v w) - fp64Value v * w / 16| ≤ 1 / 512 := by
  obtain ⟨hnum, hval⟩ := F64.ofInt_exact w (by rw [Nat.abs_cast]; omega)
  obtain ⟨h16, hval16⟩ := F64.ofInt_exact 16 (by norm_num)
  rw [Int.cast_natCast] at hval
  have hwQ : |(w : ℚ)| ≤ 16 := by rw [Nat.abs_cast]; exact_mod_cast hw
  have hprod := abs_mul_le_of_le h hwQ
  obtain ⟨hmul, hround⟩ := F64.mul_near hv hnum (by rw [hval]; linarith)
  rw [hval, abs_le] at hround
  rw [abs_le] at hprod
  obtain ⟨hdiv, hround16⟩ := F64.div_near hmul h16 (by rw [hval16]; norm_num)
    (by rw [hval16, abs_le]; push_cast; constructor <;> linarith)
  rw [hval16, abs_le] at hround16
  push_cast at hround16
  refine ⟨hmul, hdiv, ?_⟩
  rw [fp64Arith, abs_le]
  constructor <;> linarith

end

/-! ### The configured mode -/

section
variable {c : Config} (hc : c.legal = true)
include hc

/-- The luma is in [0, 255] (rule R134). -/
theorem arithOf_luma_bounds (p : Pixel) : isNumericWord c ((arithOf c).luma p) = true
    ∧ 0 ≤ numericValue c ((arithOf c).luma p) ∧ numericValue c ((arithOf c).luma p) ≤ 255 := by
  cases hfmt : c.numFmt with
  | fix =>
    simp only [numericValue_fix _ hfmt, isNumericWord_fix _ hfmt, arithOf_fix hfmt, true_and]
    exact fixValue_luma ((Config.legal_iff.1 hc).1 hfmt).2 p
  | fp64 =>
    simp only [numericValue_fp64 _ hfmt, isNumericWord_fp64 _ hfmt, arithOf_fp64 hfmt]
    obtain ⟨hnum, h0, hle, -⟩ := lumaF64InRange.1 p
    exact ⟨hnum, h0, hle⟩

variable {v t : NumWord} (hv : isNumericWord c v = true) (h : |numericValue c v| ≤ 1000)
include hv h

theorem arithOf_err_near {q : Int} (hq : |q| ≤ 1000) : isNumericWord c ((arithOf c).err v q) = true
    ∧ |numericValue c ((arithOf c).err v q) - (numericValue c v - q)| ≤ 1 / 512 := by
  have hqQ : |(q : ℚ)| ≤ 1000 := by exact_mod_cast hq
  have hdiff := (abs_sub (numericValue c v) q).trans (add_le_add h hqQ)
  cases hfmt : c.numFmt with
  | fix =>
    simp only [numericValue_fix _ hfmt, isNumericWord_fix _ hfmt, arithOf_fix hfmt, true_and] at hdiff ⊢
    rw [fixValue_err ((Config.legal_iff.1 hc).1 hfmt).2 (hdiff.trans (by norm_num)), sub_self]
    norm_num
  | fp64 =>
    simp only [numericValue_fp64 _ hfmt, isNumericWord_fp64 _ hfmt, arithOf_fp64 hfmt] at hv h ⊢
    exact fp64_err_near hv h hq

theorem arithOf_term_near {w : Nat} (hw : w ≤ 16) : isNumericWord c ((arithOf c).term v w) = true
    ∧ |numericValue c ((arithOf c).term v w) - numericValue c v * w / 16| ≤ 1 / 512 := by
  have hwQ : |(w : ℚ)| ≤ 16 := by rw [Nat.abs_cast]; exact_mod_cast hw
  have hprod := abs_mul_le_of_le h hwQ
  cases hfmt : c.numFmt with
  | fix =>
    obtain ⟨hf8, hf⟩ := (Config.legal_iff.1 hc).1 hfmt
    simp only [numericValue_fix _ hfmt, isNumericWord_fix _ hfmt, arithOf_fix hfmt, true_and] at hprod ⊢
    exact fixValue_term_near hf hf8 (hprod.trans (by norm_num))
  | fp64 =>
    simp only [numericValue_fp64 _ hfmt, isNumericWord_fp64 _ hfmt, arithOf_fp64 hfmt] at hv h ⊢
    exact (fp64_term_near hv h hw).2

theorem arithOf_add_near (ht : isNumericWord c t = true) (ht1000 : |numericValue c t| ≤ 1000) :
    isNumericWord c ((arithOf c).add v t) = true
      ∧ |numericValue c ((arithOf c).add v t) - (numericValue c v + numericValue c t)| ≤ 1 / 512 := by
  have hsum := (abs_add_le (numericValue c v) (numericValue c t)).trans (add_le_add h ht1000)
  cases hfmt : c.numFmt with
  | fix =>
    simp only [numericValue_fix _ hfmt, isNumericWord_fix _ hfmt, arithOf_fix hfmt, true_and] at hsum ⊢
    rw [fixValue_add ((Config.legal_iff.1 hc).1 hfmt).2 (hsum.trans (by norm_num)), sub_self]
    norm_num
  | fp64 =>
    simp only [numericValue_fp64 _ hfmt, isNumericWord_fp64 _ hfmt, arithOf_fp64 hfmt] at hv ht hsum ⊢
    obtain ⟨hnum, hround⟩ := F64.add_near hv ht (hsum.trans (by norm_num))
    exact ⟨hnum, hround.trans (by norm_num)⟩

end

end Sys2Proof.Machine

/-! SUPPORT. A bound on the Error Buffer that every pass keeps, in any arithmetic (rules R163, R181): an entry is
bounded by the weight it has received, which is at most 16 sixteenths. -/

namespace Sys2Proof.Machine

/-! ### The weight an entry has received -/

/-- The sixteenths that entry j can have received from the pixels before index i: those of the targets whose source, by
index alone, is one of them (rules R181, R188). -/
def receivedWeight (w i j : Nat) : Nat :=
  (diffusionTargets.map fun t => if (j : Int) - (t.2.1 * w + t.1) < i then t.2.2 else 0).sum

/-- The sixteenths that pixel (x, y) diffuses to entry j over some targets (rule R181). -/
def weightTo (w h x y j : Nat) (ts : List (Int × Int × Nat)) : Nat :=
  (ts.map fun t => if targetIndex w h (x + t.1) (y + t.2.1) = some j then t.2.2 else 0).sum

theorem receivedWeight_le (w i j : Nat) : receivedWeight w i j ≤ 16 :=
  calc receivedWeight w i j ≤ (diffusionTargets.map fun t => t.2.2).sum :=
        List.sum_le_sum fun t _ => by split <;> omega
    _ = 16 := rfl

/-- A pixel's diffusion is counted when the scan passes it. -/
theorem receivedWeight_add_weightTo_le (w h x y j : Nat) :
    receivedWeight w (y * w + x) j + weightTo w h x y j diffusionTargets ≤ receivedWeight w (y * w + x + 1) j := by
  rw [receivedWeight, weightTo, ← List.sum_map_add]
  refine List.sum_le_sum fun t _ => ?_
  by_cases hit : targetIndex w h (x + t.1) (y + t.2.1) = some j
  · obtain ⟨x', y', hx, hy, -, -, rfl⟩ := targetIndex_eq_some.1 hit
    have hsource : ((y' * w + x' : Nat) : Int) - (t.2.1 * w + t.1) = (y * w + x : Nat) := by
      push_cast
      rw [← hx, ← hy]
      ring
    rw [hsource, if_neg (by omega), if_pos hit, if_pos (by omega), Nat.zero_add]
  · rw [if_neg hit, Nat.add_zero]
    split <;> split <;> omega

/-! ### The bound along the scan -/

variable {α : Type} {A : Arith α} {bits : Nat} {Near : Nat → Nat → α → Prop} {Small : α → Prop}

/-- What a bound on the entries has to be for the scan to keep it: `Near j n v` says that v is within what n sixteenths
of diffused error can do to entry j, and `Small e` that e is within the error of one pixel. -/
structure DiffusionBound (A : Arith α) (bits : Nat) (Near : Nat → Nat → α → Prop) (Small : α → Prop) : Prop where
  mono {j n m : Nat} {v : α} : Near j n v → n ≤ m → Near j m v
  err {j : Nat} {v : α} : Near j 16 v → Small (A.err v (A.quant v bits))
  receive {j n w : Nat} {v e : α} : Near j n v → Small e → 0 < w → n + w ≤ 16 → Near j (n + w) (A.add v (A.term e w))

namespace DiffusionBound

variable (hB : DiffusionBound A bits Near Small) {w h x y : Nat} {e : α}
include hB

/-- One target after the other, each adds its weight to its entry. -/
theorem foldl_diffuseTo_near (he : Small e) {ts : List (Int × Int × Nat)} (hts : ∀ t ∈ ts, 0 < t.2.2) {eb : List α}
    {bound : Nat → Nat} (h16 : ∀ j, bound j + weightTo w h x y j ts ≤ 16)
    (heb : ∀ (j : Nat) (v : α), eb[j]? = some v → Near j (bound j) v) :
    ∀ (j : Nat) (v : α), (ts.foldl (diffuseTo A w h x y e) eb)[j]? = some v →
      Near j (bound j + weightTo w h x y j ts) v := by
  induction ts generalizing eb bound with
  | nil => exact heb
  | cons t ts ih =>
    have hsplit (j : Nat) : weightTo w h x y j (t :: ts) = weightTo w h x y j [t] + weightTo w h x y j ts := by
      simp [weightTo]
    simp only [hsplit, ← Nat.add_assoc] at h16 ⊢
    refine ih (fun u hu => hts u (List.mem_cons_of_mem t hu)) h16 fun j v hv => ?_
    rw [getElem?_diffuseTo] at hv
    by_cases hit : targetIndex w h (x + t.1) (y + t.2.1) = some j
    · have hone : weightTo w h x y j [t] = t.2.2 := by simp [weightTo, hit]
      have := h16 j
      rw [if_pos hit, Option.map_eq_some_iff] at hv
      obtain ⟨old, hold, rfl⟩ := hv
      rw [hone] at this ⊢
      exact hB.receive (heb j old hold) he (hts t List.mem_cons_self) (by omega)
    · have hnone : weightTo w h x y j [t] = 0 := by simp [weightTo, hit]
      rw [if_neg hit] at hv
      rw [hnone]
      exact heb j v hv

/-- The diffusion of a pixel's error keeps the bound for the next index. -/
theorem diffuse_near (he : Small e) {eb : List α}
    (heb : ∀ (j : Nat) (v : α), eb[j]? = some v → Near j (receivedWeight w (y * w + x) j) v) :
    ∀ (j : Nat) (v : α), (diffuse A w h x y e eb)[j]? = some v → Near j (receivedWeight w (y * w + x + 1) j) v := by
  intro j v hv
  have hle (j : Nat) := receivedWeight_add_weightTo_le w h x y j
  have h16 (j : Nat) := (hle j).trans (receivedWeight_le w (y * w + x + 1) j)
  exact hB.mono (hB.foldl_diffuseTo_near he (by decide) h16 heb j v hv) (hle j)

/-- Over n pixels from index i the scan gives a level for each, of an entry within its bound, and leaves every entry
within its bound. -/
theorem scan_near (n i : Nat) {eb : List α} (hn : i + n ≤ w * h) (hlen : eb.length = w * h)
    (heb : ∀ (j : Nat) (v : α), eb[j]? = some v → Near j (receivedWeight w i j) v) :
    ∃ levels eb', scanLoop A w h bits n i eb = some levels ∧ scanBuffer A w h bits n i eb = some eb'
      ∧ levels.length = n ∧ eb'.length = w * h
      ∧ (∀ (m : Nat) (q : Int), levels[m]? = some q → ∃ v, Near (i + m) 16 v ∧ q = A.quant v bits)
      ∧ ∀ (j : Nat) (v : α), eb'[j]? = some v → Near j (receivedWeight w (i + n) j) v := by
  induction n generalizing i eb with
  | zero => exact ⟨[], eb, rfl, rfl, rfl, hlen, fun m q hq => by simp at hq, heb⟩
  | succ n ih =>
    obtain ⟨-, -, hi⟩ := mod_div_bounds (w := w) (h := h) (i := i) (by omega)
    obtain ⟨old, hold⟩ : ∃ old, eb[i]? = some old := ⟨_, List.getElem?_eq_getElem (by omega)⟩
    have hnear : Near i 16 old := hB.mono (heb i old hold) (receivedWeight_le w i i)
    have hpixel := (scanPixel_eq_some A (w := w) (h := h) (bits := bits) (x := i % w) (y := i / w)).2
      ⟨old, hi.symm ▸ hold, rfl, rfl⟩
    have hnext := hB.diffuse_near (h := h) (x := i % w) (y := i / w) (hB.err hnear) (hi.symm ▸ heb)
    rw [hi] at hnext
    obtain ⟨levels, eb', hloop, hbuf, hlevels, hlen', hq, heb'⟩ := ih (i + 1) (by omega)
      ((diffuse_length A ..).trans hlen) hnext
    refine ⟨A.quant old bits :: levels, eb', ?_, ?_, by rw [List.length_cons, hlevels], hlen', ?_, ?_⟩
    · rw [scanLoop_succ A hpixel, hloop, Option.map_some]
    · rw [scanBuffer, hpixel]
      exact hbuf
    · rintro (_ | m) q hm
      · exact ⟨old, hnear, (Option.some.inj hm).symm⟩
      · rw [← Nat.add_assoc, Nat.add_right_comm]
        exact hq m q hm
    · rw [← Nat.add_assoc, Nat.add_right_comm]
      exact heb'

end DiffusionBound

end Sys2Proof.Machine

/-! SUPPORT. The values of a pass in both hardware modes (rule R163): a pixel's error is at most half a step and half a
unit, and no pixel receives more than 16 sixteenths of such errors. -/

namespace Sys2Proof.Machine

/-! ### The bounds -/

/-- The bound on a pixel's error: half a step and half a unit, from the two roundings of the quantizer, and the slack of
the hardware modes' own roundings (rule R163). -/
def errorBound (bits : Nat) : ℚ := 511 / (4 * steps bits) + 257 / 512

/-- The bound on what one sixteenth of such an error does to an entry, with the slack of a term and of its addition. -/
def sixteenthBound (bits : Nat) : ℚ := errorBound bits / 16 + 1 / 256

/-- The word is numeric, and within what n sixteenths of diffused error do to a luma in [0, 255]. -/
structure InPassRange (c : Config) (bits n : Nat) (v : NumWord) : Prop where
  numeric : isNumericWord c v = true
  low : -(n * sixteenthBound bits) ≤ numericValue c v
  high : numericValue c v ≤ 255 + n * sixteenthBound bits

/-- The word is numeric and within the bound of a pixel's error. -/
def IsPixelError (c : Config) (bits : Nat) (e : NumWord) : Prop :=
  isNumericWord c e = true ∧ |numericValue c e| ≤ errorBound bits

variable {c : Config} {bits : Nat} (h : 1 ≤ bits) (h8 : bits ≤ 8)

section
include h

theorem steps_mul_errorBound : steps bits * errorBound bits = 511 / 4 + 257 / 512 * steps bits := by
  have hL : (0 : ℚ) < steps bits := Nat.cast_pos.2 (steps_pos h)
  rw [errorBound]
  field_simp

theorem errorBound_bounds : 0 ≤ errorBound bits ∧ errorBound bits ≤ 129 := by
  have hL : (1 : ℚ) ≤ steps bits := Nat.one_le_cast.2 (steps_pos h)
  have hdiv : 511 / (4 * steps bits : ℚ) ≤ 511 / 4 :=
    div_le_div_of_nonneg_left (by norm_num) (by norm_num) (by linarith)
  rw [errorBound]
  constructor
  · positivity
  · linarith

theorem IsPixelError.abs_value_le {e : NumWord} (he : IsPixelError c bits e) : |numericValue c e| ≤ 129 :=
  he.2.trans (errorBound_bounds h).2

theorem InPassRange.mono {n m : Nat} {v : NumWord} (hv : InPassRange c bits n v) (hnm : n ≤ m) :
    InPassRange c bits m v := by
  have h0 : 0 ≤ sixteenthBound bits := by
    have := (errorBound_bounds h).1
    rw [sixteenthBound]
    positivity
  have hle : n * sixteenthBound bits ≤ m * sixteenthBound bits :=
    mul_le_mul_of_nonneg_right (Nat.cast_le.2 hnm) h0
  exact ⟨hv.numeric, by linarith [hv.low], by linarith [hv.high]⟩

theorem InPassRange.abs_value_le {n : Nat} {v : NumWord} (hv : InPassRange c bits n v) (hn : n ≤ 16) :
    |numericValue c v| ≤ 400 := by
  obtain ⟨-, hlow, hhigh⟩ := hv.mono h hn
  have hE := (errorBound_bounds h).2
  rw [sixteenthBound] at hlow hhigh
  push_cast at hlow hhigh
  rw [abs_le]
  constructor <;> linarith

/-- The levels of the indices in [−1, L + 1] (rules R163, R47). -/
theorem levelOf_bounds {idx : Int} (hidx : -1 ≤ idx ∧ idx ≤ steps bits + 1) :
    -255 ≤ levelOf idx bits ∧ levelOf idx bits ≤ 510 := by
  obtain ⟨hlow, hhigh⟩ := levelOf_near_strict idx h
  have hpos : (0 : Int) < steps bits := Int.ofNat_lt.2 (steps_pos h)
  have hbelow : -512 < 2 * levelOf idx bits := lt_of_mul_lt_mul_left (by linarith) hpos.le
  have habove : 2 * levelOf idx bits < 1022 := lt_of_mul_lt_mul_left (by linarith) hpos.le
  omega

/-- A diffused term moves an entry by at most its weight in sixteenths. -/
theorem InPassRange.receive (hc : c.legal = true) {n w : Nat} {v e : NumWord} (hv : InPassRange c bits n v)
    (he : IsPixelError c bits e) (hw : 0 < w) (hn : n + w ≤ 16) :
    InPassRange c bits (n + w) ((arithOf c).add v ((arithOf c).term e w)) := by
  have hw1 : (1 : ℚ) ≤ w := Nat.one_le_cast.2 hw
  have hw16 : (w : ℚ) ≤ 16 := by exact_mod_cast (by omega : w ≤ 16)
  have hprod : |numericValue c e * w| ≤ errorBound bits * w :=
    abs_mul_le_of_le he.2 (Nat.abs_cast w).le
  have hprod16 : |numericValue c e * w| ≤ 129 * 16 :=
    abs_mul_le_of_le (he.abs_value_le h) ((Nat.abs_cast w).le.trans hw16)
  obtain ⟨hterm, htnear⟩ := arithOf_term_near hc he.1 ((he.abs_value_le h).trans (by norm_num)) (by omega : w ≤ 16)
  rw [abs_le] at hprod hprod16 htnear
  obtain ⟨hadd, hanear⟩ := arithOf_add_near hc hv.numeric ((hv.abs_value_le h (by omega)).trans (by norm_num)) hterm
    (abs_le.2 ⟨by linarith, by linarith⟩)
  rw [abs_le] at hanear
  have hunit : (w : ℚ) * sixteenthBound bits = errorBound bits * w / 16 + w / 256 := by
    rw [sixteenthBound]
    ring
  obtain ⟨-, hlow, hhigh⟩ := hv
  refine ⟨hadd, ?_, ?_⟩ <;> rw [Nat.cast_add, add_mul, hunit] <;> linarith

end

/-! ### The index, the level and the error -/

section
include h h8

/-- Every index of a pass is in [−1, L + 1] (rule R163). -/
theorem InPassRange.indexOf_bounds {v : NumWord} (hv : InPassRange c bits 16 v) :
    -1 ≤ indexOf c v bits ∧ indexOf c v bits ≤ steps bits + 1 := by
  obtain ⟨hL, hL8⟩ := steps_cast_bounds h h8
  rw [Nat.abs_cast] at hL8
  have hnear := indexOf_near h h8 hv.numeric ((hv.abs_value_le h le_rfl).trans (by norm_num))
  have hL0 : (0 : ℚ) ≤ steps bits := by positivity
  have hlow := mul_le_mul_of_nonneg_left hv.low hL0
  have hhigh := mul_le_mul_of_nonneg_left hv.high hL0
  have hE := steps_mul_errorBound h
  rw [sixteenthBound] at hlow hhigh
  push_cast at hlow hhigh
  rw [abs_le] at hnear
  have hlowQ : (-2 : ℚ) < indexOf c v bits := by linarith
  have hhighQ : (indexOf c v bits : ℚ) < steps bits + 2 := by linarith
  have hlowZ : -2 < indexOf c v bits := by exact_mod_cast hlowQ
  have hhighZ : indexOf c v bits < steps bits + 2 := by exact_mod_cast hhighQ
  omega

theorem InPassRange.quant {v : NumWord} (hv : InPassRange c bits 16 v) :
    (arithOf c).quant v bits = levelOf (indexOf c v bits) bits :=
  arithOf_quant h h8 hv.numeric ((hv.abs_value_le h le_rfl).trans (by norm_num))

/-- A level is within half a step and half a unit of its value (rule R163). -/
theorem InPassRange.sub_quant_near {v : NumWord} (hv : InPassRange c bits 16 v) :
    |numericValue c v - (arithOf c).quant v bits| ≤ 511 / (4 * steps bits) + 1 / 2 := by
  obtain ⟨hL, -⟩ := steps_cast_bounds h h8
  have hnear := indexOf_near h h8 hv.numeric ((hv.abs_value_le h le_rfl).trans (by norm_num))
  obtain ⟨hlow, hhigh⟩ := levelOf_near (indexOf c v bits) h
  rw [← hv.quant h h8] at hlow hhigh
  have hlowQ : (2 * steps bits * (arithOf c).quant v bits : ℚ) ≤ 510 * indexOf c v bits + steps bits := by
    exact_mod_cast hlow
  have hhighQ : (510 * indexOf c v bits + steps bits : ℚ)
      < 2 * steps bits * (arithOf c).quant v bits + 2 * steps bits := by exact_mod_cast hhigh
  have hbound : (steps bits : ℚ) * (511 / (4 * steps bits) + 1 / 2) = 511 / 4 + steps bits / 2 := by
    field_simp
  rw [abs_le] at hnear ⊢
  constructor <;> refine le_of_mul_le_mul_left ?_ (by positivity : (0 : ℚ) < steps bits) <;> linarith

theorem InPassRange.err (hc : c.legal = true) {v : NumWord} (hv : InPassRange c bits 16 v) :
    IsPixelError c bits ((arithOf c).err v ((arithOf c).quant v bits)) := by
  have hlevel := levelOf_bounds h (hv.indexOf_bounds h h8)
  rw [← hv.quant h h8] at hlevel
  obtain ⟨hnum, hnear⟩ := arithOf_err_near hc hv.numeric ((hv.abs_value_le h le_rfl).trans (by norm_num))
    (abs_le.2 ⟨by linarith, by linarith⟩ : |(arithOf c).quant v bits| ≤ 1000)
  refine ⟨hnum, ?_⟩
  have hquant := hv.sub_quant_near h h8
  rw [errorBound]
  rw [abs_le] at *
  constructor <;> linarith

/-- Both hardware modes keep the bound (rule R163). -/
theorem diffusionBound (hc : c.legal = true) :
    DiffusionBound (arithOf c) bits (fun _ n v => InPassRange c bits n v) (IsPixelError c bits) where
  mono hv hnm := hv.mono h hnm
  err hv := hv.err h h8 hc
  receive hv he hw hn := hv.receive h hc he hw hn

end

theorem InPassRange.luma (hc : c.legal = true) (p : Pixel) : InPassRange c bits 0 ((arithOf c).luma p) := by
  obtain ⟨hnum, h0, hle⟩ := arithOf_luma_bounds hc p
  refine ⟨hnum, ?_, ?_⟩ <;> rw [Nat.cast_zero, zero_mul] <;> linarith

/-! ### A pass -/

/-- Over the first k pixels of an image the scan gives a level of an entry in range for each, and leaves every entry in
range. -/
theorem scan_image_inPassRange (hb : 1 ≤ bits) (hb8 : bits ≤ 8) (hc : c.legal = true) {w h k : Nat}
    {image : List Pixel} (himage : image.length = w * h) (hk : k ≤ w * h) :
    ∃ levels eb, scanLoop (arithOf c) w h bits k 0 (image.map (arithOf c).luma) = some levels
      ∧ scanBuffer (arithOf c) w h bits k 0 (image.map (arithOf c).luma) = some eb
      ∧ levels.length = k ∧ eb.length = w * h
      ∧ (∀ q ∈ levels, ∃ v, InPassRange c bits 16 v ∧ q = (arithOf c).quant v bits)
      ∧ ∀ v ∈ eb, InPassRange c bits 16 v := by
  have hluma (j : Nat) (v : NumWord) (hv : (image.map (arithOf c).luma)[j]? = some v) :
      InPassRange c bits (receivedWeight w 0 j) v := by
    rw [List.getElem?_map, Option.map_eq_some_iff] at hv
    obtain ⟨p, -, rfl⟩ := hv
    exact (InPassRange.luma hc p).mono hb (Nat.zero_le _)
  obtain ⟨levels, eb, hloop, hbuf, hlevels, hlen, hq, heb⟩ :=
    (diffusionBound hb hb8 hc).scan_near k 0 (by omega) ((List.length_map ..).trans himage) hluma
  refine ⟨levels, eb, hloop, hbuf, hlevels, hlen, fun q hmem => ?_, fun v hmem => ?_⟩
  · obtain ⟨m, hm⟩ := List.mem_iff_getElem?.1 hmem
    exact hq m q hm
  · obtain ⟨j, hj⟩ := List.mem_iff_getElem?.1 hmem
    exact (heb j v hj).mono hb (receivedWeight_le ..)

/-- The terms of a pixel's error are numeric and small (rule R187). -/
theorem IsPixelError.term (h : 1 ≤ bits) (hc : c.legal = true) {e : NumWord} (he : IsPixelError c bits e) {w : Nat}
    (hw : w ≤ 16) : isNumericWord c ((arithOf c).term e w) = true ∧ |numericValue c ((arithOf c).term e w)| ≤ 400 := by
  have hw16 : (w : ℚ) ≤ 16 := by exact_mod_cast hw
  have hprod := abs_mul_le_of_le (he.abs_value_le h) ((Nat.abs_cast w).le.trans hw16)
  obtain ⟨hterm, hnear⟩ := arithOf_term_near hc he.1 ((he.abs_value_le h).trans (by norm_num)) hw
  refine ⟨hterm, ?_⟩
  rw [abs_le] at *
  constructor <;> linarith

/-- In FP64 the intermediate values of the quantizer and of the terms are numeric (rules R155, R187). -/
theorem InPassRange.fp64_numeric (h : 1 ≤ bits) (h8 : bits ≤ 8) (hfmt : c.numFmt = .fp64) {v e : NumWord}
    (hv : InPassRange c bits 16 v) (he : IsPixelError c bits e) :
    F64.isNumeric (F64.div v (scaleF64 bits)) = true
      ∧ F64.isNumeric (F64.mul (F64.ofInt (indexF64 v bits)) (scaleF64 bits)) = true
      ∧ ∀ w : Nat, w ≤ 16 → F64.isNumeric (F64.mul e (F64.ofInt w)) = true := by
  have hidx := hv.indexOf_bounds h h8
  have hnum := hv.numeric
  have habs := hv.abs_value_le h le_rfl
  have hnumE := he.1
  have habsE := he.abs_value_le h
  have hL := steps_le h8
  rw [indexOf_fp64 v hfmt] at hidx
  rw [isNumericWord_fp64 _ hfmt] at hnum hnumE
  rw [numericValue_fp64 _ hfmt] at habs habsE
  exact ⟨(F64.indexF64_near h h8 hnum (habs.trans (by norm_num))).1,
    (F64.mul_scaleF64_near h h8 (abs_le.2 (by omega))).1,
    fun w hw => (fp64_term_near hnumE (habsE.trans (by norm_num)) hw).1⟩

end Sys2Proof.Machine

section
open Sys2Proof Sys2Proof.Machine

/-- Settles O58: every entry of the scan is in range, and what rule R163 says of an entry in range holds of its index,
its level, its error and its terms. -/
theorem passLevelsAndValuesInRange : Obligations.PassLevelsAndValuesInRange := by
  intro c w h bits image hc hb hb8 himage
  refine ⟨?_, fun k hk => ?_⟩
  · obtain ⟨levels, -, hloop, -, hlevels, -, hq, -⟩ := scan_image_inPassRange hb hb8 hc himage le_rfl
    refine ⟨levels, hloop, hlevels, fun q hmem => ?_⟩
    obtain ⟨v, hv, rfl⟩ := hq q hmem
    have hidx := hv.indexOf_bounds hb hb8
    obtain ⟨hlow, hhigh⟩ := levelOf_bounds hb hidx
    rw [hv.quant hb hb8]
    exact ⟨⟨_, hidx.1, hidx.2, rfl⟩, hlow, hhigh, BitVec.toInt_ofInt_eq_self (by decide) (by omega) (by omega)⟩
  · obtain ⟨-, eb, -, hbuf, -, hlen, -, heb⟩ := scan_image_inPassRange hb hb8 hc himage hk
    refine ⟨eb, hbuf, hlen, fun v hmem => ⟨(heb v hmem).numeric, (heb v hmem).abs_value_le hb le_rfl⟩, ?_⟩
    rintro old _ _ - hold rfl rfl
    have hv := heb old (List.mem_of_getElem? hold)
    have he := hv.err hb hb8 hc
    have hweight : ∀ wgt ∈ [7, 3, 5, 1], wgt ≤ 16 := by decide
    obtain ⟨hlow, hhigh⟩ := hv.indexOf_bounds hb hb8
    refine ⟨hlow, hhigh, he.1, (he.abs_value_le hb).trans (by norm_num),
      fun wgt hmem => he.term hb hc (hweight wgt hmem), ?_⟩
    intro hfmt
    obtain ⟨hdiv, hmul, hterms⟩ := hv.fp64_numeric hb hb8 hfmt he
    exact ⟨hdiv, hmul, fun wgt hmem => hterms wgt (hweight wgt hmem)⟩

end

/-! SUPPORT. What the pass in progress ends with, as a function of the state (rules R176 to R189): no step of the engine
and no host access changes it, so it depends only on what the pass began with. -/

namespace Sys2Proof.Machine

/-! ### The end of a pass -/

/-- The Error Buffer that phase 1, in progress, ends with (rule R177). -/
def State.filledEb (s : State) : List NumWord :=
  s.eb ++ (List.range' s.cursor (s.pixels - s.cursor)).map fun i => (arithOf s.cfg).luma (s.pm.pixel (s.srcPixel i))

/-- The buffer QB that phase 2 of the pass in progress ends with (rules R47, R178). -/
def State.finalQb (s : State) : Option (List QbEntry) :=
  match s.phase with
  | .idle => none
  | .init =>
    (scanLoop (arithOf s.cfg) s.W s.H s.depth s.pixels 0 s.filledEb).map fun levels => levels.map (BitVec.ofInt 16)
  | .scan =>
    (scanLoop (arithOf s.cfg) s.W s.H s.depth (s.pixels - (s.scanY.toNat * s.W + s.scanX.toNat))
      (s.scanY.toNat * s.W + s.scanX.toNat) s.eb).map fun levels => s.qb ++ levels.map (BitVec.ofInt 16)
  | .mat => some s.qb

/-- How many output pixels the pass in progress has written (rule R184). -/
def State.written (s : State) : Nat :=
  match s.phase with
  | .mat => s.cursor
  | .idle | .init | .scan => 0

/-- QB, the saturation record and pixel memory as the pass in progress leaves them to its completion step
(rules R184 to R186). -/
def State.passEnd (s : State) : Option (List QbEntry × Bool × Memory) :=
  s.finalQb.map fun qb =>
    (qb, s.saturated || (qb.drop s.written).any fun q => outOfRange (qbLevel q),
      s.pm.putLevels (s.dstPixel s.written) ((qb.drop s.written).map BitVec.toInt))

variable {s t u : State}

theorem State.finalQb_init (hp : s.phase = .init) : s.finalQb =
    (scanLoop (arithOf s.cfg) s.W s.H s.depth s.pixels 0 s.filledEb).map fun levels =>
      levels.map (BitVec.ofInt 16) := by
  rw [finalQb, hp]

theorem State.finalQb_scan (hp : s.phase = .scan) {i : Nat} (hi : s.scanY.toNat * s.W + s.scanX.toNat = i) :
    s.finalQb = (scanLoop (arithOf s.cfg) s.W s.H s.depth (s.pixels - i) i s.eb).map fun levels =>
      s.qb ++ levels.map (BitVec.ofInt 16) := by
  rw [finalQb, hp]
  subst hi
  rfl

theorem State.finalQb_mat (hp : s.phase = .mat) : s.finalQb = some s.qb := by
  rw [finalQb, hp]

theorem State.written_mat (hp : s.phase = .mat) : s.written = s.cursor := by
  rw [written, hp]

theorem State.written_eq_zero (hp : s.phase ≠ .mat) : s.written = 0 := by
  unfold written
  split
  · exact absurd ‹_› hp
  all_goals rfl

theorem State.passEnd_of_passView (hv : u.passView = s.passView) : u.passEnd = s.passEnd := by
  rw [← State.withPass_eq_self hv]
  rfl

/-- Before phase 3 writes its first pixel, the end of the pass depends on the state through QB's end and what phase 3
starts from. -/
theorem State.passEnd_congr (hqb : t.finalQb = s.finalQb) (hs : s.written = 0) (ht : t.written = 0)
    (hsat : t.saturated = s.saturated) (hpm : t.pm = s.pm) (hdst : t.dstBase = s.dstBase) : t.passEnd = s.passEnd := by
  simp only [passEnd, dstPixel, hqb, hs, ht, hsat, hpm, hdst]

/-! ### The end of the pass is kept, step by step -/

/-- Phase 1 fills the Error Buffer as foreseen (rule R177). -/
theorem State.filledEb_appendEb (hc : s.cursor < s.pixels) : s.filledEb =
    s.eb ++ [(arithOf s.cfg).luma (s.pm.pixel (s.srcPixel s.cursor))]
      ++ (List.range' (s.cursor + 1) (s.pixels - (s.cursor + 1))).map fun i =>
        (arithOf s.cfg).luma (s.pm.pixel (s.srcPixel i)) := by
  obtain ⟨n, hn⟩ : ∃ n, s.pixels - s.cursor = n + 1 := ⟨s.pixels - s.cursor - 1, by omega⟩
  rw [filledEb, hn, List.range'_succ, List.map_cons, List.append_assoc, List.singleton_append,
    show s.pixels - (s.cursor + 1) = n by omega]

theorem passEnd_engineInit (hi : s.Inv) (hp : s.phase = .init) (h : engineStep s = .next t) :
    t.passEnd = s.passEnd := by
  obtain ⟨ha, hc, -, hqb⟩ := (State.passInv_init hp).1 hi.pass
  rw [engineStep_init hp (accept_src ha hc)] at h
  have hw := State.written_eq_zero (s := s) (by simp [hp])
  have hfill := State.filledEb_appendEb hc
  generalize (arithOf s.cfg).luma (s.pm.pixel (s.srcPixel s.cursor)) = w at h hfill
  split at h <;> cases h
  · have hp' : (s.appendEb w).nextIndex.phase = .init := hp
    refine State.passEnd_congr ?_ hw (State.written_eq_zero (by simp [hp])) rfl rfl rfl
    rw [State.finalQb_init hp, State.finalQb_init hp', hfill]
    rfl
  · refine State.passEnd_congr ?_ hw rfl rfl rfl rfl
    rw [State.finalQb_init hp, State.finalQb_scan (i := 0) rfl (by simp), hfill,
      show s.pixels - (s.cursor + 1) = 0 by omega]
    simp [hqb]

theorem passEnd_engineScan (hi : s.Inv) (hp : s.phase = .scan) (h : engineStep s = .next t) :
    t.passEnd = s.passEnd := by
  obtain ⟨-, hx, hy, heb, -⟩ := (State.passInv_scan hp).1 hi.pass
  obtain ⟨new, eb, hs, -⟩ := scanPixel_some (arithOf s.cfg) s.depth ((index_lt hx hy).trans_eq heb.symm)
  have hw := State.written_eq_zero (s := s) (by simp [hp])
  rw [engineStep_scan hp hs] at h
  -- QB's end, with this pixel's level taken out of the loop
  have hlt : s.scanY.toNat * s.W + s.scanX.toNat < s.pixels := index_lt hx hy
  have hqb := State.finalQb_scan hp rfl
  obtain ⟨n, hn⟩ : ∃ n, s.pixels - (s.scanY.toNat * s.W + s.scanX.toNat) = n + 1 :=
    ⟨s.pixels - (s.scanY.toNat * s.W + s.scanX.toNat) - 1, by omega⟩
  rw [hn, scanLoop_succ _ (by rw [index_mod _ hx, index_div _ hx]; exact hs), Option.map_map] at hqb
  cases hnext : nextPos s.W s.H s.scanX.toNat s.scanY.toNat with
  | some pos =>
    obtain ⟨x, y⟩ := pos
    simp only [hnext] at h
    cases h
    have hp' : ((s.finalize new eb).moveScanner x y).phase = .scan := hp
    refine State.passEnd_congr ?_ hw (State.written_eq_zero (by simp [hp])) rfl rfl rfl
    rw [hqb, State.finalQb_scan hp' (hi.nextPos_toNat hp hnext).2.2]
    simp [Function.comp_def, show s.pixels - (s.scanY.toNat * s.W + s.scanX.toNat + 1) = n by omega]
  | none =>
    simp only [hnext] at h
    cases h
    have hlast : _ = s.pixels := last_of_nextPos_none hx hy hnext
    refine State.passEnd_congr ?_ hw rfl rfl rfl rfl
    rw [hqb, show n = 0 by omega, State.finalQb_mat rfl]
    rfl

theorem passEnd_engineMat (hi : s.Inv) (hp : s.phase = .mat) (hc : s.cursor < s.pixels) (h : engineStep s = .next t) :
    t.passEnd = s.passEnd := by
  obtain ⟨ha, -, hqb⟩ := (State.passInv_mat hp).1 hi.pass
  have hlt : s.cursor < s.qb.length := hqb ▸ hc
  have hq : s.qb[s.cursor]? = some s.qb[s.cursor] := List.getElem?_eq_getElem hlt
  rw [engineStep_mat hp hc hq (accept_dst ha hc)] at h
  generalize hq' : s.qb[s.cursor] = q at h
  cases h
  rw [State.passEnd, State.passEnd, State.finalQb_mat hp, State.finalQb_mat (by simpa using hp), State.written_mat hp,
    State.written_mat (by simpa using hp), Option.map_some, Option.map_some, List.drop_eq_getElem_cons hlt, hq']
  simp [Memory.putLevels, Bool.or_assoc, State.dstPixel, Nat.mul_add, Nat.add_assoc]

/-- No engine step but the completion step changes what the pass ends with. -/
theorem passEnd_engineStep (hi : s.Inv) (ht : t.busy = true) (h : engineStep s = .next t) : t.passEnd = s.passEnd := by
  cases hp : s.phase with
  | idle =>
    rw [engineStep_idle hp] at h
    cases h
    rfl
  | init => exact passEnd_engineInit hi hp h
  | scan => exact passEnd_engineScan hi hp h
  | mat =>
    by_cases hc : s.cursor < s.pixels
    · exact passEnd_engineMat hi hp hc h
    · rw [engineStep_done hp (Nat.not_lt.1 hc)] at h
      cases h
      cases ht

/-- While the pass goes on, no turn changes what it ends with (rules R189, R283). -/
theorem passEnd_step (hi : s.Inv) (hb : s.busy = true) (h : step s = .next t) (ht : t.busy = true) :
    t.passEnd = s.passEnd := by
  rcases hin : s.inputs with _ | ⟨a | _ | _, rest⟩
  case nil => exact passEnd_engineStep hi ht ((step_silent hin).symm.trans h)
  case cons.host =>
    obtain ⟨t', hst, hv, -⟩ := step_host_busy hb hin
    cases hst.symm.trans h
    exact State.passEnd_of_passView hv
  case cons.engine =>
    rw [step_engine hin] at h
    exact passEnd_engineStep (s := s.withInputs rest) (hi.withInputs rest) ht h
  case cons.reset =>
    cases (step_reset hin).symm.trans h
    cases ht

/-- With the host silent, RANGE waits for the completion step (rule R186). -/
theorem step_silent_busy (hin : s.inputs = []) (h : step s = .next t) (ht : t.busy = true) :
    t.inputs = [] ∧ t.range = s.range := by
  rw [step_silent hin] at h
  obtain ⟨-, ⟨hr, -⟩ | ⟨hp, hc, -⟩⟩ := engineStep_flags h
  · exact ⟨(engineStep_inputs h).trans hin, hr⟩
  · cases (engineStep_done hp hc).symm.trans h
    cases ht

/-! ### The run of a pass up to its completion step -/

theorem run_one (s : State) : Host.Core.run core 1 s = step s := by
  simp only [Host.Core.run]
  change _ = core.step s
  cases core.step s <;> rfl

/-- What every turn of a pass in progress keeps, a run that stays busy keeps. -/
theorem run_busy_induction {P : State → Prop}
    (hstep : ∀ v w, P v → v.busy = true → step v = .next w → w.busy = true → P w) {k : Nat} {s u : State} (hs : P s)
    (hbusy : ∀ j, j ≤ k → ∃ v, Host.Core.run core j s = .next v ∧ v.busy = true)
    (hrun : Host.Core.run core k s = .next u) : P u ∧ u.busy = true := by
  induction k generalizing s with
  | zero =>
    obtain ⟨v, hv, hb⟩ := hbusy 0 le_rfl
    cases hv
    cases hrun
    exact ⟨hs, hb⟩
  | succ k ih =>
    obtain ⟨_, ⟨⟩, hb⟩ := hbusy 0 (Nat.zero_le _)
    obtain ⟨t, hst, hbt⟩ := hbusy 1 (by omega)
    rw [run_one] at hst
    exact ih (hstep s t hs hb hst hbt) (fun j hj => run_succ hst ▸ hbusy (j + 1) (by omega)) (run_succ hst ▸ hrun)

/-- The step that ends a pass with DONE = 1 is its completion step (rules R37, R186). -/
theorem step_completes (hb : s.busy = true) (h : step s = .next t) (ht : t.busy = false) (hd : t.done = true) :
    s.phase = .mat ∧ s.pixels ≤ s.cursor ∧ ∃ rest, t = (s.withInputs rest).completePass := by
  rcases step_busy h with hsame | ⟨-, rest, hin⟩ | ⟨-, -, hturn, hp, hc⟩ | ⟨hbt, -⟩
  · simp [hsame, hb] at ht
  · cases (step_reset hin).symm.trans h
    cases hd
  · refine ⟨hp, hc, ?_⟩
    rcases hturn with hin | ⟨rest, hin⟩
    · cases ((step_silent hin).trans (engineStep_done hp hc)).symm.trans h
      exact ⟨[], by rw [← hin]; rfl⟩
    · cases ((step_engine hin).trans (engineStep_done (s := s.withInputs rest) hp hc)).symm.trans h
      exact ⟨rest, rfl⟩
  · simp [hbt] at ht

/-- What the pass ends with, seen from its completion step. -/
theorem State.passEnd_complete (hi : s.Inv) (hp : s.phase = .mat) (hc : s.pixels ≤ s.cursor) :
    s.passEnd = some (s.qb, s.saturated, s.pm) := by
  obtain ⟨-, -, hqb⟩ := (passInv_mat hp).1 hi.pass
  have hdrop : s.qb.drop s.written = [] := by
    rw [written_mat hp]
    exact List.drop_eq_nil_of_le (hqb.trans_le hc)
  rw [passEnd, finalQb_mat hp, Option.map_some, hdrop]
  simp [Memory.putLevels]

/-- What the pass ends with, seen from its start: the levels of the three loops and their pixels. -/
theorem State.passEnd_start (hi : s.Inv) (hp : s.phase = .init) (hc : s.cursor = 0) (hsat : s.saturated = false) :
    s.passEnd = s.passLevels.map fun levels =>
      let qb := levels.map (BitVec.ofInt 16)
      (qb, qb.any fun q => outOfRange (qbLevel q), s.pm.putLevels s.dstBase.toNat (qb.map BitVec.toInt)) := by
  obtain ⟨-, -, heb, -⟩ := (passInv_init hp).1 hi.pass
  have hfill : s.filledEb = s.inputImage.map (arithOf s.cfg).luma := by
    rw [filledEb, List.eq_nil_of_length_eq_zero (heb.trans hc), List.nil_append, map_luma_inputImage, hc, Nat.sub_zero]
  rw [passEnd, finalQb_init hp, hfill, Option.map_map, written_eq_zero (by simp [hp]), hsat]
  rfl

/-- Every image has its levels, one for each pixel (rule R178). -/
theorem State.passLevels_some (s : State) : ∃ levels, s.passLevels = some levels ∧ levels.length = s.pixels :=
  scanLoop_some (arithOf s.cfg) s.W s.H s.depth s.pixels 0 _ (by simp [inputImage, Memory.image, pixels])
    (Nat.zero_add _).le

/-- The result of a pass, followed from its start to the step that ends it with DONE = 1, whatever turns its host puts
in between (rules R184 to R186). -/
theorem pass_result {k : Nat} (hi : s.Inv) (hp : s.phase = .init) (hc : s.cursor = 0) (hsat : s.saturated = false)
    (hbusy : ∀ j, j ≤ k → ∃ v, Host.Core.run core j s = .next v ∧ v.busy = true)
    (hrun : Host.Core.run core k s = .next u) (h : step u = .next t) (ht : t.busy = false) (hd : t.done = true) :
    ∃ levels, s.passLevels = some levels ∧ u.qb = levels.map (BitVec.ofInt 16)
      ∧ (u.saturated = u.qb.any fun q => outOfRange (qbLevel q))
      ∧ u.pm = s.pm.putLevels s.dstBase.toNat (u.qb.map BitVec.toInt)
      ∧ ∃ rest, t = (u.withInputs rest).completePass := by
  obtain ⟨⟨hiu, hend⟩, hb⟩ := run_busy_induction (P := fun v => v.Inv ∧ v.passEnd = s.passEnd)
    (fun v w hv hbv hstep hbw => ⟨hv.1.step hstep, (passEnd_step hv.1 hbv hstep hbw).trans hv.2⟩) ⟨hi, rfl⟩ hbusy hrun
  obtain ⟨hpu, hcu, hcomplete⟩ := step_completes hb h ht hd
  rw [State.passEnd_complete hiu hpu hcu, State.passEnd_start hi hp hc hsat, eq_comm, Option.map_eq_some_iff] at hend
  obtain ⟨levels, hlevels, hend⟩ := hend
  obtain ⟨hqb, hsatu, hpm⟩ : _ ∧ _ ∧ _ := by simpa only [Prod.mk.injEq] using hend
  rw [hqb] at hsatu hpm
  exact ⟨levels, hlevels, hqb.symm, hsatu.symm, hpm.symm, hcomplete⟩

/-! ### Two machines with the same input -/

theorem arithOf_congr {c c' : Config} (hfmt : c.numFmt = c'.numFmt)
    (hfrac : c.numFmt = .fix → c.fracBits = c'.fracBits) : arithOf c = arithOf c' := by
  cases hc : c.numFmt with
  | fix => rw [arithOf_fix hc, arithOf_fix (hfmt.symm.trans hc), hfrac hc]
  | fp64 => rw [arithOf_fp64 hc, arithOf_fp64 (hfmt.symm.trans hc)]

namespace Memory

/-- The same bytes at two places are read as the same integer (rule R14). -/
theorem read_eq_of_bytes {m m' : Memory} {a b n : Nat} (h : ∀ j, j < n → m.byte (a + j) = m'.byte (b + j)) :
    m.read a n = m'.read b n := by
  induction n generalizing a b with
  | zero => rfl
  | succ n ih =>
    have hfirst : m.byte a = m'.byte b := h 0 n.succ_pos
    rw [read, read, hfirst, ih fun j hj => ?_]
    rw [Nat.add_assoc, Nat.add_assoc, Nat.add_comm 1 j]
    exact h (j + 1) (Nat.succ_lt_succ hj)

/-- The same bytes at two places are the same image (rules R78, R81). -/
theorem image_eq_of_bytes {m m' : Memory} {src src' n : Nat}
    (h : ∀ a, a < 4 * n → m.byte (src + a) = m'.byte (src' + a)) : m.image src n = m'.image src' n := by
  refine List.map_congr_left fun i hi => ?_
  rw [List.mem_range] at hi
  rw [pixel, pixel, read_eq_of_bytes fun j hj => ?_]
  rw [Nat.add_assoc, Nat.add_assoc]
  exact h _ (by omega)

/-- Phase 3 writes the same bytes for the same levels, wherever it writes them (rule R184). -/
theorem byte_putLevels_congr (levels : List Int) (m m' : Memory) (dst dst' : Nat) {a : Nat}
    (ha : a < 4 * levels.length) :
    (m.putLevels dst levels).byte (dst + a) = (m'.putLevels dst' levels).byte (dst' + a) := by
  induction levels generalizing m m' dst dst' a with
  | nil => cases ha
  | cons q qs ih =>
    rw [putLevels, putLevels]
    by_cases h4 : a < 4
    · rw [byte_putLevels _ _ (.inl (by omega)), byte_putLevels _ _ (.inl (by omega)), byte_putPixel, byte_putPixel]
      obtain rfl | rfl | rfl | rfl : a = 0 ∨ a = 1 ∨ a = 2 ∨ a = 3 := by omega
      all_goals simp
    · obtain ⟨b, rfl⟩ : ∃ b, a = 4 + b := ⟨a - 4, by omega⟩
      rw [← Nat.add_assoc, ← Nat.add_assoc]
      exact ih _ _ _ _ (by rw [List.length_cons] at ha; omega)

end Memory

/-- The levels of a pass depend on the input pixels, the size, the depth and the number format only (rule R189). -/
theorem State.passLevels_congr {s s' : State} (harith : arithOf s.cfg = arithOf s'.cfg) (hw : s.width = s'.width)
    (hh : s.height = s'.height) (hbits : s.bits = s'.bits)
    (hin : ∀ a, a < 4 * s.pixels → s.pm.byte (s.srcBase.toNat + a) = s'.pm.byte (s'.srcBase.toNat + a)) :
    s.passLevels = s'.passLevels := by
  have himage : s.inputImage = s'.inputImage := by
    rw [inputImage, inputImage, Memory.image_eq_of_bytes hin]
    simp only [pixels, W, H, hw, hh]
  simp only [passLevels, himage, harith, W, H, depth, hw, hh, hbits]

/-! ### The pass that an accepted DITHER begins -/

/-- An accepted DITHER begins a pass at its first pixel (rule R176). -/
theorem State.Inv.beginPass (hi : s.Inv) (hd : s.done = false) (ha : s.check = .accept) : s.beginPass.Inv := by
  obtain ⟨-, -, hpos, -⟩ := check_accept.1 ha
  exact ⟨hi.legal, hi.canonical, hi.within, hi.errDone, fun _ => hd, ha, hpos, rfl, rfl⟩

/-- With the host silent a pass is busy while engine steps remain (rules R37, R197). -/
theorem run_busy_of_lt_stepsLeft {k : Nat} (hi : s.Inv) (hin : s.inputs = []) (hk : k < s.stepsLeft) :
    ∃ u, Host.Core.run core k s = .next u ∧ u.busy = true := by
  induction k generalizing s with
  | zero => exact ⟨s, rfl, State.busy_of_stepsLeft (by omega)⟩
  | succ k ih =>
    obtain ⟨_, v, -, hstep, hv, hvin, -, hleft⟩ :=
      step_engine_pair (rest := []) hi rfl (State.busy_of_stepsLeft (by omega)) hin
    rw [← State.stepsLeft_of_passView hv] at hleft
    rw [run_succ hstep]
    exact ih (hi.step hstep) hvin (by omega)

end Sys2Proof.Machine

section
open Sys2Proof Sys2Proof.Machine

/-- Settles O53: the three loops, one after the other, and the completion step. -/
theorem engineStepsAreWholePass : Obligations.EngineStepsAreWholePass := fun _ hi hp hc hsat hin =>
  run_pass hi hp hc hsat hin

/-- Settles O55: the pass begins with 3N + 1 engine steps to go, and is busy while one is left. -/
theorem acceptedDitherEnds : Obligations.AcceptedDitherEnds := by
  intro s t hi _ hd hin ha h
  obtain rfl := Host.Outcome.next.inj ((exec_dither_accept ha).symm.trans h)
  have hi' := hi.beginPass hd ha
  refine ⟨?_, fun k hk => run_busy_of_lt_stepsLeft hi' hin ?_⟩
  · obtain ⟨levels, -, -, hrun⟩ := run_pass hi' rfl rfl rfl hin
    exact ⟨_, hrun, rfl, rfl, rfl⟩
  · rwa [State.stepsLeft_init rfl]

/-- Settles O57: what a pass ends with is kept by every turn, and at its start it is a function of the levels, which are
one of the input. -/
theorem passIsFunctionOfInput : Obligations.PassIsFunctionOfInput := by
  intro s s' u u' t t' k k' hi hi' hp hp' hc hc' hsat hsat' hfmt hfrac hw hh hbits hin hbusy hbusy' hrun hrun' hstep
    hstep' ht ht' hd hd'
  obtain ⟨levels, hlevels, hqb, hsatu, hpm, rest, rfl⟩ := pass_result hi hp hc hsat hbusy hrun hstep ht hd
  obtain ⟨levels', hlevels', hqb', hsatu', hpm', rest', rfl⟩ :=
    pass_result hi' hp' hc' hsat' hbusy' hrun' hstep' ht' hd'
  have hsame := State.passLevels_congr (arithOf_congr hfmt hfrac) hw hh hbits hin
  obtain rfl : levels = levels' := Option.some.inj (hlevels.symm.trans (hsame.trans hlevels'))
  have hqbs : u.qb = u'.qb := hqb.trans hqb'.symm
  obtain ⟨_, hsome, hlen⟩ := s.passLevels_some
  obtain rfl := Option.some.inj (hlevels.symm.trans hsome)
  refine ⟨hqbs, by rw [hsatu, hsatu', hqbs], fun a ha => ?_, rfl, rfl, rfl, rfl, fun hsilent => ?_⟩
  · show u.pm.byte _ = u'.pm.byte _
    rw [hpm, hpm', ← hqbs]
    refine Memory.byte_putLevels_congr _ _ _ _ _ ?_
    rw [List.length_map, hqb, List.length_map, hlen]
    exact ha
  · exact (run_busy_induction (P := fun v => v.inputs = [] ∧ v.range = s.range)
      (fun v w hv _ hvw hbw => (step_silent_busy hv.1 hvw hbw).imp_right (·.trans hv.2))
      ⟨hsilent, rfl⟩ hbusy hrun).1.2

end

/-! SUPPORT. DITHER's check in the words of rule R171, and the diffusion by the coordinates of its targets (rules R181,
R182). -/

namespace Sys2Proof.Machine

variable {s : State}

/-! ### The check -/

/-- `check()` on the registers (rule R171). -/
theorem check_eq (s : State) : s.check =
    if s.bits.toNat < 1 ∨ 8 < s.bits.toNat then .reject .invalidParam
    else if s.srcLen.toNat ≠ s.width.toNat * s.height.toNat * 4 then .reject .shapeMismatch
    else if s.width.toNat * s.height.toNat = 0 then .empty
    else if s.cfg.maxW < s.width.toNat ∨ s.cfg.maxH < s.height.toNat then .reject .dimRange
    else if s.srcBase.toNat % 4 ≠ 0 ∨ s.dstBase.toNat % 4 ≠ 0 then .reject .align
    else if s.cfg.pmBytes < s.srcBase.toNat + 4 * (s.width.toNat * s.height.toNat)
        ∨ s.cfg.pmBytes < s.dstBase.toNat + 4 * (s.width.toNat * s.height.toNat) then .reject .addrRange
    else .accept := by
  have hdepth : (!s.depthOk) = true ↔ s.bits.toNat < 1 ∨ 8 < s.bits.toNat := by
    rw [Bool.not_eq_true', ← Bool.not_eq_true, depthOk_iff]
    omega
  simp only [State.check, hdepth]
  rfl

/-- A zero-area image with a good depth and shape (rule R172). -/
theorem check_empty (hd : 1 ≤ s.bits.toNat ∧ s.bits.toNat ≤ 8)
    (hl : s.srcLen.toNat = s.width.toNat * s.height.toNat * 4)
    (h0 : s.width.toNat * s.height.toNat = 0) : s.check = .empty := by
  rw [check_eq, if_neg (by omega), if_neg (not_not.2 hl), if_pos h0]

namespace State

theorem readReg_beginPass {r : Reg} (hr : r ≠ .status) : s.beginPass.readReg r = s.readReg r := by
  cases r
  case status => exact absurd rfl hr
  all_goals rfl

theorem readReg_completePass {r : Reg} (hr : r ≠ .status) : s.completePass.readReg r = s.readReg r := by
  cases r
  case status => exact absurd rfl hr
  all_goals rfl

end State

/-! ### The targets of the diffusion -/

/-- A target is the pixel (nx, ny) exactly when it has its coordinates (rule R181). -/
theorem targetIndex_eq_index_iff {w h nx ny : Nat} {tx ty : Int} (hx : nx < w) (hy : ny < h) :
    targetIndex w h tx ty = some (ny * w + nx) ↔ tx = nx ∧ ty = ny := by
  rw [targetIndex_eq_some]
  constructor
  · rintro ⟨x', y', htx, hty, hx', -, heq⟩
    have hrow : ny = y' := by rw [← index_div ny hx, heq, index_div y' hx']
    have hcol : nx = x' := by rw [← index_mod ny hx, heq, index_mod y' hx']
    exact ⟨hcol ▸ htx, hrow ▸ hty⟩
  · rintro ⟨htx, hty⟩
    exact ⟨nx, ny, htx, hty, hx, hy, rfl⟩

/-- An update of an entry under a condition is an update of the entry by a function with that condition. -/
theorem ite_map_eq {α : Type} (p : Prop) [Decidable p] (f : α → α) (o : Option α) :
    (if p then o.map f else o) = o.map fun v => if p then f v else v := by
  by_cases hp : p <;> simp [hp]

/-- A target is in the image exactly when its coordinates are in bounds (rules R181, R182). -/
theorem targetIndex_isSome_iff {w h : Nat} {tx ty : Int} :
    (targetIndex w h tx ty).isSome = true ↔ 0 ≤ tx ∧ tx < w ∧ 0 ≤ ty ∧ ty < h := by
  unfold targetIndex
  split
  · exact iff_of_true rfl ‹_›
  · exact iff_of_false Bool.false_ne_true ‹_›

/-- The weight of one target, if it is in bounds (rule R182). -/
def weightInBounds (w h x y : Nat) (t : Int × Int × Nat) : Nat :=
  if 0 ≤ (x + t.1 : Int) ∧ (x + t.1 : Int) < w ∧ 0 ≤ (y + t.2.1 : Int) ∧ (y + t.2.1 : Int) < h then t.2.2 else 0

theorem diffusedWeight_eq_sum (w h x y : Nat) :
    diffusedWeight w h x y = (diffusionTargets.map (weightInBounds w h x y)).sum := by
  rw [diffusedWeight]
  induction diffusionTargets with
  | nil => rfl
  | cons t ts ih =>
    rw [List.filter_cons, List.map_cons, List.sum_cons, ← ih, weightInBounds]
    simp only [targetIndex_isSome_iff]
    split
    · rw [List.map_cons, List.sum_cons]
    · rw [Nat.zero_add]

/-- The weight that a pixel of the image diffuses: 7 to the right, and on the next row 3 to the left, 5 below and 1 to
the right (rule R182). -/
theorem diffusedWeight_eq {w h x y : Nat} (hx : x < w) (hy : y < h) : diffusedWeight w h x y =
    (if x + 1 < w then 7 else 0) + ((if 1 ≤ x ∧ y + 1 < h then 3 else 0)
      + ((if y + 1 < h then 5 else 0) + if x + 1 < w ∧ y + 1 < h then 1 else 0)) := by
  rw [diffusedWeight_eq_sum]
  simp only [diffusionTargets, List.map_cons, List.map_nil, List.sum_cons, List.sum_nil, Nat.add_zero, weightInBounds]
  congr 1
  · exact if_congr (by omega) rfl rfl
  congr 1
  · exact if_congr (by omega) rfl rfl
  congr 1
  · exact if_congr (by omega) rfl rfl
  · exact if_congr (by omega) rfl rfl

end Sys2Proof.Machine

section
open Sys2Proof Sys2Proof.Machine

/-- Settles O42: each of the four targets' updates reaches the one entry with the target's coordinates. -/
theorem diffusionUpdatesFourNeighbours : Obligations.DiffusionUpdatesFourNeighbours := by
  intro α A w h x y e eb _ _ hlen
  refine ⟨(diffuse_length A w h x y e eb).trans hlen, fun nx ny hnx hny => ?_⟩
  simp only [diffuse, diffusionTargets, List.foldl_cons, List.foldl_nil, getElem?_diffuseTo,
    targetIndex_eq_index_iff hnx hny]
  have hright : ((x : Int) + 1 = nx ∧ (y : Int) + 0 = ny) ↔ nx = x + 1 ∧ ny = y := by omega
  have hbelowLeft : ((x : Int) + -1 = nx ∧ (y : Int) + 1 = ny) ↔ nx + 1 = x ∧ ny = y + 1 := by omega
  have hbelow : ((x : Int) + 0 = nx ∧ (y : Int) + 1 = ny) ↔ nx = x ∧ ny = y + 1 := by omega
  have hbelowRight : ((x : Int) + 1 = nx ∧ (y : Int) + 1 = ny) ↔ nx = x + 1 ∧ ny = y + 1 := by omega
  simp only [hright, hbelowLeft, hbelow, hbelowRight]
  rw [ite_map_eq, ite_map_eq, ite_map_eq, ite_map_eq, Option.map_map, Option.map_map, Option.map_map]
  refine congrArg (Option.map · _) (funext fun v => ?_)
  -- at most one of the four conditions holds
  simp only [Function.comp_apply]
  by_cases h7 : nx = x + 1 ∧ ny = y
  · obtain ⟨rfl, rfl⟩ := h7
    simp
  by_cases h3 : nx + 1 = x ∧ ny = y + 1
  · obtain ⟨rfl, rfl⟩ := h3
    simp [show nx ≠ nx + 1 + 1 by omega]
  by_cases h5 : nx = x ∧ ny = y + 1
  · obtain ⟨rfl, rfl⟩ := h5
    simp
  simp only [h7, h3, h5, if_false]

/-- Settles O43. -/
theorem diffusionTargetsAreUnvisited : Obligations.DiffusionTargetsAreUnvisited := by
  intro w h x y j t hx _ ht hj
  refine ⟨target_after hx ht hj, ?_⟩
  obtain ⟨x', y', -, -, hx', hy', rfl⟩ := targetIndex_eq_some.1 hj
  exact index_lt hx' hy'

/-- Settles O44: in each position the in-bounds targets are known. -/
theorem borderWeights : Obligations.BorderWeights := by
  intro w h x y hx hy
  rw [diffusedWeight_eq hx hy]
  refine ⟨fun hl hr hb => ?_, fun hl hr hb => ?_, fun hr hl hb => ?_, fun hw hb => ?_, fun hb hr => ?_, fun hb hr => ?_⟩
  · rw [if_pos (by omega), if_pos (by omega), if_pos (by omega), if_pos (by omega)]
  · rw [if_pos (by omega), if_neg (by omega), if_pos (by omega), if_pos (by omega)]
  · rw [if_neg (by omega), if_pos (by omega), if_pos (by omega), if_neg (by omega)]
  · rw [if_neg (by omega), if_neg (by omega), if_pos (by omega), if_neg (by omega)]
  · rw [if_pos (by omega), if_neg (by omega), if_neg (by omega), if_neg (by omega)]
  · rw [if_neg (by omega), if_neg (by omega), if_neg (by omega), if_neg (by omega)]

/-- Settles O45. -/
theorem materializerWritesGreyPixel : Obligations.MaterializerWritesGreyPixel := by
  intro s hi hp hc
  obtain ⟨ha, -, hqb⟩ := (State.passInv_mat hp).1 hi.pass
  have hq : s.qb[s.cursor]? = some _ := List.getElem?_eq_getElem (hqb ▸ hc)
  refine ⟨_, _, hq, engineStep_mat hp hc hq (accept_dst ha hc), fun k hk => ?_, ?_, fun a ha => ?_, ?_, rfl⟩
  · refine (Memory.byte_putPixel ..).trans ?_
    obtain rfl | rfl | rfl : k = 0 ∨ k = 1 ∨ k = 2 := by omega
    all_goals simp [materialize, Pixel.grey, qbLevel]
  · refine (Memory.byte_putPixel ..).trans ?_
    simp [materialize, Pixel.grey]
  · refine (Memory.byte_putPixel ..).trans ?_
    rw [if_neg (by omega), if_neg (by omega), if_neg (by omega), if_neg (by omega)]
  · simp [outOfRange, qbLevel]

/-- Settles O37. -/
theorem ditherChecksInOrder : Obligations.DitherChecksInOrder := by
  intro s bits w h srcB dstB
  change execDither s = _
  rw [execDither, check_eq]
  split_ifs <;> rfl

/-- Settles O38. -/
theorem zeroAreaEndsAtOnce : Obligations.ZeroAreaEndsAtOnce := by
  intro s h1 h8 hl h0 hb
  have harea : s.width.toNat * s.height.toNat = 0 := Nat.mul_eq_zero.2 h0
  have hcheck : s.check = .empty := check_empty ⟨h1, h8⟩ (by rw [hl, harea]; rfl) harea
  exact ⟨_, exec_dither_empty hcheck, rfl, hb⟩

/-- Settles O39. -/
theorem acceptedDitherBeginsPass : Obligations.AcceptedDitherBeginsPass := by
  intro s h1 h8 hl hpos hw hh hsrc hdst hsrcEnd hdstEnd
  have hcheck : s.check = .accept :=
    check_accept.2 ⟨(depthOk_iff s).2 ⟨h1, h8⟩, hl, hpos, hw, hh, hsrc, hdst, hsrcEnd, hdstEnd⟩
  exact ⟨_, exec_dither_accept hcheck, rfl, rfl, rfl, rfl, rfl, rfl, fun _ => rfl, fun _ => State.readReg_beginPass⟩

/-- Settles O46. -/
theorem completionStepReports : Obligations.CompletionStepReports := fun _ hp hc =>
  ⟨_, engineStep_done hp hc, rfl, rfl, rfl, rfl, rfl, rfl, rfl, fun _ => State.readReg_completePass⟩

end

/-! SUPPORT. The quantizer at its two ends, bits = 1 and bits = 8 (rules R191, R192), the words of rule R187 as
integers, and the levels of lumas (rules R153, R195). -/

namespace Sys2Proof.Machine

/-! ### Depth 1 -/

/-- At bits = 1 the step is 255 (rule R150). -/
theorem levelOf_one (idx : Int) : levelOf idx 1 = 255 * idx :=
  levelOf_eq_of_near le_rfl (by simp [steps]; omega) (by simp [steps]; omega)

/-- Every multiple of 255 saturates to black or to white (rule R12). -/
theorem sat8_mul_255 (k : Int) : sat8 (255 * k) = 0 ∨ sat8 (255 * k) = 255 := by
  unfold sat8
  rcases lt_trichotomy k 0 with hneg | rfl | hpos
  · exact .inl (if_pos (by omega))
  · exact .inl rfl
  · right
    rw [if_neg (by omega)]
    by_cases hone : k = 1
    · subst hone
      rfl
    · exact if_pos (by omega)

/-- A level in [0, 255] is not changed by saturation (rule R12). -/
theorem toNat_sat8 {q : Int} (h0 : 0 ≤ q) (h255 : q ≤ 255) : ((sat8 q).toNat : Int) = q := by
  rw [sat8, if_neg (by omega), if_neg (by omega), BitVec.toNat_ofInt]
  omega

/-! ### The words of rule R187 -/

theorem toInt_ofInt_64 {i : Int} (h : |i| ≤ 2 ^ 62) : (BitVec.ofInt 64 i).toInt = i := by
  rw [abs_le] at h
  exact BitVec.toInt_ofInt_eq_self (by decide) (by omega) (by omega)

/-- The FIX term is the floor of its exact quotient (rule R187). -/
theorem termFix_eq_floor (e : Int) (w : Nat) : termFix e w = ⌊(e * w + 8 : ℚ) / 16⌋ := by
  have h := Rat.floor_intCast_div_natCast (e * w + 8) 16
  push_cast at h
  exact h.symm

section
variable {f : Nat} (hf : f ≤ 32) {v t : NumWord} (hv : |v.toInt| ≤ 400 * 2 ^ f)
include hf hv

/-- The FIX error of a value of a pass does not wrap (rules R163, R187). -/
theorem toInt_fixArith_err {q : Int} (hlow : -255 ≤ q) (hhigh : q ≤ 510) :
    ((fixArith f).err v q).toInt = v.toInt - q * 2 ^ f := by
  have hpow : (2 : Int) ^ f ≤ 2 ^ 32 := pow_le_pow_right₀ one_le_two hf
  have hpos : (0 : Int) < 2 ^ f := by positivity
  refine toInt_ofInt_64 ?_
  rw [errFix]
  rw [abs_le] at hv ⊢
  constructor <;> nlinarith

/-- The FIX term of a value of a pass does not wrap (rules R163, R187). -/
theorem toInt_fixArith_term {w : Nat} (hw : w ≤ 16) : ((fixArith f).term v w).toInt = termFix v.toInt w := by
  have hpow : (2 : Int) ^ f ≤ 2 ^ 32 := pow_le_pow_right₀ one_le_two hf
  have hprod : |v.toInt * w| ≤ 400 * 2 ^ f * 16 := by
    rw [abs_mul, Nat.abs_cast]
    exact mul_le_mul hv (by exact_mod_cast hw) (by positivity) (by positivity)
  obtain ⟨hle, hlt⟩ := termFix_near v.toInt w
  refine toInt_ofInt_64 ?_
  rw [abs_le] at hprod ⊢
  constructor <;> linarith

/-- The FIX accumulation of values of a pass does not wrap (rules R163, R187). -/
theorem toInt_fixArith_add (ht : |t.toInt| ≤ 400 * 2 ^ f) : ((fixArith f).add v t).toInt = v.toInt + t.toInt := by
  have hpow : (2 : Int) ^ f ≤ 2 ^ 32 := pow_le_pow_right₀ one_le_two hf
  exact toInt_ofInt_64 ((abs_add_le _ _).trans (by linarith))

end

/-! ### The level of a luma -/

/-- The level of an index in [0, L] is in LEVELS(bits), which lies in [0, 255] (rule R151). -/
theorem levelOf_mem {bits : Nat} (h : 1 ≤ bits) (h8 : bits ≤ 8) {idx : Int} (h0 : 0 ≤ idx) (hL : idx ≤ steps bits) :
    levelOf idx bits ∈ levelSet bits ∧ 0 ≤ levelOf idx bits ∧ levelOf idx bits ≤ 255 := by
  have hmono := (levelOf_strictMono h h8).monotone
  refine ⟨?_, (levelOf_zero h).symm.trans_le (hmono h0), (hmono hL).trans_eq (levelOf_steps h)⟩
  rw [levelSet_eq_map_levelOf]
  exact List.mem_map.2 ⟨idx.toNat, List.mem_range.2 (by omega), by rw [Int.toNat_of_nonneg h0]⟩

/-- A value in [0, 255] has an index in [0, L] in both hardware modes (rules R153, R155). -/
theorem indexOf_mem {c : Config} {bits : Nat} (h : 1 ≤ bits) (h8 : bits ≤ 8) {w : NumWord}
    (hw : isNumericWord c w = true) (h0 : 0 ≤ numericValue c w) (h255 : numericValue c w ≤ 255) :
    0 ≤ indexOf c w bits ∧ indexOf c w bits ≤ steps bits := by
  have hnear := indexOf_near h h8 hw (abs_le.2 ⟨by linarith, by linarith⟩)
  have hL : (0 : ℚ) ≤ steps bits := Nat.cast_nonneg _
  have hlow := mul_nonneg h0 hL
  have hhigh := mul_le_mul_of_nonneg_right h255 hL
  rw [abs_le] at hnear
  have hlowQ : (-1 : ℚ) < indexOf c w bits := by linarith
  have hhighQ : (indexOf c w bits : ℚ) < steps bits + 1 := by linarith
  have hlowZ : -1 < indexOf c w bits := by exact_mod_cast hlowQ
  have hhighZ : indexOf c w bits < steps bits + 1 := by exact_mod_cast hhighQ
  omega

/-! ### Depth 8 in exact arithmetic -/

/-- At bits = 8 the exact quantizer is one rounding (rule R192). -/
theorem quantReal_eight (v : ℚ) : quantReal v 8 = rhuReal v := by
  have hlevel (idx : Int) : levelOf idx 8 = idx :=
    levelOf_eq_of_near (by decide) (by simp [steps]) (by simp [steps])
  rw [quantReal_eq_levelOf v (by decide), hlevel, indexReal]
  congr 1
  norm_num [steps]

theorem sub_quantReal_eight (v : ℚ) : |v - quantReal v 8| ≤ 1 / 2 := by
  obtain ⟨hlow, hhigh⟩ := rhuReal_eq_iff.1 (quantReal_eight v).symm
  rw [abs_le]
  constructor <;> linarith

/-- Entry j of the exact Error Buffer is within n sixteenths of 16ε of its pixel's luma. -/
def NearLuma (image : List Pixel) (ε : ℚ) (j n : Nat) (v : ℚ) : Prop :=
  ∃ p, image[j]? = some p ∧ |v - lumaReal p| ≤ n * ε

section
variable {image : List Pixel} {ε : ℚ} (hε : 0 ≤ ε)
  (herr : ∀ p ∈ image, ∀ v : ℚ, |v - lumaReal p| ≤ 16 * ε → |v - quantReal v 8| ≤ 16 * ε)
include hε herr

/-- Where no error exceeds 16ε, no entry moves further than ε for each sixteenth it receives. -/
theorem realDiffusionBound : DiffusionBound realArith 8 (NearLuma image ε) (|·| ≤ 16 * ε) where
  mono := by
    rintro j n m v ⟨p, hp, hv⟩ hnm
    exact ⟨p, hp, hv.trans (mul_le_mul_of_nonneg_right (Nat.cast_le.2 hnm) hε)⟩
  err := by
    rintro j v ⟨p, hp, hv⟩
    exact herr p (List.mem_of_getElem? hp) v hv
  receive := by
    rintro j n w v e ⟨p, hp, hv⟩ he - -
    refine ⟨p, hp, ?_⟩
    have hterm : |e * w / 16| ≤ w * ε := by
      have := mul_le_mul_of_nonneg_right he (Nat.cast_nonneg w : (0 : ℚ) ≤ w)
      rw [abs_div, abs_mul, Nat.abs_cast, abs_of_pos (by norm_num : (0 : ℚ) < 16)]
      linarith
    rw [abs_le] at hv hterm ⊢
    show _ ≤ v + e * w / 16 - _ ∧ v + e * w / 16 - _ ≤ _
    push_cast
    constructor <;> linarith

/-- Every exact level at bits = 8 is within 32ε of its pixel's luma (rule R192). -/
theorem realLevels_near {w h : Nat} (himage : image.length = w * h) :
    ∃ levels, ditherLevels realArith w h 8 image = some levels ∧ levels.length = w * h
      ∧ ∀ (i : Nat) (p : Pixel) (q : Int), image[i]? = some p → levels[i]? = some q →
        |(q : ℚ) - lumaReal p| ≤ 32 * ε := by
  have hstart (j : Nat) (v : ℚ) (hv : (image.map realArith.luma)[j]? = some v) :
      NearLuma image ε j (receivedWeight w 0 j) v := by
    rw [List.getElem?_map, Option.map_eq_some_iff] at hv
    obtain ⟨p, hp, rfl⟩ := hv
    refine ⟨p, hp, ?_⟩
    rw [show realArith.luma p - lumaReal p = 0 from sub_self _, abs_zero]
    positivity
  obtain ⟨levels, -, hloop, -, hlen, -, hq, -⟩ :=
    (realDiffusionBound hε herr).scan_near (w * h) 0 (Nat.zero_add _).le ((List.length_map ..).trans himage) hstart
  refine ⟨levels, hloop, hlen, fun i p q hp hi => ?_⟩
  obtain ⟨v, ⟨p', hp', hv⟩, rfl⟩ := hq i q hi
  rw [Nat.zero_add, hp, Option.some.injEq] at hp'
  subst hp'
  push_cast at hv
  have hround := herr p (List.mem_of_getElem? hp) v hv
  rw [abs_le] at hv hround ⊢
  show _ ≤ (quantReal v 8 : ℚ) - _ ∧ (quantReal v 8 : ℚ) - _ ≤ _
  constructor <;> linarith

end

end Sys2Proof.Machine

section
open Sys2Proof Sys2Proof.Machine

/-- Settles O32: at bits = 1 every level is a multiple of 255. -/
theorem depthOneGivesBlackOrWhite : Obligations.DepthOneGivesBlackOrWhite := by
  refine ⟨fun f v => ?_, fun c w hfmt hok => ?_⟩
  · rw [quantFix, levelOf_one]
    exact sat8_mul_255 _
  · obtain ⟨hw, hv⟩ := operandOk_value hok
    have hquant : quantF64 w 1 = 255 * indexOf c w 1 := by
      rw [← levelOf_one, ← arithOf_quant le_rfl (by decide) hw hv, arithOf_fp64 hfmt]
      rfl
    rw [hquant]
    exact sat8_mul_255 _

/-- Settles O33. -/
theorem errorTermAndAddOfEachMode : Obligations.ErrorTermAndAddOfEachMode := by
  refine ⟨fun e w => ?_, fun e => ?_, fun e => ?_, fun s hlegal hfmt v t hv ht => ?_, fun s hfmt v t q w => ?_⟩
  · obtain ⟨hle, hlt⟩ := termFix_near e w
    have hleQ : (16 * termFix e w : ℚ) ≤ e * w + 8 := by exact_mod_cast hle
    have hltQ : (e * w + 8 : ℚ) < 16 * termFix e w + 16 := by exact_mod_cast hlt
    rw [abs_le]
    constructor <;> linarith
  · have h7 := termFix_near e 7
    have h3 := termFix_near e 3
    have h5 := termFix_near e 5
    have h1 := termFix_near e 1
    push_cast at h7 h3 h5 h1
    rw [abs_le]
    omega
  · show e * (7 : Nat) / 16 + e * (3 : Nat) / 16 + e * (5 : Nat) / 16 + e * (1 : Nat) / 16 = e
    push_cast
    ring
  · obtain ⟨-, hf⟩ := (Config.legal_iff.1 hlegal).1 hfmt
    rw [arithOf_fix hfmt]
    exact ⟨fun q hlow hhigh => toInt_fixArith_err hf hv hlow hhigh,
      fun w hw => (toInt_fixArith_term hf hv hw).trans (termFix_eq_floor _ _), toInt_fixArith_add hf hv ht⟩
  · rw [arithOf_fp64 hfmt]
    exact ⟨rfl, rfl, rfl⟩

/-- Settles O59: an entry is within half a unit of its luma and its level is within half a unit of it; where every luma
is an integer no pixel has an error. -/
theorem realDepthEightFollowsLuma : Obligations.RealDepthEightFollowsLuma := by
  intro w h image himage
  obtain ⟨levels, hlevels, hlen, hnear⟩ := realLevels_near (image := image) (ε := 1 / 32) (by norm_num)
    (fun p _ v _ => (sub_quantReal_eight v).trans (by norm_num)) himage
  refine ⟨levels, hlevels, hlen, fun i p q hp hq => (hnear i p q hp hq).trans (by norm_num), fun hint i p q hp hq => ?_⟩
  have hexact (p : Pixel) (hp : p ∈ image) (v : ℚ) (hv : |v - lumaReal p| ≤ 16 * 0) :
      |v - quantReal v 8| ≤ 16 * 0 := by
    obtain ⟨k, hk⟩ := hint p hp
    rw [mul_zero, abs_nonpos_iff, sub_eq_zero] at hv ⊢
    rw [quantReal_eight, hv, hk, rhuReal_intCast]
  obtain ⟨levels', hlevels', -, hequal⟩ := realLevels_near le_rfl hexact himage
  obtain rfl := Option.some.inj (hlevels.symm.trans hlevels')
  simpa [sub_eq_zero] using hequal i p q hp hq

/-- Settles O60: a luma is in [0, 255], so its index is in [0, L]. -/
theorem singlePixelIsQuantizedLuma : Obligations.SinglePixelIsQuantizedLuma := by
  refine ⟨fun _ _ _ _ => rfl, ?_⟩
  rintro c bits p _ hc h h8 rfl
  obtain ⟨hw, h0, h255⟩ := arithOf_luma_bounds hc p
  obtain ⟨hidx0, hidxL⟩ := indexOf_mem h h8 hw h0 h255
  obtain ⟨hmem, hlow, hhigh⟩ := levelOf_mem h h8 hidx0 hidxL
  rw [arithOf_quant h h8 hw (abs_le.2 ⟨by linarith, by linarith⟩)]
  exact ⟨hmem, toNat_sat8 hlow hhigh⟩

end

/-! SUPPORT. The host's register writes and the issue of a command word (rules R41, R210 to R217): what every register
reads after a write, and what a decoded word runs. -/

namespace Sys2Proof.Machine

/-! ### Register writes -/

/-- The nine registers of rule R216 are those that are busy-locked, but for CTRL (rule R30). -/
theorem Reg.mem_storedWhole_iff {r : Reg} :
    r ∈ [Reg.bits, .width, .height, .srcLen, .srcBase, .dstBase, .opa, .qinLo, .qinHi] ↔
      r.busyLocked = true ∧ r ≠ .ctrl := by
  cases r <;> decide

namespace State

variable (s : State) (v : Word) (r : Reg)

@[simp] theorem storeReg_response : (s.storeReg v r).response = s.response := by cases r <;> rfl

/-- What every register reads after a write to a register that stores its word whole (rule R216). -/
theorem readReg_storeReg {r : Reg} (hlocked : r.busyLocked = true) (hctrl : r ≠ .ctrl) (r' : Reg) :
    (s.storeReg v r).readReg r' = if r' = r then v else s.readReg r' := by
  cases r
  case id | cfg0 | cfg1 | cfg2 | status | irqen | lresLo | lresHi | qres => cases hlocked
  case ctrl => exact absurd rfl hctrl
  all_goals cases r' <;> rfl

/-- The answer to an access is no register (log 3). -/
@[simp] theorem readReg_respond (a : Response) : (s.respond a).readReg r = s.readReg r := by cases r <;> rfl

/-- The turns still to come are no register (log 2). -/
@[simp] theorem readReg_withInputs (rest : List Input) : (s.withInputs rest).readReg r = s.readReg r := by
  cases r <;> rfl

/-- IRQEN reads bit 0 of the word last written, alone (rules R41, R215). -/
theorem irqenWord_writeIrqen : (s.writeIrqen v).irqenWord = v &&& 1 :=
  calc (s.writeIrqen v).irqenWord
    _ = (BitVec.ofBool (v.getLsbD 0)).setWidth 32 := (BitVec.setWidth_eq_append (by decide)).symm
    _ = v &&& 1 := BitVec.and_one_eq_setWidth_ofBool_getLsbD.symm

end State

/-! ### The issue of a command word -/

theorem issue_ok {w : Word} {i : Instr} (h : decode w = .ok i) (s : State) : issue w s = exec i s := by
  simp only [issue, h]

theorem issue_error {w : Word} {e : Illegal} (h : decode w = .error e) (s : State) :
    issue w s = .next (illegalCommand s) := by
  simp only [issue, h]

end Sys2Proof.Machine

section
open Sys2Proof Sys2Proof.Machine

/-- Settles O6: a busy-locked register is written whole when idle and dropped when busy. -/
theorem registerWriteStoresWholeWord : Obligations.RegisterWriteStoresWholeWord := by
  intro s r v rest hr hin
  obtain ⟨hlocked, hctrl⟩ := Reg.mem_storedWhole_iff.1 hr
  refine ⟨fun hb => ?_, fun hb => step_writeReg_busy hin hb hlocked⟩
  have hread := ((s.withInputs rest).respond .written).readReg_storeReg v hlocked hctrl
  refine ⟨_, step_writeReg hin (.inl hb) hctrl, ?_, fun r' hr' => ?_, ?_, ?_, ?_, ?_⟩
  · rw [hread, if_pos rfl]
  · rw [hread, if_neg hr', State.readReg_respond, State.readReg_withInputs]
  all_goals simp

/-- Settles O8: neither register is busy-locked, so neither write is dropped. -/
theorem statusAndIrqenWrites : Obligations.StatusAndIrqenWrites := by
  refine ⟨fun s v rest hin => ?_, fun s v rest hin => ?_⟩
  · have hclear (flag bit : Bool) : (flag && !bit) = if bit then false else flag := by cases bit <;> simp
    rw [step_writeReg hin (.inr rfl) (by decide), State.storeReg, State.writeStatus, hclear, hclear, hclear]
    rfl
  · exact ⟨_, step_writeReg hin (.inr rfl) (by decide), rfl, State.irqenWord_writeIrqen _ v, rfl⟩

/-- Settles O17. -/
theorem stepRunsDecodedCommand : Obligations.StepRunsDecodedCommand := by
  intro s w rest hin
  refine ⟨fun hb i hi => ?_, fun hb e he => ⟨?_, rfl⟩, fun hb => step_writeReg_busy hin hb rfl⟩
  · rw [step_writeCtrl hin hb, issue_ok hi]
    rfl
  · rw [step_writeCtrl hin hb, issue_error he]
    rfl

/-- Settles O18. -/
theorem nopEndsWithSuccess : Obligations.NopEndsWithSuccess := exec_nop

end

/-! SUPPORT. Progress: no turn ends in a fault or a refusal (rules R46, R232), and the interrupt line after each
operation that moves DONE or EN (rule R240). -/

namespace Sys2Proof.Machine

/-! ### Progress -/

/-- A command word that decodes runs its command, any other raises ILLEGAL_CMD; neither stops the machine
(rules R210, R212). -/
theorem issue_next (w : Word) (s : State) : ∃ t, issue w s = .next t := by
  cases hd : decode w with
  | error e => exact ⟨_, issue_error hd s⟩
  | ok i =>
    rw [issue_ok hd]
    rcases exec_cases i s with ⟨_, h⟩ | h | ⟨_, h⟩ | ⟨_, h⟩ | ⟨_, _, h⟩ <;> exact ⟨_, h⟩

section
variable {s : State}

/-- A host access is answered whether the machine is busy or idle (rules R77, R280, R281). -/
theorem step_host_next {a : Access} {rest : List Input} (hin : s.inputs = .host a :: rest) :
    ∃ t, step s = .next t := by
  cases hb : s.busy with
  | true =>
    obtain ⟨t, ht, -⟩ := step_host_busy hb hin
    exact ⟨t, ht⟩
  | false =>
    cases a with
    | read w a => exact ⟨_, step_read hin⟩
    | write w a v =>
      cases hg : target s.cfg w a with
      | busError => exact ⟨_, step_busError hg (.inr hin)⟩
      | pm off => exact ⟨_, step_writePm hg hb hin⟩
      | reg r =>
        obtain ⟨rfl, rfl⟩ := target_reg_iff.1 hg
        by_cases hr : r = .ctrl
        · subst hr
          rw [step_writeCtrl hin hb]
          exact issue_next v _
        · exact ⟨_, step_writeReg hin (.inl hb) hr⟩

namespace State

/-- The engine finds every byte and buffer entry it reads (rules R46, R72, R171). -/
theorem Inv.engineStep_next (hi : s.Inv) : ∃ t, Machine.engineStep s = .next t := by
  obtain ⟨t, -, ht, -⟩ := engineStep_withPass hi s
  exact ⟨t, ht⟩

theorem Inv.step_next (hi : s.Inv) : ∃ t, Machine.step s = .next t := by
  rcases hin : s.inputs with _ | ⟨a | _ | _, rest⟩
  case nil => exact step_silent hin ▸ hi.engineStep_next
  case cons.host => exact step_host_next hin
  case cons.engine => exact step_engine hin ▸ (hi.withInputs rest).engineStep_next
  case cons.reset => exact ⟨_, step_reset hin⟩

end State

end

/-! ### The interrupt line -/

namespace State

variable (s : State)

/-- Bit 1 of STATUS is DONE (rule R36). -/
theorem getLsbD_statusWord_one : s.statusWord.getLsbD 1 = s.done := by
  simp only [statusWord, BitVec.getLsbD_append]
  simp

/-- Bit 0 of IRQEN is EN (rule R41). -/
theorem getLsbD_irqenWord_zero : s.irqenWord.getLsbD 0 = s.irqEn := by
  simp only [irqenWord, BitVec.getLsbD_append]
  simp

end State

/-- The end of a command, with success or with an error, sets DONE and leaves EN alone (rules R234, R235); an accepted
DITHER has not ended. -/
theorem exec_ended {i : Instr} {s t : State} (h : exec i s = .next t) (hb : t.busy = false) :
    t.done = true ∧ t.irqEn = s.irqEn := by
  rcases exec_cases i s with ⟨e, he⟩ | he | ⟨-, he⟩ | ⟨-, he⟩ | ⟨-, -, he⟩ <;> cases he.symm.trans h
  case inr.inr.inr.inr => cases hb
  all_goals exact ⟨rfl, rfl⟩

end Sys2Proof.Machine

section
open Sys2Proof Sys2Proof.Machine

/-- Settles O49: every state that meets the invariant has a next one, which meets it again. -/
theorem runsNeverStop : Obligations.RunsNeverStop := by
  intro k
  induction k with
  | zero => exact fun s _ => ⟨s, rfl⟩
  | succ k ih =>
    intro s hi
    obtain ⟨t, ht⟩ := hi.step_next
    rw [run_succ ht]
    exact ih t (hi.step ht)

/-- Settles O23: of the five shapes of a command's end only `raise` leaves ERR ≠ 0. -/
theorem errorReportIsPrecise : Obligations.ErrorReportIsPrecise := by
  intro i s t hs h ht
  rcases exec_cases i s with ⟨e, he⟩ | he | ⟨-, he⟩ | ⟨-, he⟩ | ⟨-, -, he⟩ <;> cases he.symm.trans h
  case inl => rfl
  case inr.inr.inr.inr => exact absurd hs ht
  all_goals exact absurd rfl ht

/-- Settles O9: a command that has ended has set DONE, and each lowering event clears DONE or EN. -/
theorem interruptLineIsDoneAndEnable : Obligations.InterruptLineIsDoneAndEnable := by
  refine ⟨fun s => ?_, fun i s t _ h ht => ?_, fun _ => rfl, fun _ => rfl, fun _ => rfl, fun s v hv => ?_,
    fun s v hv => ?_⟩
  · rw [State.readReg, State.readReg, s.getLsbD_statusWord_one, s.getLsbD_irqenWord_zero, State.irq]
  · obtain ⟨hdone, hen⟩ := exec_ended h ht
    rw [State.irq, hdone, hen, Bool.true_and]
  · rw [State.irq, State.writeStatus, hv, Bool.not_true, Bool.and_false, Bool.false_and]
  · rw [State.irq, State.writeIrqen, hv, Bool.and_false]

end

/-! SUPPORT. Reset (rules R270 to R273), and what a host access while BUSY = 1 leaves as it was (rules R280 to R283). -/

namespace Sys2Proof.Machine

/-! ### Reset -/

namespace State

variable (s : State)

/-- STATUS reads 0 after a reset (rules R36, R270). -/
theorem statusWord_applyReset : s.applyReset.statusWord = 0 := by
  simp [statusWord, busy, ErrCode.code]

/-- IRQEN reads 0 after a reset (rules R41, R270). -/
theorem irqenWord_applyReset : s.applyReset.irqenWord = 0 := by
  simp [irqenWord]

/-- The output region is from DST_BASE on, 4 bytes a pixel (rules R81, R273). -/
theorem inOutput_iff {a : Nat} :
    s.inOutput a = true ↔ s.dstBase.toNat ≤ a ∧ a < s.dstBase.toNat + 4 * s.pixels := by
  simp only [inOutput, Bool.and_eq_true, decide_eq_true_eq]

/-- What a reset leaves in each byte of pixel memory (rules R272, R273). -/
theorem byte_applyReset_pm (a : Nat) : s.applyReset.pm.byte a =
    if s.busy = true ∧ s.inOutput a = true then Config.abandonedByte s.draws a else s.pm.byte a := by
  cases hb : s.busy with
  | false => simp [s.applyReset_pm_idle hb]
  | true => simp only [s.applyReset_pm_busy hb, Memory.byte_scramble, inOutput_iff, true_and]

end State

/-! ### Host accesses while BUSY = 1 -/

/-- The registers that rule R280 locks are CTRL and the nine of rule R216 (rule R30). -/
theorem Reg.mem_locked_iff {r : Reg} :
    r ∈ [Reg.ctrl, .bits, .width, .height, .srcLen, .srcBase, .dstBase, .opa, .qinLo, .qinHi] ↔
      r.busyLocked = true := by
  cases r <;> decide

section
variable {s t : State} {a : Access} {rest : List Input}

theorem not_completes_host (hin : s.inputs = .host a :: rest) : ¬ s.Completes := by
  simp [State.Completes, hin]

/-- A host turn clears a flag by a STATUS write with its bit only (rule R214). -/
theorem clearsFlag_host_iff {bit : Nat} (hin : s.inputs = .host a :: rest) :
    s.ClearsFlag bit ↔ ∃ v, a = .write .b4 Reg.status.addr v ∧ v.getLsbD bit = true := by
  simp [State.ClearsFlag, hin]

/-- A host access other than a STATUS write with bit 8 keeps RANGE (rules R39, R214). -/
theorem step_host_range (hin : s.inputs = .host a :: rest) (h : step s = .next t)
    (ha : ∀ v, a = .write .b4 Reg.status.addr v → v.getLsbD 8 = false) : t.range = s.range := by
  have hclears : ¬ s.ClearsFlag 8 := by
    rw [clearsFlag_host_iff hin]
    rintro ⟨v, hv, hbit⟩
    exact Bool.false_ne_true ((ha v hv).symm.trans hbit)
  rw [Bool.eq_iff_iff, step_range h]
  simp only [hclears, not_completes_host hin, not_false_eq_true, true_and, false_and, or_false]

end

end Sys2Proof.Machine

section
open Sys2Proof Sys2Proof.Machine

/-- Settles O2: a reset draws afresh the output region of a pass it cuts short, and no other byte. -/
theorem resetKeepsPixelMemoryButAbandonedOutput : Obligations.ResetKeepsPixelMemoryButAbandonedOutput := by
  intro s rest hin
  have hbyte := (s.withInputs rest).byte_applyReset_pm
  refine ⟨_, step_reset hin, rfl, rfl, (s.withInputs rest).applyReset_pm_idle, fun a ha => ?_, fun hb a ha => ?_⟩
  · exact (hbyte a).trans (if_neg fun h => Bool.false_ne_true (ha.symm.trans h.2))
  · exact (hbyte a).trans (if_pos ⟨hb, ha⟩)

/-- Settles O10: STATUS and IRQEN are not busy-locked. -/
theorem busyRegisterWritesAreDropped : Obligations.BusyRegisterWritesAreDropped := fun _ _ hb =>
  ⟨fun _ _ hr hin => step_writeReg_busy hin hb (Reg.mem_locked_iff.1 hr),
    fun _ hin => step_writeReg hin (.inr rfl) (by decide),
    fun _ hin => step_writeReg hin (.inr rfl) (by decide),
    fun _ hin => step_readReg hin⟩

/-- Settles O14. -/
theorem busyPixelMemoryAccess : Obligations.BusyPixelMemoryAccess := by
  intro s w off v rest hlegal hb hal hoff
  obtain ⟨-, -, -, -, -, hpm⟩ := Config.legal_iff.1 hlegal
  have ht := target_pm s.cfg w off hpm hal hoff
  exact ⟨step_writePm_busy ht hb, step_readPm_busy ht hb⟩

/-- Settles O52: a host access is no completion step, and clears RANGE by a STATUS write with bit 8 only. -/
theorem hostAccessLeavesPassAlone : Obligations.HostAccessLeavesPassAlone := by
  intro s a rest hb hin
  obtain ⟨t, ht, hview, -⟩ := step_host_busy hb hin
  exact ⟨t, ht, hview, step_host_range hin ht⟩

/-- Settles O1: STATUS and IRQEN are built from flags that a reset clears. -/
theorem resetPutsRegistersInResetValues : Obligations.ResetPutsRegistersInResetValues := by
  intro s rest hin
  have hstatus := (s.withInputs rest).statusWord_applyReset
  have hirqen := (s.withInputs rest).irqenWord_applyReset
  exact ⟨_, step_reset hin, rfl, rfl, rfl, rfl, rfl, rfl, hstatus, hirqen, rfl, rfl, rfl, rfl, rfl, rfl, rfl, rfl, rfl,
    rfl, rfl, rfl, rfl, rfl⟩

end
